-- ==== Sys2Proof/Word.lean ====
section
/-! DEFINITION. The widths of the block (rule R11) and the plain data built from them: bytes, 9-bit channel words,
16-bit codes, dates and slots, 32-bit words of the alternate cipher, and the 56-bit working key as two halves. -/

namespace Sys2Proof

/-- 8 bits: one data byte, one PersistentStore cell (R11). -/
abbrev Byte := BitVec 8

/-- `WORD_BITS`: width of a HostChannel word, 8 data bits and 1 framing bit (R9). -/
@[simp] abbrev wordBits : Nat := 9

/-- One HostChannel word (R90). -/
abbrev Word9 := BitVec wordBits

/-- 16 bits: a command code, a date (R11). -/
abbrev Word16 := BitVec 16

/-- `RB_SLOT_BITS`: width of one ResponseBuffer slot (R9). -/
@[simp] abbrev rbSlotBits : Nat := 16

/-- One ResponseBuffer slot (R33). -/
abbrev SlotWord := BitVec rbSlotBits

/-- 32 bits: a word of the alternate cipher (R11). -/
abbrev Word32 := BitVec 32

/-- Bytes in a 32-bit word (R74). -/
@[simp] abbrev word32Len : Nat := 4

/-- `Byte^n` of R12: an array of `n` bytes, element 0 first. -/
abbrev Bytes (n : Nat) := Vector Byte n

/-- `ALT_KEY_WORDS`: 32-bit words in one alternate-cipher key (R9). -/
@[simp] abbrev altKeyWords : Nat := 4

/-- One alternate-cipher key (R29). -/
abbrev AltKey := Vector Word32 altKeyWords

/-- Bits in one half of the working key (R122). -/
@[simp] abbrev keyHalfBits : Nat := 28

/-- The 56-bit working key of the primary cipher. The source fixes of its representation only that it has two halves
of 28 bits each (R122). -/
structure K56 where
  kL : BitVec keyHalfBits
  kR : BitVec keyHalfBits
  deriving DecidableEq, Repr

/-- An array from its elements by index. -/
def vecOf {α : Type} {n : Nat} (f : Fin n → α) : Vector α n := ⟨((List.finRange n).map f).toArray, by simp⟩

/-- Byte `i` of a vector, 0 past its end; every index the rules use is in range (R295). -/
def byteAt {n : Nat} (v : Bytes n) (i : Nat) : Byte := v[i]?.getD 0

end Sys2Proof
end

