-- ==== Sys2Proof/Config.lean ====
section
/-! DEFINITION. What is fixed for the machine: the literals the source fixes (R9, R98), the parameters it leaves open
(R10) with their constraints, the reference parameter set P0 (`92_eei_decisions.md` section 3), and the machine's own
parameter set, an opaque constant about which nothing is known but R10's constraints (assumption log 4). -/

namespace Sys2Proof

/-! ## Literals the source fixes (R9, R98; unaudited, R4), one constant each

`WORD_BITS`, `RB_SLOT_BITS`, `ALT_KEY_WORDS` and the width of a key half stand in `Word.lean`, beside the types they give
their width to; the command codes stand in `Decode.lean`. -/

/-- `FRAME_BIT`: the framing bit of a word. -/
@[simp] abbrev frameBit : Nat := 8
/-- The framing bit alone, in a word of `n` bits. -/
def frameBitIn (n : Nat) : BitVec n := 1 <<< frameBit
/-- The framing bit of a slot, as `RbFrame` sets it by OR (D44). -/
def frameMask : SlotWord := frameBitIn rbSlotBits
/-- `RB_CAP`: ResponseBuffer slots. -/
@[simp] abbrev rbCap : Nat := 16
/-- `KEY_LEN`: bytes in one primary-cipher key. -/
@[simp] abbrev keyLen : Nat := 8
/-- `N_KEYSLOT`: values of the key index. -/
@[simp] abbrev nKeySlot : Nat := 8
/-- `N_KEYSET`: key sets. -/
@[simp] abbrev nKeySet : Nat := 2
/-- `N_KEY`: primary-cipher keys. -/
@[simp] abbrev nKey : Nat := nKeySlot * nKeySet
/-- `N_ALT_KEY`: alternate-cipher keys. -/
@[simp] abbrev nAltKey : Nat := 2
/-- `CHTAB_LEN`: bytes in the channel table. -/
@[simp] abbrev chTabLen : Nat := 8
/-- `N_ENT`: entitlement records. -/
@[simp] abbrev nEnt : Nat := 2
/-- `ECM_LEN`: bytes in one encrypted message. -/
@[simp] abbrev ecmLen : Nat := 16
/-- `CW_LEN`: bytes in one control word. -/
@[simp] abbrev cwLen : Nat := 8
/-- `PRI_ROUNDS`: Feistel rounds per half. -/
@[simp] abbrev priRounds : Nat := 16
/-- Halves of an encrypted message (R124). -/
@[simp] abbrev nHalf : Nat := 2
/-- Bytes in one half of the message, which is the Feistel state (R124, R130). -/
@[simp] abbrev halfLen : Nat := 8
/-- Bytes in one half of the Feistel state, which a round value has (R129, R130); the designated bytes of a half's output
are as many (R136). -/
@[simp] abbrev roundLen : Nat := 4
/-- Groups a round works on (R126, R127). -/
@[simp] abbrev nGroup : Nat := 8
/-- Bits in one expanded group (R126, R127). -/
@[simp] abbrev groupBits : Nat := 6
/-- Bits a substitution gives for a group (R128). -/
@[simp] abbrev substBits : Nat := 4
/-- Entries of `T_SBOX` (R121). -/
@[simp] abbrev sboxLen : Nat := 256
/-- Entries of `T_KEYEXP` (R121). -/
@[simp] abbrev keyExpLen : Nat := 48
/-- Entries of `T_DATAEXP` (R121). -/
@[simp] abbrev dataExpLen : Nat := 48
/-- Entries of `T_OUTPERM` (R121). -/
@[simp] abbrev outPermLen : Nat := 32
/-- Entries of `T_KEYPERM` (R121). -/
@[simp] abbrev keyPermLen : Nat := 8
/-- Entries of `T_CWIP` (R121). -/
@[simp] abbrev cwIpLen : Nat := 8
/-- Entries of `T_CWFP` (R121). -/
@[simp] abbrev cwFpLen : Nat := 8
/-- Fixed payloads of ATR, selected by the low nibble of `atrIndex` (R221), which is below this number (R25). -/
@[simp] abbrev nAtrPayload : Nat := 3
/-- Fixed payloads of IDENT (R224). -/
@[simp] abbrev nIdPayload : Nat := 3
/-- ENT's sub-selector for record 0 (R225, R226). -/
@[simp] abbrev subRecord0 : Byte := 0
/-- ENT's sub-selector for record 1 (R225, R226). -/
@[simp] abbrev subRecord1 : Byte := 1
/-- ENT's sub-selector for its first handshake (R225, R243). -/
@[simp] abbrev subHandshake2 : Byte := 2
/-- ENT's sub-selector for its second handshake (R225, R243). -/
@[simp] abbrev subHandshake3 : Byte := 3
/-- `HS05_LEN`: payload words HS05 discards. -/
def hs05Len : Nat := 32
/-- `ALT_ROUNDS`: rounds of the alternate cipher. -/
def altRoundCount : Nat := 32
/-- `ALT_CHECK_ROUND`: zero-based round index after which the signature is compared. -/
def altCheckRound : Nat := 7
/-- `ALT_DELTA`. -/
def altDelta : Word32 := 0x9E3779B9
/-- `DATE_ESCAPE`: sentinel of the date extraction. -/
def dateEscape : Word16 := 0xFFFF
/-- `W_IDLE`: "idle/no-data word". -/
def wIdle : Word9 := 0x100
/-- `W_NOTREADY`: "not-ready/acknowledge/NAK depending on context". -/
def wNotReady : Word9 := 0x101
/-- `W_DEC_START`: start marker of a successful decrypt burst. -/
def wDecStart : Word9 := 0x106
/-- `W_DEC_CONT`: continuation marker of the same burst. -/
def wDecCont : Word9 := 0x102
/-- `W_DEC_FAIL`: "decrypt/verification failure signal". -/
def wDecFail : Word9 := 0x10A
/-- `W_ACK_24`. -/
def wAck24 : Word9 := 0x124
/-- `W_ACK_4A`. -/
def wAck4A : Word9 := 0x14A
/-- `W_ACK_FF`. -/
def wAckFF : Word9 := 0x1FF

/-- `ACKSET` (R9): the four words the source gives an acknowledge role. -/
inductive AckWord where
  | notReady | ack24 | ack4A | ackFF
  deriving DecidableEq, Repr

/-- The channel word of an acknowledge (R98). -/
def AckWord.word : AckWord → Word9
  | .notReady => wNotReady
  | .ack24 => wAck24
  | .ack4A => wAck4A
  | .ackFF => wAckFF

/-- A key index (R261): `0..7`. -/
abbrev KeyIndex := Fin nKeySlot

/-- The three legal values of `cryptMode` (R24). -/
inductive CryptMode where
  | primary            -- 0
  | alternate          -- 1, without verification
  | alternateVerified  -- 2, with signature verification
  deriving DecidableEq, Repr

/-- The 8-bit value of `cryptMode` (R24), the one place where the three numbers stand. -/
def CryptMode.toByte : CryptMode → Byte
  | .primary => 0
  | .alternate => 1
  | .alternateVerified => 2

/-- The seven handshake sites of R240. -/
inductive HsSite where
  | h5E00 | h5E01 | h5E02 | h5F01 | h5F02 | h5F00s2 | h5F00s3
  deriving DecidableEq, Repr

/-- The persistent items of R62. -/
inductive NvItem where
  | key (n : Fin nKey)
  | spKey
  | altKey (p : Fin nAltKey)
  | chTab
  | ent (r : Fin nEnt)
  | cryptMode
  | atrIndex
  deriving DecidableEq, Repr

/-- The sizes in bytes of R62, for a given `ENT_LEN`. -/
def NvItem.sizeFor (entLen : Nat) : NvItem → Nat
  | .key _ => keyLen
  | .spKey => keyLen
  | .altKey _ => word32Len * altKeyWords
  | .chTab => chTabLen
  | .ent _ => entLen
  | .cryptMode => 1
  | .atrIndex => 1

/-- What a parameter function may see of the persistent state (R10, `AudienceOf`): byte `i` of each item. -/
abbrev NvView := NvItem → Nat → Byte

/-- The four fields of the 16-byte input of the alternate cipher (R161). -/
inductive AltField where
  | v0 | v1 | s0 | s1
  deriving DecidableEq, Repr

/-! ## The primary cipher's parameters (R120 to R138) -/

/-- An entry of `T_SHIFT` is 1 or 2 (R10, R121). -/
inductive ShiftBy where
  | one | two
  deriving DecidableEq, Repr

/-- The shift amount as a number of bit positions. -/
def ShiftBy.amount : ShiftBy → Nat
  | .one => 1
  | .two => 2

/-- The eight tables of R121. What an entry denotes is not in the source (N2): entries are bytes for `T_SBOX`, shift
amounts for `T_SHIFT`, and numbers for the rest (assumption log 12). -/
structure PrimaryTables where
  tShift : Fin priRounds → ShiftBy
  tSbox : Fin sboxLen → Byte
  tKeyExp : Fin keyExpLen → Nat
  tDataExp : Fin dataExpLen → Nat
  tOutPerm : Fin outPermLen → Nat
  tKeyPerm : Fin keyPermLen → Nat
  tCwIp : Fin cwIpLen → Nat
  tCwFp : Fin cwFpLen → Nat

/-- The pieces from which R138 assembles `DecryptPrimary`: the tables and the total functions built from them. -/
structure PrimaryParts where
  tables : PrimaryTables
  /-- `KeyReduce` (R122), built from `T_KEYPERM`. -/
  keyReduce : (Fin keyPermLen → Nat) → Bytes keyLen → K56
  /-- `KeyAdjust` (R123): given the reduced and the original key. -/
  keyAdjust : K56 → Bytes keyLen → K56
  /-- `CwIP` (R125), built from `T_CWIP`. -/
  cwIP : (Fin cwIpLen → Nat) → Bytes halfLen → Bytes halfLen
  /-- `ExpandKey` (R126), built from `T_KEYEXP`. -/
  expandKey : (Fin keyExpLen → Nat) → K56 → Vector (BitVec groupBits) nGroup
  /-- `ExpandData` (R127), built from `T_DATAEXP`. -/
  expandData : (Fin dataExpLen → Nat) → Bytes halfLen → Vector (BitVec groupBits) nGroup
  /-- `SboxLookup` (R128), built from `T_SBOX`, given round and group. -/
  sboxLookup : (Fin sboxLen → Byte) → Fin priRounds → Fin nGroup → BitVec groupBits → BitVec substBits
  /-- `OutPermute` (R129), built from `T_OUTPERM`. -/
  outPermute : (Fin outPermLen → Nat) → Vector (BitVec substBits) nGroup → Bytes roundLen
  /-- The order in which `KeyRotate` (R131) takes the bits of the half `kL`: `keyOrderL p` is the bit index of the `p`-th
  position, leftmost position 0. R131 leaves "the placement of the 28 bits" open; that the placement is an order of the
  bits, and the rotation one in that order, is the model's reading (DEDUCED, log 13). -/
  keyOrderL : Equiv.Perm (Fin keyHalfBits)
  /-- The same for the half `kR`. -/
  keyOrderR : Equiv.Perm (Fin keyHalfBits)
  /-- `CwFP` (R132), built from `T_CWFP`. -/
  cwFP : (Fin cwFpLen → Nat) → Bytes halfLen → Bytes halfLen
  /-- `AUX_POS` (R134). -/
  auxPos : Fin halfLen
  /-- `DateFields` (R135). -/
  dateFields : Bytes halfLen → Bytes halfLen → Word16 × Word16
  /-- What `HalfResult` (R136) leaves open, "which four": the place in the output of half `i` of each of its designated
  four bytes. -/
  halfPos : Fin nHalf → Fin roundLen → Fin halfLen
  /-- `CwRepack` (R137). -/
  cwRepack : Bytes (nHalf * roundLen) → Bytes cwLen

/-- What one call of `DecryptPrimary` writes (R120): the triple, and the scratch `wk` as the call leaves it. -/
structure PrimaryOut where
  cw : Bytes cwLen
  aux : Byte
  date : Word16
  wk : K56
  deriving DecidableEq, Repr

/-- The primary cipher of a parameter set: one uninterpreted total function of key and message (R120), or the assembly
of R138 from its parts. -/
inductive PrimaryCipher where
  | whole (f : Bytes keyLen → Bytes ecmLen → PrimaryOut)
  | assembled (p : PrimaryParts)

/-! ## The constraints of R10 that need a name -/

/-- The constraint on `DEC_OK_BURST` (R10, R268). -/
def DecBurstOk (cw : Bytes cwLen) (keyIndex : KeyIndex) (ws : List Word9) : Prop :=
  ws.length ≤ rbCap ∧ ws.head? = some wDecStart ∧ wDecCont ∈ ws ∧
    (∀ j : Fin cwLen, ∃ w ∈ ws, w.setWidth 8 = cw[j]) ∧ ∃ w ∈ ws, w.setWidth 8 = BitVec.ofNat 8 keyIndex.val

/-! ## The configuration -/

/-- The parameters of R10, under the source's names in lower camel case, each with R10's constraint, either in its type
or as a field ending in `_ok`. -/
structure Config where
  /-- `DecryptPrimary` and its decomposition (R120, R138). -/
  primary : PrimaryCipher
  /-- `ALT_ROUND(k, sum, v0, v1)` giving `(sum', v0', v1')` (R164). -/
  altRound : AltKey → Word32 → Word32 → Word32 → Word32 × Word32 × Word32
  /-- `ALT_V0_OFF`, `ALT_V1_OFF`, `ALT_S0_OFF`, `ALT_S1_OFF` (R161). -/
  altOff : AltField → Nat
  altOff_ok : ∀ f, altOff f + word32Len ≤ ecmLen
  /-- Four disjoint 4-byte ranges. -/
  altOff_disjoint_ok : ∀ f g, f ≠ g → altOff f + word32Len ≤ altOff g ∨ altOff g + word32Len ≤ altOff f
  /-- `DEF_KEY`. -/
  defKey : Fin nKey → Bytes keyLen
  /-- `DEF_SPKEY`. -/
  defSpKey : Bytes keyLen
  /-- `DEF_ALTKEY`. -/
  defAltKey : Fin nAltKey → AltKey
  /-- `DEF_CHTAB`. -/
  defChTab : Bytes chTabLen
  /-- `ENT_LEN`. -/
  entLen : Nat
  entLen_ok : 1 ≤ entLen ∧ entLen ≤ rbCap
  /-- `DEF_ENT`: byte `i` of record `r`, for `i < ENT_LEN`. -/
  defEnt : Fin nEnt → Nat → Byte
  /-- `DEF_CRYPTMODE`. -/
  defCryptMode : CryptMode
  /-- `DEF_ATRINDEX`. -/
  defAtrIndex : Byte
  defAtrIndex_ok : (defAtrIndex.extractLsb' 0 4).toNat < nAtrPayload
  /-- `MinDateOf` (R323), of the bytes of both records. -/
  minDateOf : List Byte → List Byte → Word16
  /-- `MaxDateOf` (R323). -/
  maxDateOf : List Byte → List Byte → Word16
  /-- `ATR_PAYLOAD` (R221). The source has the lists of low nibbles 0, 1, 2; the others are free (assumption log 11). -/
  atrPayload : BitVec 4 → List Byte
  atrPayload_ok : ∀ v, 1 ≤ (atrPayload v).length ∧ (atrPayload v).length ≤ rbCap
  /-- `ID_PAYLOAD` (R224). -/
  idPayload : Fin nIdPayload → List Byte
  idPayload_ok : ∀ i, 1 ≤ (idPayload i).length ∧ (idPayload i).length ≤ rbCap
  /-- Which codes strictly between `0x1400` and `0x1412` are in `ATRIDX_CMDS`; see `Config.atrCode`. -/
  atrIdxMember : Word16 → Bool
  /-- Which codes strictly between `0x0600` and `0x0622` are in `DECRYPT_CMDS`; see `Config.decryptCode`. -/
  decryptMember : Word16 → Bool
  /-- `KeyIndexOf` (R261). -/
  keyIndexOf : Word16 → KeyIndex
  /-- `KeySetOf` (R263). The spec uses it in the default of `KeySel` alone; `KeySel` is a parameter beside it. -/
  keySetOf : Byte → Fin nKeySet
  /-- `KeySel` (R263). -/
  keySel : KeyIndex → Byte → Fin nKey
  /-- `AUD_SPECIAL` (R264). -/
  audSpecial : Byte
  /-- `AudienceOf(code, msg, NV)` (R264). -/
  audienceOf : Word16 → Bytes ecmLen → NvView → Byte
  /-- `ValidatingPolicy` (R266), of the high nibble of `atrIndex`. -/
  validatingPolicy : BitVec 4 → Bool
  /-- `AudienceMatch(aud, aux)` (R266). -/
  audienceMatch : Byte → Byte → Bool
  /-- `DEC_OK_BURST(cw, keyIndex)` (R268). -/
  decOkBurst : Bytes cwLen → KeyIndex → List Word9
  decOkBurst_ok : ∀ cw i, DecBurstOk cw i (decOkBurst cw i)
  /-- `ACK_CHTAB_START` (R201). -/
  ackChTabStart : AckWord
  /-- `ACK_CHTAB_DONE` (R201). -/
  ackChTabDone : AckWord
  /-- `ACK_KEY_START` (R209). -/
  ackKeyStart : AckWord
  /-- `ACK_KEY_PAIR` (R209). -/
  ackKeyPair : AckWord
  /-- `HS_LEN(c)` (R240). -/
  hsLen : HsSite → Nat
  /-- `HS_ACK(c)` (R240). -/
  hsAck : HsSite → List AckWord
  hsAck_ok : ∀ c, hsAck c ≠ []
  /-- `Addr` (R61): the type of the store's addresses, of which nothing is known but what the next four fields say. -/
  Addr : Type
  /-- `a + i` (R61). -/
  addrAdd : Addr → Nat → Addr
  /-- The first byte of a block at `a` is that at `a` (R65). -/
  addrAdd_zero_ok : ∀ a, addrAdd a 0 = a
  /-- The MODEL's own: the number under which `State` lists the cell of an address (assumption log 5). It decides equality
  of addresses, as R61 asks; see `Config.addrEq`. -/
  addrCell : Addr → Nat
  addrCell_ok : ∀ a b, addrCell a = addrCell b → a = b
  /-- `NV_LAYOUT(item, i)` (R63). -/
  nvLayout : NvItem → Nat → Addr
  /-- `NV_LAYOUT` is injective: no two item bytes share an address (R63). -/
  nvLayout_ok : ∀ a b i j, i < a.sizeFor entLen → j < b.sizeFor entLen → nvLayout a i = nvLayout b j → a = b ∧ i = j
  /-- The MODEL's own free value (assumption log 10): the mode a stored byte outside 0, 1, 2 loads as. The spec gives
  none; no such byte is reachable (R24). -/
  modeOfOther : Byte → CryptMode

/-- The size in bytes of a persistent item (R62). -/
def Config.size (c : Config) (item : NvItem) : Nat := item.sizeFor c.entLen

/-- The decidable equality of `Addr` (R61). -/
def Config.addrEq (c : Config) : DecidableEq c.Addr := fun a b =>
  decidable_of_iff (c.addrCell a = c.addrCell b) ⟨c.addrCell_ok a b, congrArg c.addrCell⟩

/-- The cell of byte `i` of a persistent item. -/
abbrev Config.nvCell (c : Config) (item : NvItem) (i : Nat) : Nat := c.addrCell (c.nvLayout item i)

/-- No two item bytes share a cell (R63). -/
theorem Config.nvCell_ok (c : Config) (a b : NvItem) (i j : Nat) (hi : i < c.size a) (hj : j < c.size b)
    (h : c.nvCell a i = c.nvCell b j) : a = b ∧ i = j :=
  c.nvLayout_ok a b i j hi hj (c.addrCell_ok _ _ h)

/-! ## The reference parameter set P0 (`92_eei_decisions.md` section 3)

Nothing in it is from the source; it is the witness that R10's constraints can be met, and gives the test vectors of
`95_test_vectors.md` their numbers. No meaning refers to it. -/

/-- P0's `ALT_ROUND` (R164; general knowledge G1, assumption log 20). -/
def p0AltRound (k : AltKey) (sum v0 v1 : Word32) : Word32 × Word32 × Word32 :=
  let sel (i : BitVec 2) : Word32 := k[i.toNat]'(by simpa using i.isLt)
  let v0' := v0 + ((((v1 <<< 4) ^^^ (v1 >>> 5)) + v1) ^^^ (sum + sel (sum.extractLsb' 0 2)))
  let sum' := sum + altDelta
  let v1' := v1 + ((((v0' <<< 4) ^^^ (v0' >>> 5)) + v0') ^^^ (sum' + sel (sum'.extractLsb' 11 2)))
  (sum', v0', v1')

/-- P0's test double for `DecryptPrimary` (section 3.4): not a cipher. Section 3.4 gives `cw`, `aux` and `date`; that the
double leaves `wk` zero is the model's choice (DESIGN CHOICE, log 26). -/
def p0DecryptPrimary (key : Bytes keyLen) (m : Bytes ecmLen) : PrimaryOut :=
  { cw := vecOf fun i => byteAt key i ^^^ byteAt m i
    aux := byteAt m 8
    date := (byteAt m 9).setWidth 16 ||| ((byteAt m 10).setWidth 16 <<< 8)
    wk := ⟨0, 0⟩ }

/-- P0's `KeySetOf` (R263): bit 4 of `atrIndex`. -/
def p0KeySetOf (a : Byte) : Fin nKeySet := ⟨(a.extractLsb' 4 1).toNat, (a.extractLsb' 4 1).isLt⟩

/-- The default of `KeySel` (R10, R263), for a given `KeySetOf`. -/
def keySelDefault (setOf : Byte → Fin nKeySet) (i : KeyIndex) (a : Byte) : Fin nKey :=
  ⟨nKeySlot * (setOf a).val + i.val, by have := i.isLt; have := (setOf a).isLt; simp at *; omega⟩

/-- P0's `DEC_OK_BURST` (section 3.1): the start marker, six bytes of `cw`, the continuation marker, the rest of `cw`, the
key index. -/
def p0DecOkBurst (cw : Bytes cwLen) (i : KeyIndex) : List Word9 :=
  let words := cw.toList.map (BitVec.setWidth wordBits)
  wDecStart :: (words.take 6 ++ wDecCont :: (words.drop 6 ++ [BitVec.ofNat wordBits i.val]))

theorem p0DecOkBurst_ok (cw : Bytes cwLen) (i : KeyIndex) : DecBurstOk cw i (p0DecOkBurst cw i) := by
  have narrow (b : Byte) : (b.setWidth wordBits).setWidth 8 = b := by
    rw [BitVec.setWidth_setWidth_of_le _ (by decide), BitVec.setWidth_eq]
  refine ⟨by simp [p0DecOkBurst], by simp [p0DecOkBurst], by simp [p0DecOkBurst], ?_, ?_⟩
  · intro j
    refine ⟨cw[j].setWidth wordBits, ?_, narrow _⟩
    have hj : cw[j].setWidth wordBits ∈ cw.toList.map (BitVec.setWidth wordBits) :=
      List.mem_map_of_mem (Vector.mem_toList_iff.2 (Vector.getElem_mem _))
    rw [← List.take_append_drop 6 (cw.toList.map _), List.mem_append] at hj
    simp only [p0DecOkBurst, List.mem_cons, List.mem_append]
    tauto
  · refine ⟨BitVec.ofNat wordBits i.val, by simp [p0DecOkBurst], ?_⟩
    revert i; decide

/-- P0's `ENT_LEN` (section 3.1). -/
@[simp] abbrev p0EntLen : Nat := 8

/-! The first address of each kind of item in P0's store, where the kinds follow one another in the order of section 3.3:
128, 136, 168, 176, 192, 193. -/

@[simp] abbrev p0SpKeyAt : Nat := keyLen * nKey
@[simp] abbrev p0AltKeyAt : Nat := p0SpKeyAt + keyLen
@[simp] abbrev p0ChTabAt : Nat := p0AltKeyAt + word32Len * altKeyWords * nAltKey
@[simp] abbrev p0EntAt : Nat := p0ChTabAt + chTabLen
@[simp] abbrev p0CryptModeAt : Nat := p0EntAt + p0EntLen * nEnt
@[simp] abbrev p0AtrIndexAt : Nat := p0CryptModeAt + 1
/-- The bytes of P0's store: its addresses are the numbers 0 to 193. -/
@[simp] abbrev p0StoreLen : Nat := p0AtrIndexAt + 1

/-- P0's `Addr` (section 3.3). -/
abbrev P0Addr : Type := Fin p0StoreLen

/-- P0's `NV_LAYOUT` (section 3.3), as numbers. -/
def p0NvLayout : NvItem → Nat → Nat
  | .key n, i => keyLen * n.val + i
  | .spKey, i => p0SpKeyAt + i
  | .altKey p, i => p0AltKeyAt + word32Len * altKeyWords * p.val + i
  | .chTab, i => p0ChTabAt + i
  | .ent r, i => p0EntAt + p0EntLen * r.val + i
  | .cryptMode, _ => p0CryptModeAt
  | .atrIndex, _ => p0AtrIndexAt

theorem p0NvLayout_lt (a : NvItem) (i : Nat) (hi : i < a.sizeFor p0EntLen) : p0NvLayout a i < p0StoreLen := by
  cases a <;> simp [p0NvLayout, NvItem.sizeFor] at hi ⊢ <;> omega

theorem p0NvLayout_injective (a b : NvItem) (i j : Nat) (hi : i < a.sizeFor p0EntLen) (hj : j < b.sizeFor p0EntLen)
    (h : p0NvLayout a i = p0NvLayout b j) : a = b ∧ i = j := by
  cases a <;> cases b <;> simp [p0NvLayout, NvItem.sizeFor, Fin.ext_iff] at h hi hj ⊢ <;> omega

/-- The reference parameter set P0. Section 3 gives no payload of ATR for the low nibbles 3 to 15 (R25), no byte of a record
past its `ENT_LEN`, no value of the model's own `modeOfOther`, and no address `a + i` past 193; P0 has there the third
payload, zero, `primary` and the address modulo 194 (DESIGN CHOICE, log 26). -/
def Config.p0 : Config where
  primary := .whole p0DecryptPrimary
  altRound := p0AltRound
  altOff := fun
    | .v0 => 0
    | .v1 => 4
    | .s0 => 8
    | .s1 => 12
  altOff_ok := by intro f; cases f <;> decide
  altOff_disjoint_ok := by intro f g h; cases f <;> cases g <;> simp_all
  defKey := fun n => vecOf fun i => BitVec.ofNat 8 (16 * n.val + i.val)
  defSpKey := vecOf fun _ => 0xA5
  defAltKey := fun
    | 0 => #v[0x03020100, 0x07060504, 0x0B0A0908, 0x0F0E0D0C]
    | 1 => #v[0x13121110, 0x17161514, 0x1B1A1918, 0x1F1E1D1C]
  defChTab := vecOf fun i => BitVec.ofNat 8 (0x11 + i.val)
  entLen := p0EntLen
  entLen_ok := by decide
  defEnt := fun
    | 0 => fun i => [0x00, 0x10, 0xE0, 0xE1, 0xE2, 0xE3, 0xE4, 0xE5].getD i 0
    | 1 => fun i => [0xFF, 0x2F, 0xF0, 0xF1, 0xF2, 0xF3, 0xF4, 0xF5].getD i 0
  defCryptMode := .primary
  defAtrIndex := 0x00
  defAtrIndex_ok := by decide
  minDateOf := fun e0 _ => (e0.getD 0 0).setWidth 16 ||| ((e0.getD 1 0).setWidth 16 <<< 8)
  maxDateOf := fun _ e1 => (e1.getD 0 0).setWidth 16 ||| ((e1.getD 1 0).setWidth 16 <<< 8)
  atrPayload := fun v =>
    if v = 0 then [0xA0, 0xA1, 0xA2, 0xA3]
    else if v = 1 then [0xB0]
    else [0xC0, 0xC1, 0xC2, 0xC3, 0xC4, 0xC5, 0xC6, 0xC7, 0xC8, 0xC9, 0xCA, 0xCB, 0xCC, 0xCD, 0xCE, 0xCF]
  atrPayload_ok := by intro v; split_ifs <;> decide
  idPayload := fun
    | 0 => [0x49, 0x44, 0x30]
    | 1 => [0x00]
    | 2 => [0x49, 0x00, 0x32]
  idPayload_ok := by intro i; match i with | 0 | 1 | 2 => decide
  atrIdxMember := fun code => code.toNat ∈ [0x1400, 0x1401, 0x1402, 0x1410, 0x1411, 0x1412]
  decryptMember := fun code => (code.extractLsb' 3 13 == 0x0600 >>> 3) || (code.extractLsb' 3 13 == 0x0610 >>> 3) ||
    code.toNat ∈ [0x0620, 0x0621, 0x0622]
  -- the three bits `code[2:0]`
  keyIndexOf := fun code => ⟨code.toNat % nKeySlot, Nat.mod_lt _ (by decide)⟩
  keySetOf := p0KeySetOf
  keySel := keySelDefault p0KeySetOf
  audSpecial := 2
  audienceOf := fun code _ _ => (code.extractLsb' 4 4).setWidth 8
  validatingPolicy := fun hi => hi != 0
  audienceMatch := fun aud aux => aud == aux
  decOkBurst := p0DecOkBurst
  decOkBurst_ok := p0DecOkBurst_ok
  ackChTabStart := .ack24
  ackChTabDone := .ack4A
  ackKeyStart := .ackFF
  ackKeyPair := .notReady
  hsLen := fun
    | .h5E00 => 0
    | .h5E01 => 2
    | .h5E02 => 4
    | .h5F01 => 1
    | .h5F02 => 1
    | .h5F00s2 => 0
    | .h5F00s3 => 3
  hsAck := fun
    | .h5E00 => [.notReady]
    | .h5E01 => [.ack4A]
    | .h5E02 => [.ack24, .ackFF]
    | .h5F01 => [.notReady]
    | .h5F02 => [.notReady]
    | .h5F00s2 => [.notReady]
    | .h5F00s3 => [.ackFF]
  hsAck_ok := by intro c; cases c <;> simp
  Addr := P0Addr
  addrAdd := fun a i => Fin.ofNat p0StoreLen (a.val + i)
  addrAdd_zero_ok := fun a => Fin.ext (Nat.mod_eq_of_lt a.isLt)
  addrCell := Fin.val
  addrCell_ok := fun _ _ => Fin.ext
  nvLayout := fun item i => Fin.ofNat p0StoreLen (p0NvLayout item i)
  nvLayout_ok := fun a b i j hi hj h => p0NvLayout_injective a b i j hi hj (by
    have := congrArg Fin.val h
    simpa only [Fin.ofNat, Nat.mod_eq_of_lt (p0NvLayout_lt _ _ hi), Nat.mod_eq_of_lt (p0NvLayout_lt _ _ hj)] using this)
  modeOfOther := fun _ => .primary

/-! ## The machine's own parameter set -/

/-- A parameter set of which nothing is known: no body, so no proof can see any of its values. -/
opaque Config.unknown [Inhabited Config] : Config

/-- The parameter set of the modelled device (R10: "no claim about the real device may rest on" a default). P0 serves
only to show that a parameter set exists; the constant is opaque. -/
def Config.device : Config := @Config.unknown ⟨Config.p0⟩

end Sys2Proof
end

