-- ==== Sys2Proof/Syntax.lean ====
section
/-! DEFINITION. The instructions: the host commands of R100, one constructor for each row of `opcode_table.json`. -/

namespace Sys2Proof

/-- A host command. SETMODE, IDENT, HS5E and HS5F have one row, and here one constructor, per code (R100). -/
inductive Instr where
  /-- CHTAB_LOAD, `0x0100` and `0x0101` (R201); `v` is bit 0, which changes nothing (R102). -/
  | chtabLoad (v : BitVec 1)
  /-- ATR, `0x0200` (R221). -/
  | atr
  /-- CHTAB_READ, `0x0201` (R223). -/
  | chtabRead
  /-- SETMODE, `0x0400` (R204). -/
  | setmode0
  /-- SETMODE, `0x0401` (R204). -/
  | setmode1
  /-- SETMODE, `0x0402` (R204). -/
  | setmode2
  /-- HS05, `0x0500` and `0x0501` (R245); `v` is bit 0, which changes nothing (R102). -/
  | hs05 (v : BitVec 1)
  /-- DECRYPT, a member of `DECRYPT_CMDS` (R260); `b` is the low byte of the code. -/
  | decrypt (b : Byte)
  /-- SETATR, a member of `ATRIDX_CMDS` (R206); `b` is the low byte of the code. -/
  | setatr (b : Byte)
  /-- KEYLOAD, `0x2400` to `0x240F` (R209); `n` is the linear key number. -/
  | keyload (n : BitVec 4)
  /-- IDENT, `0x5700` (R224). -/
  | ident0
  /-- IDENT, `0x5701` (R224). -/
  | ident1
  /-- IDENT, `0x5702` (R224). -/
  | ident2
  /-- HS5E, `0x5E00` (R241). -/
  | hs5e0
  /-- HS5E, `0x5E01` (R241). -/
  | hs5e1
  /-- HS5E, `0x5E02` (R241). -/
  | hs5e2
  /-- ENT, `0x5F00`; the sub-selector is its first payload word (R225). -/
  | ent
  /-- HS5F, `0x5F01` (R241). -/
  | hs5f1
  /-- HS5F, `0x5F02` (R241). -/
  | hs5f2
  /-- POP, `0xFFFF` (R288). -/
  | pop
  /-- NOTREADY, every other code (R187). -/
  | notready (code : Word16)
  deriving DecidableEq, Repr

end Sys2Proof
end

