-- ==== Sys2Proof/Decode.lean ====
section
/-! DEFINITION. From channel words to instructions and back: the fields of a word (R90), code assembly (R92, R183), the
command map (R99, R100, R184), the encoder, and the table-word form of the decoder. -/

namespace Sys2Proof

/-! ## Fields of a channel word (R90) -/

/-- `w[8]`: the framing bit. -/
def isFramed (w : Word9) : Bool := w.getLsbD frameBit

/-- `w[7:0]`: the data byte. -/
def dataByte (w : Word9) : Byte := w.extractLsb' 0 8

/-- A framed word with data byte `b`. -/
def framedWord (b : Byte) : Word9 := frameBitIn wordBits ||| b.setWidth wordBits

/-- An unframed word with data byte `b`; a well-formed host sends payload bytes so (R95). -/
def plainWord (b : Byte) : Word9 := b.setWidth wordBits

/-- Code assembly: high byte from the framed word, low byte from the word after it (R73, R92, R183). -/
def assembleCode (hi lo : Byte) : Word16 := hi ++ lo

/-- `code[15:8]`. -/
def codeHigh (code : Word16) : Byte := code.extractLsb' 8 8

/-- `code[7:0]`. -/
def codeLow (code : Word16) : Byte := code.extractLsb' 0 8

/-! ## The rows of the command map (R99, R100), each code one constant (R4) -/

/-- Match and mask of a row: code `c` belongs to it when `c & mask == match` (R100). -/
structure CodeRow where
  code : Word16
  mask : Word16
  deriving DecidableEq, Repr

/-- A row of one code. -/
def oneCode (code : Word16) : CodeRow := ⟨code, 0xFFFF⟩

/-- The code belongs to the row. -/
def CodeRow.selects (r : CodeRow) (code : Word16) : Bool := code &&& r.mask == r.code

/-- CHTAB_LOAD, `0x0100` and `0x0101`. -/
def rowChtabLoad : CodeRow := ⟨0x0100, 0xFFFE⟩
/-- ATR. -/
def rowAtr : CodeRow := oneCode 0x0200
/-- CHTAB_READ. -/
def rowChtabRead : CodeRow := oneCode 0x0201
/-- SETMODE 0. -/
def rowSetmode0 : CodeRow := oneCode 0x0400
/-- SETMODE 1. -/
def rowSetmode1 : CodeRow := oneCode 0x0401
/-- SETMODE 2. -/
def rowSetmode2 : CodeRow := oneCode 0x0402
/-- HS05, `0x0500` and `0x0501`. -/
def rowHs05 : CodeRow := ⟨0x0500, 0xFFFE⟩
/-- KEYLOAD, `0x2400` to `0x240F`. -/
def rowKeyload : CodeRow := ⟨0x2400, 0xFFF0⟩
/-- IDENT 0. -/
def rowIdent0 : CodeRow := oneCode 0x5700
/-- IDENT 1. -/
def rowIdent1 : CodeRow := oneCode 0x5701
/-- IDENT 2. -/
def rowIdent2 : CodeRow := oneCode 0x5702
/-- HS5E 0. -/
def rowHs5e0 : CodeRow := oneCode 0x5E00
/-- HS5E 1. -/
def rowHs5e1 : CodeRow := oneCode 0x5E01
/-- HS5E 2. -/
def rowHs5e2 : CodeRow := oneCode 0x5E02
/-- ENT. -/
def rowEnt : CodeRow := oneCode 0x5F00
/-- HS5F 1. -/
def rowHs5f1 : CodeRow := oneCode 0x5F01
/-- HS5F 2. -/
def rowHs5f2 : CodeRow := oneCode 0x5F02
/-- POP. -/
def rowPop : CodeRow := oneCode 0xFFFF

/-- The rows of R100 with a match and a mask. -/
def maskedRows : List CodeRow :=
  [rowChtabLoad, rowAtr, rowChtabRead, rowSetmode0, rowSetmode1, rowSetmode2, rowHs05, rowKeyload, rowIdent0, rowIdent1,
    rowIdent2, rowHs5e0, rowHs5e1, rowHs5e2, rowEnt, rowHs5f1, rowHs5f2, rowPop]

/-- The least member of `DECRYPT_CMDS`. -/
def decryptFirst : Word16 := 0x0600
/-- The greatest member of `DECRYPT_CMDS`. -/
def decryptLast : Word16 := 0x0622
/-- The least member of `ATRIDX_CMDS`. -/
def atrFirst : Word16 := 0x1400
/-- The greatest member of `ATRIDX_CMDS`. -/
def atrLast : Word16 := 0x1412

/-- Membership in `DECRYPT_CMDS` (R10): a subset of `0x0600..0x0622` that contains both ends. -/
def Config.decryptCode (c : Config) (code : Word16) : Bool :=
  code == decryptFirst || code == decryptLast ||
    (decide (decryptFirst.toNat < code.toNat) && decide (code.toNat < decryptLast.toNat) && c.decryptMember code)

/-- Membership in `ATRIDX_CMDS` (R10): a subset of `0x1400..0x1412` that contains both ends and whose members have low
nibble 0, 1 or 2. -/
def Config.atrCode (c : Config) (code : Word16) : Bool :=
  code == atrFirst || code == atrLast ||
    (decide (atrFirst.toNat < code.toNat) && decide (code.toNat < atrLast.toNat) &&
      decide ((code.extractLsb' 0 4).toNat < nAtrPayload) && c.atrIdxMember code)

/-! ## Decoding -/

/-- Dispatch: a total function of the code, its last arm NOTREADY (R103, R184). It reads nothing but the code and, for
the two parameter sets, the configuration. The rows are disjoint (R101), so their order does not matter. -/
def decodeWith (c : Config) (code : Word16) : Instr :=
  if c.decryptCode code then .decrypt (codeLow code)
  else if c.atrCode code then .setatr (codeLow code)
  else if rowChtabLoad.selects code then .chtabLoad (code.extractLsb' 0 1)
  else if rowAtr.selects code then .atr
  else if rowChtabRead.selects code then .chtabRead
  else if rowSetmode0.selects code then .setmode0
  else if rowSetmode1.selects code then .setmode1
  else if rowSetmode2.selects code then .setmode2
  else if rowHs05.selects code then .hs05 (code.extractLsb' 0 1)
  else if rowKeyload.selects code then .keyload (code.extractLsb' 0 4)
  else if rowIdent0.selects code then .ident0
  else if rowIdent1.selects code then .ident1
  else if rowIdent2.selects code then .ident2
  else if rowHs5e0.selects code then .hs5e0
  else if rowHs5e1.selects code then .hs5e1
  else if rowHs5e2.selects code then .hs5e2
  else if rowEnt.selects code then .ent
  else if rowHs5f1.selects code then .hs5f1
  else if rowHs5f2.selects code then .hs5f2
  else if rowPop.selects code then .pop
  else .notready code

/-- Dispatch on the modelled device. -/
def decode (code : Word16) : Instr := decodeWith Config.device code

/-- Why a word sequence does not begin with a command (R92). -/
inductive DecodeError where
  /-- The first word has no framing bit: it begins nothing (R181). -/
  | firstNotFramed
  /-- The second word is framed too: the first is dropped (R181). -/
  | secondFramed
  /-- Fewer than two words. -/
  | tooShort
  deriving DecidableEq, Repr

/-- The command a word sequence begins with, and the words after its code (R92). Total, rejecting by name. -/
def decodeWordsWith (c : Config) : List Word9 → Except DecodeError (Instr × List Word9)
  | [] => .error .tooShort
  | [w] => .error (if isFramed w then .tooShort else .firstNotFramed)
  | w1 :: w2 :: rest =>
    if !isFramed w1 then .error .firstNotFramed
    else if isFramed w2 then .error .secondFramed
    else .ok (decodeWith c (assembleCode (dataByte w1) (dataByte w2)), rest)

/-- The same on the modelled device. -/
def decodeWords (ws : List Word9) : Except DecodeError (Instr × List Word9) := decodeWordsWith Config.device ws

/-! ## The encoder (R93, R100) -/

/-- The 16-bit code of an instruction: format X the exact code, format N with the nibble in bits 3:0, format B with the
byte in bits 7:0. -/
def encode : Instr → Word16
  | .chtabLoad v => rowChtabLoad.code ||| v.setWidth 16
  | .atr => rowAtr.code
  | .chtabRead => rowChtabRead.code
  | .setmode0 => rowSetmode0.code
  | .setmode1 => rowSetmode1.code
  | .setmode2 => rowSetmode2.code
  | .hs05 v => rowHs05.code ||| v.setWidth 16
  | .decrypt b => codeHigh decryptFirst ++ b
  | .setatr b => codeHigh atrFirst ++ b
  | .keyload n => rowKeyload.code ||| n.setWidth 16
  | .ident0 => rowIdent0.code
  | .ident1 => rowIdent1.code
  | .ident2 => rowIdent2.code
  | .hs5e0 => rowHs5e0.code
  | .hs5e1 => rowHs5e1.code
  | .hs5e2 => rowHs5e2.code
  | .ent => rowEnt.code
  | .hs5f1 => rowHs5f1.code
  | .hs5f2 => rowHs5f2.code
  | .pop => rowPop.code
  | .notready code => code

/-- `CMD c` of R105: the two channel words of a code. -/
def commandWords (code : Word16) : List Word9 := [framedWord (codeHigh code), plainWord (codeLow code)]

/-- The channel words of an instruction. -/
def encodeWords (i : Instr) : List Word9 := commandWords (encode i)

/-- `PAY b0 ... bk` of R105: payload words, one byte each, unframed (R95). -/
def payloadWords (bs : List Byte) : List Word9 := bs.map plainWord

/-! ## The table form -/

/-- The instruction the decoder reads from the two channel words of the 16-bit code `w`, numbered as
`opcode_table.json` numbers it (bit 0 of the code least significant). -/
def decodeTableWord (nbits w : Nat) : Option Instr :=
  match decodeWords (commandWords (BitVec.ofNat 16 (w % 2 ^ nbits))) with
  | .ok (i, _) => some i
  | .error _ => none

end Sys2Proof
end

