-- ==== Sys2Proof/Machine/Memory.lean ====
section
/-! DEFINITION. The PersistentStore (R60 to R68): cells in one canonical form, the three calls of its contract at the
level of cells, the persistent items as views of the cells through `NV_LAYOUT`, and the bytes that first initialisation
seeds (R321). -/

namespace Sys2Proof.Machine

/-! ## Byte order helpers (R74) -/

/-- `LE32`: four bytes, least significant first. -/
def le32 (b0 b1 b2 b3 : Byte) : Word32 := b3 ++ b2 ++ b1 ++ b0

/-- Byte `j` of a 32-bit word, least significant first: `(v >> (8*j))[7:0]`. -/
def byteOfWord (v : Word32) (j : Nat) : Byte := v.extractLsb' (8 * j) 8

/-! ## Cells, by number -/

/-- The store's contents: listed cells only, each under its address's number, `Config.addrCell` (assumption log 5). R61 makes
the store a total map; see `Memory.unlisted`. -/
abbrev Memory := List Host.Cell

/-- What an address with no listed cell reads as (DESIGN CHOICE, unsafe: assumption log 6). -/
def Memory.unlisted : Byte := 0x00

/-- The one canonical form: addresses strictly rising, no cell equal to what an unlisted address reads as. -/
abbrev Memory.wf (m : Memory) : Prop :=
  m.Pairwise (fun x y => x.1 < y.1) ∧ ∀ x ∈ m, x.2 ≠ Memory.unlisted

/-- The byte of a cell. -/
def Memory.read : Memory → Nat → Byte
  | [], _ => Memory.unlisted
  | (a, b) :: rest, x => if a = x then b else Memory.read rest x

/-- A cell to put in front, unless it equals what an unlisted address reads as. -/
def Memory.consCell (a : Nat) (b : Byte) (m : Memory) : Memory :=
  if b = Memory.unlisted then m else (a, b) :: m

/-- A byte put into a cell, keeping the canonical form. -/
def Memory.write : Memory → Nat → Byte → Memory
  | [], x, v => Memory.consCell x v []
  | (a, b) :: rest, x, v =>
    if x < a then Memory.consCell x v ((a, b) :: rest)
    else if x = a then Memory.consCell x v rest
    else (a, b) :: Memory.write rest x v

/-- `NvUpdateByte` on a cell: a write only if the stored byte differs (R66). -/
def Memory.update (m : Memory) (a : Nat) (b : Byte) : Memory :=
  if Memory.read m a = b then m else Memory.write m a b

/-- The physical writes `NvUpdateByte` performs: none if the stored byte is equal, else one (R66). -/
def Memory.updateCost (m : Memory) (a : Nat) (b : Byte) : Nat :=
  if Memory.read m a = b then 0 else 1

/-! ## Persistent items (R62, R63, R68) -/

/-- Byte `i` of a persistent item: by R68 the architectural element is the stored byte. -/
def itemByte (c : Config) (m : Memory) (item : NvItem) (i : Nat) : Byte :=
  Memory.read m (c.nvCell item i)

/-- All bytes of a persistent item, index ascending. -/
def itemBytes (c : Config) (m : Memory) (item : NvItem) : List Byte :=
  (List.range (c.size item)).map (itemByte c m item)

/-- `KEY[n]` (R27). -/
def keyOf (c : Config) (m : Memory) (n : Fin nKey) : Bytes keyLen := vecOf fun i => itemByte c m (.key n) i

/-- `SPKEY` (R28). -/
def spKeyOf (c : Config) (m : Memory) : Bytes keyLen := vecOf fun i => itemByte c m .spKey i

/-- `CHTAB` (R30). -/
def chTabOf (c : Config) (m : Memory) : Bytes chTabLen := vecOf fun i => itemByte c m .chTab i

/-- `ENT[r]` (R31). -/
def entOf (c : Config) (m : Memory) (r : Fin nEnt) : List Byte := itemBytes c m (.ent r)

/-- `ALTKEY[p]` (R29): word `j` from its four bytes; the order within a word is any fixed one (R77, assumption
log 14). -/
def altKeyOf (c : Config) (m : Memory) (p : Fin nAltKey) : AltKey :=
  vecOf fun j =>
    let b (i : Nat) := itemByte c m (.altKey p) (word32Len * j + i)
    le32 (b 0) (b 1) (b 2) (b 3)

/-- `nvCryptMode` (R32). -/
def nvCryptModeOf (c : Config) (m : Memory) : Byte := itemByte c m .cryptMode 0

/-- `nvAtrIndex` (R32). -/
def nvAtrIndexOf (c : Config) (m : Memory) : Byte := itemByte c m .atrIndex 0

/-- What `AudienceOf` sees of the persistent state (R264). -/
def nvViewOf (c : Config) (m : Memory) : NvView := fun item i =>
  if i < c.size item then itemByte c m item i else 0

/-- The mode a stored byte loads as (R24). For a byte outside 0, 1, 2, which is not reachable, a free value
(assumption log 10). -/
def modeOfByte (c : Config) (b : Byte) : CryptMode :=
  if b = CryptMode.primary.toByte then .primary
  else if b = CryptMode.alternate.toByte then .alternate
  else if b = CryptMode.alternateVerified.toByte then .alternateVerified
  else c.modeOfOther b

/-! ## Writing items (R67, R68) -/

/-- The byte updates of `Persist(item, v)`, by cell: index ascending (R68). -/
def persistWrites (c : Config) (item : NvItem) (v : List Byte) : List (Nat × Byte) :=
  v.zipIdx.map fun (b, i) => (c.nvCell item i, b)

/-- The bytes of an alternate key in the store's order (R77). -/
def altKeyBytes (k : AltKey) : List Byte :=
  k.toList.flatMap fun w => [byteOfWord w 0, byteOfWord w 1, byteOfWord w 2, byteOfWord w 3]

/-- The items and values `SeedDefaults` persists, in its order (R321). -/
def seedItems (c : Config) : List (NvItem × List Byte) :=
  (List.finRange nKey).map (fun n => (.key n, (c.defKey n).toList)) ++
    [(.spKey, c.defSpKey.toList)] ++
    (List.finRange nAltKey).map (fun p => (.altKey p, altKeyBytes (c.defAltKey p))) ++
    [(.chTab, c.defChTab.toList)] ++
    (List.finRange nEnt).map (fun r => (.ent r, (List.range c.entLen).map (c.defEnt r))) ++
    [(.cryptMode, [c.defCryptMode.toByte]), (.atrIndex, [c.defAtrIndex])]

/-- The byte updates of `SeedDefaults`, in order. -/
def seedWrites (c : Config) : List (Nat × Byte) :=
  (seedItems c).flatMap fun (item, v) => persistWrites c item v

/-- The byte updates of `MemWrite(a, n, v)`, by cell: index ascending (R13, R67). -/
def blockWrites (c : Config) {n : Nat} (a : c.Addr) (v : Bytes n) : List (Nat × Byte) :=
  v.toList.zipIdx.map fun (b, i) => (c.addrCell (c.addrAdd a i), b)

/-- A run of byte updates. -/
def Memory.updateAll (m : Memory) (ws : List (Nat × Byte)) : Memory :=
  ws.foldl (fun m w => Memory.update m w.1 w.2) m

/-- The store after `SeedDefaults` (R321). -/
def seededFrom (c : Config) (m : Memory) : Memory := Memory.updateAll m (seedWrites c)

end Sys2Proof.Machine
end

