-- ==== Sys2Proof/Machine/CipherAlternate.lean ====
section
/-! DEFINITION. CipherEngine, alternate cipher (R160 to R170): parse, rounds with the early signature check, repack. -/

namespace Sys2Proof.Machine

/-- The running registers of the round loop (R163). -/
structure AltRegs where
  sum : Word32
  v0 : Word32
  v1 : Word32
  deriving DecidableEq, Repr

/-- What a call of `DecryptAlternate` writes (R160), and the number of rounds it ran (R314). -/
structure AltOut where
  msg : Bytes ecmLen
  cw : Bytes cwLen
  chk : BitVec 1
  rounds : Nat
  deriving DecidableEq, Repr

/-- `LE32(msg, o)` (R74). -/
def getLE32 (m : Bytes ecmLen) (o : Nat) : Word32 :=
  le32 (byteAt m o) (byteAt m (o + 1)) (byteAt m (o + 2)) (byteAt m (o + 3))

/-- One byte of `PutLE32`: `msg[o + i] <- (v >> (8*i))[7:0]` (R74). -/
def putByte (m : Bytes ecmLen) (o : Nat) (v : Word32) (i : Nat) : Bytes ecmLen :=
  m.setIfInBounds (o + i) (byteOfWord v i)

/-- `PutLE32(msg, o, v)` (R74): its four bytes, in order. -/
def putLE32 (m : Bytes ecmLen) (o : Nat) (v : Word32) : Bytes ecmLen :=
  putByte (putByte (putByte (putByte m o v 0) o v 1) o v 2) o v 3

/-- The field of the message at a parameter offset (R161). -/
def altField (c : Config) (m : Bytes ecmLen) (f : AltField) : Word32 := getLE32 m (c.altOff f)

/-- One application of `ALT_ROUND` (R164). -/
def altRoundStep (c : Config) (k : AltKey) (r : AltRegs) : AltRegs :=
  let o := c.altRound k r.sum r.v0 r.v1
  ⟨o.1, o.2.1, o.2.2⟩

/-- `n` applications. -/
def altRun (c : Config) (k : AltKey) : Nat → AltRegs → AltRegs
  | 0, r => r
  | n + 1, r => altRun c k n (altRoundStep c k r)

/-- The registers before round index 0: `sum` starts at 0 (R163). -/
def altStart (c : Config) (m : Bytes ecmLen) : AltRegs := ⟨0, altField c m .v0, altField c m .v1⟩

/-- The registers that are compared: after round index 7, that is after eight applications (R165). -/
def altCheckpoint (c : Config) (k : AltKey) (m : Bytes ecmLen) : AltRegs := altRun c k (altCheckRound + 1) (altStart c m)

/-- The comparison of R165: both words equal. -/
def altMatches (c : Config) (k : AltKey) (m : Bytes ecmLen) : Bool :=
  let r := altCheckpoint c k m
  r.v0 == altField c m .s0 && r.v1 == altField c m .s1

/-- What the rounds come to (R162, R165): the words to be repacked, the flag, and the applications of `ALT_ROUND`. -/
structure AltOutcome where
  v0 : Word32
  v1 : Word32
  chk : BitVec 1
  rounds : Nat
  deriving DecidableEq, Repr

/-- Unverified (R162), match (R166), mismatch (R167). -/
def altOutcome (c : Config) (verify : Bool) (k : AltKey) (m : Bytes ecmLen) : AltOutcome :=
  if verify then
    let r := altCheckpoint c k m
    if altMatches c k m then
      let r' := altRun c k (altRoundCount - (altCheckRound + 1)) r
      ⟨r'.v0, r'.v1, 1, altRoundCount⟩
    else ⟨r.v0, r.v1, 0, altCheckRound + 1⟩
  else ⟨altField c m .v0, altField c m .v1, 1, 0⟩

/-- The control word of a repacked message: the bytes at `v0`'s place, then those at `v1`'s (R168). -/
def altControlWord (c : Config) (m : Bytes ecmLen) : Bytes cwLen :=
  vecOf fun i =>
    if i.val < word32Len then byteAt m (c.altOff .v0 + i.val) else byteAt m (c.altOff .v1 + (i.val - word32Len))

/-- Repacking (R168): `v0` and `v1` back to their places, and the control word from there. -/
def altRepack (c : Config) (m : Bytes ecmLen) (o : AltOutcome) : AltOut :=
  let m' := putLE32 (putLE32 m (c.altOff .v0) o.v0) (c.altOff .v1) o.v1
  { msg := m', cw := altControlWord c m', chk := o.chk, rounds := o.rounds }

/-- `DecryptAlternate(verify, k)` on the message (R160). -/
def decryptAlternate (c : Config) (verify : Bool) (k : AltKey) (m : Bytes ecmLen) : AltOut :=
  altRepack c m (altOutcome c verify k m)

end Sys2Proof.Machine
end

