-- ==== Sys2Proof/Machine/CipherPrimary.lean ====
section
/-! DEFINITION. CipherEngine, primary cipher (R120 to R138): the assembly of `DecryptPrimary` from its parts, and the
operation of a parameter set. -/

namespace Sys2Proof.Machine

/-- One half of the key rotated left by `n` positions in the given order of its bits (R131; that there is such an order is
the model's reading, DEDUCED, log 13): position `p` receives what stood at position `p + n`. -/
def rotateHalf (order : Equiv.Perm (Fin keyHalfBits)) (n : Nat) (h : BitVec keyHalfBits) : BitVec keyHalfBits :=
  BitVec.ofFnLE fun i => h.getLsb (order (order.symm i + Fin.ofNat keyHalfBits n))

/-- `KeyRotate(k, n)` (R131): both halves, independently. -/
def keyRotate (p : PrimaryParts) (k : K56) (n : ShiftBy) : K56 :=
  ⟨rotateHalf p.keyOrderL n.amount k.kL, rotateHalf p.keyOrderR n.amount k.kR⟩

/-- The round value `f` (R126 to R130): group by group, expand, exclusive or, look up, permute. -/
def roundValue (p : PrimaryParts) (r : Fin priRounds) (s : Bytes halfLen) (k : K56) : Bytes roundLen :=
  let ek := p.expandKey p.tables.tKeyExp k
  let ed := p.expandData p.tables.tDataExp s
  let y (g : Fin nGroup) : BitVec substBits := p.sboxLookup p.tables.tSbox r g (ek[g] ^^^ ed[g])
  p.outPermute p.tables.tOutPerm (vecOf y)

/-- One Feistel round (R130): the value into the right half, the halves swapped, the key rotated by `T_SHIFT[r]`. -/
def feistelRound (p : PrimaryParts) (r : Fin priRounds) (s : Bytes halfLen) (k : K56) : Bytes halfLen × K56 :=
  let f := roundValue p r s k
  (vecOf fun j =>
      if j.val < roundLen then byteAt s (roundLen + j.val) ^^^ byteAt f j.val else byteAt s (j.val - roundLen),
    keyRotate p k (p.tables.tShift r))

/-- The rounds, `r` ascending (R133). -/
def feistelRounds (p : PrimaryParts) (s : Bytes halfLen) (k : K56) : Bytes halfLen × K56 :=
  (List.finRange priRounds).foldl (fun sk r => feistelRound p r sk.1 sk.2) (s, k)

/-- The values `HalfPipeline` writes to `wk`, in order: `K0`, then the key after each round (R133). The message does not
enter them. -/
def workingKeys (p : PrimaryParts) (k0 : K56) : List K56 :=
  (List.finRange priRounds).scanl (fun k r => keyRotate p k (p.tables.tShift r)) k0

/-- `HalfPipeline(K0, h)` (R133): the half's output and the working key it leaves in `wk`. -/
def halfPipeline (p : PrimaryParts) (k0 : K56) (h : Bytes halfLen) : Bytes halfLen × K56 :=
  let sk := feistelRounds p (p.cwIP p.tables.tCwIp h) k0
  (p.cwFP p.tables.tCwFp sk.1, sk.2)

/-- Half `i` of the message: bytes 0..7 or 8..15 (R124). -/
def messageHalf (m : Bytes ecmLen) (i : Fin nHalf) : Bytes halfLen := vecOf fun j => byteAt m (halfLen * i.val + j.val)

/-- The date escape (R135): one step, not a loop. -/
def pickDate (d : Word16 × Word16) : Word16 := if d.1 = dateEscape then d.2 else d.1

/-- `HalfResult(i, o)` (R136): the designated four bytes of the output of half `i`. -/
def halfResult (p : PrimaryParts) (i : Fin nHalf) (o : Bytes halfLen) : Bytes roundLen := vecOf fun j => o[p.halfPos i j]

/-- `K0` (R138): the working key both halves start from (R124). -/
def startKey (p : PrimaryParts) (key : Bytes keyLen) : K56 := p.keyAdjust (p.keyReduce p.tables.tKeyPerm key) key

/-- `DecryptPrimary` assembled (R138). -/
def assembledDecrypt (p : PrimaryParts) (key : Bytes keyLen) (m : Bytes ecmLen) : PrimaryOut :=
  let k0 := startKey p key
  let h0 := halfPipeline p k0 (messageHalf m 0)
  let h1 := halfPipeline p k0 (messageHalf m 1)
  { cw := p.cwRepack (halfResult p 0 h0.1 ++ halfResult p 1 h1.1)
    aux := h0.1[p.auxPos]
    date := pickDate (p.dateFields h0.1 h1.1)
    wk := h1.2 }

/-- `DecryptPrimary(key, m)` of a parameter set (R120). -/
def decryptPrimary (c : Config) (key : Bytes keyLen) (m : Bytes ecmLen) : PrimaryOut :=
  match c.primary with
  | .whole f => f key m
  | .assembled p => assembledDecrypt p key m

/-- The values a call of `DecryptPrimary` writes to `wk`, in order: those of both halves, from the same `K0` (R124, R133);
of a cipher not given in parts, the final one (R120; assumption log 25). -/
def wkWrites (c : Config) (key : Bytes keyLen) (m : Bytes ecmLen) : List K56 :=
  match c.primary with
  | .whole f => [(f key m).wk]
  | .assembled p => workingKeys p (startKey p key) ++ workingKeys p (startKey p key)

/-- `CwRepack` as the reference set P0 reads it (R137); a part an assembled cipher may use. -/
def cwRepackReference (i : Bytes (nHalf * roundLen)) : Bytes cwLen :=
  #v[i[0], i[1], i[2], i[3], i[4] <<< 1, (i[5] <<< 1) ||| (i[4] >>> 7), (i[6] <<< 1) ||| (i[5] >>> 7),
    ((i[7] <<< 1) ||| (i[6] >>> 7)) &&& 0x1F]

end Sys2Proof.Machine
end

