-- ==== Sys2Proof/Machine/State.lean ====
section
/-! DEFINITION. The state of the block (R20 to R35) as plain data, the reasons a step can stop, and the state after
reset. -/

namespace Sys2Proof.Machine

/-- The control state in place of a program counter (R22). -/
inductive Phase where
  /-- Sampling; the last word read, if any, was not framed. -/
  | idle
  /-- Sampling; the last word read was framed and `h` is its bits 7:0. -/
  | cand (h : Byte)
  /-- Dispatching: the handler of command `code` has performed `k` primitive steps. -/
  | run (code : Word16) (k : Nat)
  deriving DecidableEq, Repr

/-- One event on HostChannel; the log of both directions is one total order (R72). -/
inductive ChEvent where
  /-- A word the block read. -/
  | rx (w : Word9)
  /-- A word the block wrote. -/
  | tx (w : Word9)
  deriving DecidableEq, Repr

/-- The closed list of model-level faults (R305). -/
inductive ModelFault where
  /-- Raised by `RbPush` on a full buffer (R284). Not reachable through the command set. -/
  | capacityViolation (w : SlotWord)
  /-- Raised by the reset step when the PersistentStore cannot be read or seeded (R326). -/
  | resetFailed
  deriving DecidableEq, Repr

/-- Why a step has no next state (R18). -/
inductive Fault where
  /-- Stuck (R306), not a fault of the block: the next primitive is a `ChRead()` and the host has no further word.
  Raised by `step` while sampling and by any handler whose next primitive is a `ChRead()`. Safe: the real block waits
  too, and goes on as soon as a word is supplied. -/
  | hostSilent
  /-- A model-level fault is recorded in the state (R305): raised by `step` alone. Safe: the machine stops where the
  spec gives no next state. -/
  | recorded (f : ModelFault)
  deriving DecidableEq, Repr

/-- Why an instruction has no meaning. -/
inductive Refusal where
  /-- The instruction is not modelled yet. Raised by `exec`'s arms alone; no arm does. Safe. -/
  | notModelled (mnemonic : String)
  deriving DecidableEq, Repr

/-- The bytes a handler keeps: those of a channel table or of a key, whichever is longer (R201, R209; log 18). -/
@[simp] abbrev bufLen : Nat := max chTabLen keyLen

/-- The state: R20's list, with the persistent elements as the bytes of `nv` (R68), the two channel logs as one
(R72), and six fields of the model's own (`rx`, `buf`, `held`, `v0`, `v1`, `altRounds`). -/
structure State where
  /-- The control state (R22). -/
  phase : Phase
  /-- The check flag (R23). -/
  chk : BitVec 1
  /-- The working copy of the crypt mode (R24). -/
  cryptMode : CryptMode
  /-- The working copy of the ATR index (R25). -/
  atrIndex : Byte
  /-- Lower bound of the validity window (R26). -/
  minDate : Word16
  /-- Upper bound of the validity window (R26). -/
  maxDate : Word16
  /-- The PersistentStore: KEY, SPKEY, ALTKEY, CHTAB, ENT, nvCryptMode, nvAtrIndex (R27 to R32, R61, R68). -/
  nv : Memory
  /-- ResponseBuffer slots (R33). -/
  slot : Vector SlotWord rbCap
  /-- ResponseBuffer read cursor, 0..15 (R33). -/
  rd : Fin rbCap
  /-- ResponseBuffer length, 0..16 (R33). -/
  len : Nat
  /-- Scratch: the encrypted message (R34). -/
  msg : Bytes ecmLen
  /-- Scratch: the 56-bit working key (R34). -/
  wk : K56
  /-- Scratch: the control word (R34). -/
  cw : Bytes cwLen
  /-- Scratch: the auxiliary byte (R34). -/
  aux : Byte
  /-- Scratch: the date (R34). -/
  date : Word16
  /-- Bookkeeping: the first model-level fault raised (R35, R305). -/
  fault : Option ModelFault
  /-- Bookkeeping: physical PersistentStore writes since reset (R35, R66). -/
  nvWrites : Nat
  /-- Bookkeeping: the words read and written, oldest first, in one order (R35, R72). -/
  ioLog : List ChEvent
  /-- The model's own: the words the host has sent and the block has not read, next word first (R17, R70; log 3). -/
  rx : List Word9
  /-- The model's own: the running handler's local bytes, `b` of R201 and R209, `sub` of R225 (log 18). -/
  buf : Bytes bufLen
  /-- The model's own: the word a statement of two primitives has after the first: what `RbPop()` returned to POP (R288),
  what `ChRead()` returned to DECRYPT (R271; log 18). -/
  held : Word9
  /-- The model's own: the local `v0` of `DecryptAlternate`, to be repacked (R165, R168; log 18). -/
  v0 : Word32
  /-- The model's own: the local `v1` of `DecryptAlternate`, to be repacked (R165, R168; log 18). -/
  v1 : Word32
  /-- The model's own: `ALT_ROUND` applications of the latest alternate-cipher call (R314; log 18). -/
  altRounds : Nat
  deriving DecidableEq, Repr

/-- `rxLog` (R35): the words read, oldest first. -/
def State.rxLog (s : State) : List Word9 :=
  s.ioLog.filterMap fun
    | .rx w => some w
    | .tx _ => none

/-- `txLog` (R35): the words written, oldest first. -/
def State.txLog (s : State) : List Word9 :=
  s.ioLog.filterMap fun
    | .rx _ => none
    | .tx w => some w

/-- The state a reset leaves around a store `m`: working copies loaded (R322), window derived (R323), transient
elements as R324 gives them, the unspecified ones zero (assumption log 7); `rx` is the host's, given. -/
def State.afterReset (c : Config) (m : Memory) (rx : List Word9) : State where
  phase := .idle
  chk := 0
  cryptMode := modeOfByte c (nvCryptModeOf c m)
  atrIndex := nvAtrIndexOf c m
  minDate := c.minDateOf (entOf c m 0) (entOf c m 1)
  maxDate := c.maxDateOf (entOf c m 0) (entOf c m 1)
  nv := m
  slot := Vector.replicate rbCap 0
  rd := 0
  len := 0
  msg := Vector.replicate ecmLen 0
  wk := ⟨0, 0⟩
  cw := Vector.replicate cwLen 0
  aux := 0
  date := 0
  fault := none
  nvWrites := 0
  ioLog := []
  rx := rx
  buf := Vector.replicate bufLen 0
  held := 0
  v0 := 0
  v1 := 0
  altRounds := 0

/-- The machine right after reset: `Reset(FirstInit)` of a device whose store was never seeded (R325), the host not
having sent anything (assumption log 8). -/
def State.reset : State := State.afterReset Config.device (seededFrom Config.device []) []

end Sys2Proof.Machine
end

