-- ==== Sys2Proof/Machine/Ops.lean ====
section
/-! DEFINITION. The primitives of R13 as operations on the state: HostChannel (R70, R71), PersistentStore (R64 to R68),
ResponseBuffer (R281 to R286), raising a model fault (R305), and what the host can do (R19). There is no operation that
takes an exception: the block has none (R300, R309). -/

namespace Sys2Proof.Machine

/-! ## Model faults (R305) -/

/-- `raise f`: the first fault is recorded and stays; nothing else changes. -/
def State.raise (s : State) (f : ModelFault) : State :=
  { s with fault := s.fault <|> some f }

/-! ## HostChannel -/

/-- `ChRead()` (R70): the next word of the host and the state with it consumed and logged; none while the host has
sent no further word. -/
def State.chRead (s : State) : Option (Word9 × State) :=
  match s.rx with
  | [] => none
  | w :: rest => some (w, { s with rx := rest, ioLog := s.ioLog ++ [.rx w] })

/-- `ChWrite(w)` (R71): always completes (U6). -/
def State.chWrite (s : State) (w : Word9) : State := { s with ioLog := s.ioLog ++ [.tx w] }

/-- What the host can do to the block (R19): supply words. It may do so between any two steps. -/
def State.hostSend (s : State) (ws : List Word9) : State := { s with rx := s.rx ++ ws }

/-! ## PersistentStore -/

/-- The total map `NV` (R61), read at `a`: `NvReadByte(a)` (R64). -/
abbrev State.nvReadByte (s : State) (c : Config) (a : c.Addr) : Byte := Memory.read s.nv (c.addrCell a)

/-- `NvReadBlock(a, n)` (R65). -/
def State.nvReadBlock (s : State) (c : Config) (a : c.Addr) (n : Nat) : List Byte :=
  (List.range n).map fun i => s.nvReadByte c (c.addrAdd a i)

/-- An update of a cell: a physical write, counted, only if the stored byte differs (R66). -/
def State.updateCell (s : State) (n : Nat) (b : Byte) : State :=
  { s with nv := Memory.update s.nv n b, nvWrites := s.nvWrites + Memory.updateCost s.nv n b }

/-- `NvUpdateByte(a, b)` (R66). -/
abbrev State.nvUpdateByte (s : State) (c : Config) (a : c.Addr) (b : Byte) : State := s.updateCell (c.addrCell a) b

/-- `MemRead(a, n)`, a synonym of `NvReadBlock(a, n)` (R13). -/
def State.memRead (s : State) (c : Config) (a : c.Addr) (n : Nat) : List Byte := s.nvReadBlock c a n

/-- A run of `NvUpdateByte` calls, in order, by cell. -/
def State.updateCells (s : State) (ws : List (Nat × Byte)) : State := ws.foldl (fun s w => s.updateCell w.1 w.2) s

/-- `MemWrite(a, n, v)` (R13, R67): `NvUpdateByte(a + i, v[i])` for `i` ascending, each call counted. No command uses it:
an item is written through `NV_LAYOUT`. -/
def State.memWrite {n : Nat} (s : State) (c : Config) (a : c.Addr) (v : Bytes n) : State :=
  s.updateCells (blockWrites c a v)

/-- `Persist(item, v)` (R68) as one operation; a handler performs it byte by byte, `persistPrims`. -/
def State.persist (s : State) (c : Config) (item : NvItem) (v : List Byte) : State :=
  s.updateCells (persistWrites c item v)

/-! ## ResponseBuffer -/

/-- Index arithmetic is modulo capacity (R33, R280). -/
def slotIndex (n : Nat) : Fin rbCap := ⟨n % rbCap, Nat.mod_lt n (by decide)⟩

/-- The queue's contents, oldest first (R280). -/
def State.queue (s : State) : List SlotWord :=
  (List.range s.len).map fun i => s.slot[slotIndex (s.rd.val + i)]

/-- `RbReset()` (R281): the slots are not cleared. -/
def State.rbReset (s : State) : State := { s with rd := 0, len := 0 }

/-- `RbPush(w)` when there is room (R282). -/
def State.rbStore (s : State) (w : SlotWord) : State :=
  { s with slot := s.slot.set (slotIndex (s.rd.val + s.len)) w, len := s.len + 1 }

/-- The buffer is full (R284). -/
def State.rbFull (s : State) : Bool := decide (rbCap ≤ s.len)

/-- Set the framing bit of one slot, by OR (D44). -/
def State.frameSlot (s : State) (i : Fin rbCap) : State :=
  { s with slot := s.slot.set i (s.slot[i] ||| frameMask) }

/-- `RbFrame()` (R283): first and last slot. -/
def State.rbFrame (s : State) : State :=
  if 1 ≤ s.len then (s.frameSlot s.rd).frameSlot (slotIndex (s.rd.val + s.len - 1)) else s

/-- `RbPop()` (R285): bits 8:0 of the oldest slot, or the idle word from an empty buffer. -/
def State.rbPop (s : State) : Word9 × State :=
  if s.len = 0 then (wIdle, s)
  else (s.slot[s.rd].extractLsb' 0 wordBits, { s with rd := s.rd + 1, len := s.len - 1 })

/-- Keep a word for the `ChWrite` that follows (R288). -/
def State.hold (s : State) (w : Word9) : State := { s with held := w }

/-! ## Control state (R22, R293) -/

/-- The primitive steps the running handler has performed; 0 when no handler runs. -/
def State.stepIndex (s : State) : Nat :=
  match s.phase with
  | .run _ k => k
  | _ => 0

/-- One more primitive step performed (R185). -/
def State.advance (s : State) : State :=
  match s.phase with
  | .run code k => { s with phase := .run code (k + 1) }
  | _ => s

/-- The handler is done: back to `Idle`, never `Cand` (R185, R182). -/
def State.toIdle (s : State) : State := { s with phase := .idle }

/-- The state in which the handler of `code` runs: where it is if that handler is running, else at its start. -/
def State.enter (s : State) (code : Word16) : State :=
  match s.phase with
  | .run code' _ => if code' = code then s else { s with phase := .run code 0 }
  | _ => { s with phase := .run code 0 }

end Sys2Proof.Machine
end

