-- ==== Sys2Proof/Machine/Operands.lean ====
section
/-! DEFINITION. Operands and selections (R94, R95, R221, R261 to R265): what a handler takes from its code, from
`atrIndex` and from the persistent state. Every payload byte is `dataByte` of its word (R95). -/

namespace Sys2Proof.Machine

/-- `atrHi`, bits 7:4 of `atrIndex` (R25). -/
def atrHi (a : Byte) : BitVec 4 := a.extractLsb' 4 4

/-- `atrLo`, bits 3:0 of `atrIndex` (R25). -/
def atrLo (a : Byte) : BitVec 4 := a.extractLsb' 0 4

/-- `keyIndex` (R261). -/
def keyIndexOf (c : Config) (code : Word16) : KeyIndex := c.keyIndexOf code

/-- The parity of the key index, `keyIndex[0]` (R265). -/
def keyParity (i : KeyIndex) : Fin nAltKey := if i.val % 2 = 1 then 1 else 0

/-- `aud = AudienceOf(code, msg, NV)` (R264). -/
def audience (c : Config) (code : Word16) (s : State) : Byte := c.audienceOf code s.msg (nvViewOf c s.nv)

/-- The key `DecryptPrimary` is given: `SPKEY` for the special audience value (R264), else `KEY[KeySel(...)]` (R263). -/
def primaryKey (c : Config) (code : Word16) (s : State) : Bytes keyLen :=
  if audience c code s = c.audSpecial then spKeyOf c s.nv
  else keyOf c s.nv (c.keySel (keyIndexOf c code) s.atrIndex)

/-- The key `DecryptAlternate` is given (R265). -/
def alternateKey (c : Config) (code : Word16) (s : State) : AltKey := altKeyOf c s.nv (keyParity (keyIndexOf c code))

/-- The payload words of a command after its two code words (R96), with zeros for them: for ENT that is sub-selector 0.
-/
def payloadCount (c : Config) : Instr → Nat
  | .chtabLoad _ => chTabLen
  | .atr => 0
  | .chtabRead => 0
  | .setmode0 => 0
  | .setmode1 => 0
  | .setmode2 => 0
  | .hs05 _ => hs05Len
  | .decrypt _ => ecmLen
  | .setatr _ => 0
  | .keyload _ => keyLen
  | .ident0 => 0
  | .ident1 => 0
  | .ident2 => 0
  | .hs5e0 => c.hsLen .h5E00
  | .hs5e1 => c.hsLen .h5E01
  | .hs5e2 => c.hsLen .h5E02
  | .ent => 1
  | .hs5f1 => c.hsLen .h5F01
  | .hs5f2 => c.hsLen .h5F02
  | .pop => 0
  | .notready _ => 0

end Sys2Proof.Machine
end

