-- ==== Sys2Proof/Machine/Flags.lean ====
section
/-! DEFINITION. The writes of a CipherEngine call, the block's one flag `chk` among them (R23, R34, R262), and the
conditions DECRYPT decides on, its outcome `ok` (R266, R267). -/

namespace Sys2Proof.Machine

/-- One write of a scratch element or of `chk` by DECRYPT (R34, R260): each an element write of R13. -/
inductive Scratch where
  /-- `msg[i] <- w[7:0]` with `w` the word just read (R271). -/
  | msg (i : Fin ecmLen)
  /-- `wk <- k` (R133). -/
  | wk (k : K56)
  /-- `aux <- b` (R134). -/
  | aux (b : Byte)
  /-- `date <- d` (R135). -/
  | date (d : Word16)
  /-- `cw <- v` (R138). -/
  | cw (v : Bytes cwLen)
  /-- `chk <- 1` or `chk <- 0` (R162, R166, R167): the rounds on the locals `sum`, `v0`, `v1` are part of it (log 25). -/
  | chk (code : Word16) (verify : Bool)
  /-- Byte `i` of `PutLE32(msg, ALT_V0_OFF, v0)` (R168). -/
  | putV0 (i : Fin word32Len)
  /-- Byte `i` of `PutLE32(msg, ALT_V1_OFF, v1)` (R168). -/
  | putV1 (i : Fin word32Len)
  /-- `cw` from the repacked bytes of `msg` (R168). -/
  | cwFromMsg
  deriving DecidableEq, Repr

/-- The write performed. -/
def State.writeScratch (s : State) (c : Config) : Scratch → State
  | .msg i => { s with msg := s.msg.set i (dataByte s.held) }
  | .wk k => { s with wk := k }
  | .aux b => { s with aux := b }
  | .date d => { s with date := d }
  | .cw v => { s with cw := v }
  | .chk code verify =>
    let o := altOutcome c verify (alternateKey c code s) s.msg
    { s with chk := o.chk, v0 := o.v0, v1 := o.v1, altRounds := o.rounds }
  | .putV0 i => { s with msg := putByte s.msg (c.altOff .v0) s.v0 i }
  | .putV1 i => { s with msg := putByte s.msg (c.altOff .v1) s.v1 i }
  | .cwFromMsg => { s with cw := altControlWord c s.msg }

/-- What a call of `DecryptPrimary` writes, in order: `wk`, then its three results (R120, R133, R138), not `chk` (D41). -/
def primaryWrites (c : Config) (key : Bytes keyLen) (m : Bytes ecmLen) : List Scratch :=
  let o := decryptPrimary c key m
  (wkWrites c key m).map .wk ++ [.aux o.aux, .date o.date, .cw o.cw]

/-- What a call of `DecryptAlternate` writes, in order: `chk`, the eight bytes of `msg`, `cw` (R162, R165, R168), not
`aux`, not `date` (D48). -/
def alternateWrites (code : Word16) (verify : Bool) : List Scratch :=
  .chk code verify :: (List.finRange word32Len).map .putV0 ++ (List.finRange word32Len).map .putV1 ++ [.cwFromMsg]

/-- What the one CipherEngine call of a DECRYPT writes, the call selected by `cryptMode` (R262). -/
def engineWrites (c : Config) (code : Word16) (s : State) : List Scratch :=
  match s.cryptMode with
  | .primary => primaryWrites c (primaryKey c code s) s.msg
  | .alternate => alternateWrites code false
  | .alternateVerified => alternateWrites code true

/-- The validation applies (R266). -/
def validates (c : Config) (code : Word16) (s : State) : Bool :=
  c.validatingPolicy (atrHi s.atrIndex) && (audience c code s != c.audSpecial)

/-- The window holds the date, bounds inclusive, unsigned (R26, R266). -/
def inWindow (s : State) : Bool := decide (s.minDate.toNat ≤ s.date.toNat) && decide (s.date.toNat ≤ s.maxDate.toNat)

/-- `ok` after the CipherEngine call: R266 in mode 0, R267 in modes 1 and 2. -/
def decryptOk (c : Config) (code : Word16) (s : State) : Bool :=
  match s.cryptMode with
  | .primary => !validates c code s || (inWindow s && c.audienceMatch (audience c code s) s.aux)
  | .alternate => s.chk == 1
  | .alternateVerified => s.chk == 1

end Sys2Proof.Machine
end

