-- ==== Sys2Proof/Machine/Handler.lean ====
section
/-! DEFINITION. Handlers as sequences of primitive steps (R14, R185), and how a handler runs: one primitive at a time
(R18), or on to its end or to the first `ChRead()` that has no word (R188, R306; assumption log 1). -/

namespace Sys2Proof.Machine

/-- What a step answers. -/
abbrev Outcome := Host.Outcome State Fault Refusal

/-- The primitive steps the handlers are written in (R13), each counted once in `k` (R22, R185, R293). What counts as one
where R13 does not say is the model's choice (DESIGN CHOICE, log 25): an assignment to a handler's local (`b[i]`, `sub`,
`keyIndex`, `aud`, `ok`, `sum`, `v0`, `v1`), the evaluation of a parameter function, and the reading of a state element as
an operand are no primitive of their own, but part of the one they are written with or serve. -/
inductive Prim where
  /-- `b[i] <- ChRead()[7:0]` (R201, R209, R225): a `ChRead()` whose byte a handler-local takes (log 25). -/
  | readBuf (i : Fin bufLen)
  /-- `ChRead()` of DECRYPT, the word held for the write to `msg` that follows (R271; log 23). -/
  | readHeld
  /-- `ChRead()`, the word discarded (R241, R245). -/
  | discard
  /-- `ChWrite(w)`. -/
  | write (w : Word9)
  /-- `RbPop()` of POP (R288), the word held for the `ChWrite` that follows (log 23). -/
  | rbPop
  /-- `ChWrite` of the word POP holds (R288). -/
  | writeHeld
  /-- `cryptMode <- m` (R204). -/
  | setMode (m : CryptMode)
  /-- `atrIndex <- b` (R206). -/
  | setAtr (b : Byte)
  /-- `NvUpdateByte(NV_LAYOUT(item, i), b)` (R68). -/
  | nvUpdate (item : NvItem) (i : Nat) (b : Byte)
  /-- A write of a scratch element or of `chk` (R34, R262, R271). -/
  | scratch (x : Scratch)
  /-- `RbReset()`. -/
  | rbReset
  /-- `RbPush(w)`. -/
  | rbPush (w : SlotWord)
  /-- `RbFrame()`. -/
  | rbFrame
  deriving DecidableEq, Repr

/-- The primitive is a `ChRead()`, the only one that can block (R294). -/
def Prim.isRead : Prim → Bool
  | .readBuf _ => true
  | .readHeld => true
  | .discard => true
  | .write _ => false
  | .rbPop => false
  | .writeHeld => false
  | .setMode _ => false
  | .setAtr _ => false
  | .nvUpdate _ _ _ => false
  | .scratch _ => false
  | .rbReset => false
  | .rbPush _ => false
  | .rbFrame => false

/-- What performing one primitive comes to. -/
inductive PrimResult where
  /-- Performed. -/
  | done (s : State)
  /-- A `ChRead()` with no word (R306). -/
  | blocked
  /-- A model fault raised; it changes no other state (R305). -/
  | raised (f : ModelFault)
  deriving DecidableEq, Repr

/-- A `ChRead()` and what is done with its word. -/
def State.readThen (s : State) (use : Word9 → State → State) : PrimResult :=
  match s.chRead with
  | none => .blocked
  | some (w, s') => .done (use w s')

/-- One primitive step. -/
def Prim.perform (c : Config) (p : Prim) (s : State) : PrimResult :=
  match p with
  | .readBuf i => s.readThen fun w s' => { s' with buf := s'.buf.set i (dataByte w) }
  | .readHeld => s.readThen fun w s' => s'.hold w
  | .discard => s.readThen fun _ s' => s'
  | .write w => .done (s.chWrite w)
  | .rbPop => .done (s.rbPop.2.hold s.rbPop.1)
  | .writeHeld => .done (s.chWrite s.held)
  | .setMode m => .done { s with cryptMode := m }
  | .setAtr b => .done { s with atrIndex := b }
  | .nvUpdate item i b => .done (s.nvUpdateByte c (c.nvLayout item i) b)
  | .scratch x => .done (s.writeScratch c x)
  | .rbReset => .done s.rbReset
  | .rbPush w => if s.rbFull then .raised (.capacityViolation w) else .done (s.rbStore w)
  | .rbFrame => .done s.rbFrame

/-- `Persist(item, v)` as its primitive steps (R68). -/
def persistPrims (item : NvItem) (v : List Byte) : List Prim := v.zipIdx.map fun (b, i) => .nvUpdate item i b

/-- The first `n` payload bytes, read in order. -/
def payloadReads (n : Nat) (h : n ≤ bufLen) : List Prim := (List.finRange n).map fun i => .readBuf (i.castLE h)

/-- Reset, push each word, frame: the discipline of every producing handler (R220, R268, R286). -/
def burstPrims (ws : List SlotWord) : List Prim := .rbReset :: ws.map .rbPush ++ [.rbFrame]

/-- `RbBurst(bytes)` as its primitive steps (R286). -/
def byteBurst (bytes : List Byte) : List Prim := burstPrims (bytes.map (·.setWidth rbSlotBits))

/-- A handler as its parts in order: the primitives of a part are decided by the state once the parts before it are
done, and performing them does not change which they are. -/
structure Handler where
  parts : List (State → List Prim)

/-- A handler whose primitives are all fixed by its code. -/
def Handler.fixed (ps : List Prim) : Handler := ⟨[fun _ => ps]⟩

/-- Primitives fixed by the code, then primitives that depend on the state once those are done. -/
def Handler.seq (front : List Prim) (back : State → List Prim) : Handler := ⟨[fun _ => front, back]⟩

/-- The primitives of a list of parts, as the state decides them. -/
def partPrims (ps : List (State → List Prim)) (s : State) : List Prim := ps.flatMap fun p => p s

/-- The primitive with index `k`, none past the handler's end. -/
def Handler.primAt (h : Handler) (k : Nat) (s : State) : Option Prim := (partPrims h.parts s)[k]?

/-- The next primitive is a `ChRead()`. -/
def Handler.atRead (h : Handler) (s : State) : Bool :=
  match h.primAt s.stepIndex s with
  | some p => p.isRead
  | none => false

/-- One step of R18: perform the primitive `k` stands at; after the last one the phase is `Idle` (R293). -/
def Handler.primStep (c : Config) (h : Handler) (s : State) : Outcome :=
  match h.primAt s.stepIndex s with
  | none => .next s.toIdle
  | some p =>
    match p.perform c s with
    | .blocked => .fault .hostSilent
    | .raised f => .next (s.raise f)
    | .done s' =>
      match h.primAt (s.stepIndex + 1) s' with
      | none => .next s'.toIdle
      | some _ => .next s'.advance

/-- Where a run of primitives has come to. -/
inductive Ran where
  /-- All performed. -/
  | finished (s : State)
  /-- Stopped at a `ChRead()` with no word, or at a raised fault. -/
  | stopped (s : State)
  deriving DecidableEq, Repr

/-- Perform primitives in order, as far as they go. -/
def runPrims (c : Config) : List Prim → State → Ran
  | [], s => .finished s
  | p :: ps, s =>
    match p.perform c s with
    | .blocked => .stopped s
    | .raised f => .stopped (s.raise f)
    | .done s' => runPrims c ps s'.advance

/-- Perform parts in order, from primitive `k` of them on, each decided by the state the parts before it leave. -/
def runParts (c : Config) : List (State → List Prim) → Nat → State → Ran
  | [], _, s => .finished s
  | p :: ps, k, s =>
    match runPrims c ((p s).drop k) s with
    | .finished s' => runParts c ps (k - (p s).length) s'
    | .stopped s' => .stopped s'

/-- Go on from the primitive the state stands at, to the handler's end or as far as the host's words allow. -/
def Handler.run (c : Config) (h : Handler) (s : State) : State :=
  match runParts c h.parts s.stepIndex s with
  | .finished s' => s'.toIdle
  | .stopped s' => s'

/-- The meaning of a command: its handler entered and run (R185, R188). Stuck if not even its next primitive can be
performed, that is if it is a `ChRead()` and the host has no word (R306). -/
def runHandler (c : Config) (code : Word16) (h : Handler) (s : State) : Outcome :=
  if (s.enter code).rx.isEmpty && h.atRead (s.enter code) then .fault .hostSilent
  else .next (h.run c (s.enter code))

end Sys2Proof.Machine
end

