-- ==== Sys2Proof/Machine/Decrypt.lean ====
section
/-! DEFINITION. The DECRYPT command (R260 to R271). -/

namespace Sys2Proof.Machine

/-- The words of the outcome: the success burst (R268) or the single failure word (R269). -/
def decryptWords (c : Config) (code : Word16) (s : State) : List SlotWord :=
  if decryptOk c code s then (c.decOkBurst s.cw (keyIndexOf c code)).map (·.setWidth rbSlotBits)
  else [wDecFail.setWidth rbSlotBits]

/-- `for i in 0..15: msg[i] <- ChRead()[7:0]` (R260, R271). -/
def messageReads : List Prim := (List.finRange ecmLen).flatMap fun i => [.readHeld, .scratch (.msg i)]

/-- DECRYPT (R260): the message bytes, one CipherEngine call, one burst. -/
def decryptHandler (c : Config) (code : Word16) : Handler :=
  ⟨[fun _ => messageReads, fun s => (engineWrites c code s).map .scratch, fun s => burstPrims (decryptWords c code s)]⟩

/-- DECRYPT. -/
def execDecrypt (b : Byte) (s : State) : Outcome :=
  runHandler Config.device (encode (.decrypt b)) (decryptHandler Config.device (encode (.decrypt b))) s

end Sys2Proof.Machine
end

