-- ==== Sys2Proof/Machine/Fifo.lean ====
section
/-! DEFINITION. POP (R288), the only command that drains the ResponseBuffer, and NOTREADY (R187), the default. -/

namespace Sys2Proof.Machine

/-- POP (R288): `ChWrite(RbPop())`, exactly one word written. -/
def popHandler : Handler := .fixed [.rbPop, .writeHeld]

/-- NOTREADY (R187): written straight to the channel, the ResponseBuffer untouched. -/
def notreadyHandler : Handler := .fixed [.write wNotReady]

/-- POP. -/
def execPop (s : State) : Outcome := runHandler Config.device (encode .pop) popHandler s

/-- NOTREADY. -/
def execNotready (code : Word16) (s : State) : Outcome :=
  runHandler Config.device (encode (.notready code)) notreadyHandler s

end Sys2Proof.Machine
end

