-- ==== Sys2Proof/Machine/Handshake.lean ====
section
/-! DEFINITION. The handshake commands HS5E, HS5F, HS05, and the handshake part of ENT (R240 to R245). -/

namespace Sys2Proof.Machine

/-- `HANDSHAKE(c)` (R241): discard `HS_LEN(c)` words, then write the words of `HS_ACK(c)`. -/
def handshakePrims (c : Config) (site : HsSite) : List Prim :=
  List.replicate (c.hsLen site) .discard ++ (c.hsAck site).map (.write ·.word)

/-- A handshake command (R241). -/
def handshakeHandler (c : Config) (site : HsSite) : Handler := .fixed (handshakePrims c site)

/-- HS05 (R245): 32 words discarded, nothing written. -/
def hs05Handler : Handler := .fixed (List.replicate hs05Len .discard)

/-- HS05. -/
def execHs05 (v : BitVec 1) (s : State) : Outcome := runHandler Config.device (encode (.hs05 v)) hs05Handler s

/-- HS5E `0x5E00`. -/
def execHs5e0 (s : State) : Outcome :=
  runHandler Config.device (encode .hs5e0) (handshakeHandler Config.device .h5E00) s

/-- HS5E `0x5E01`. -/
def execHs5e1 (s : State) : Outcome :=
  runHandler Config.device (encode .hs5e1) (handshakeHandler Config.device .h5E01) s

/-- HS5E `0x5E02`. -/
def execHs5e2 (s : State) : Outcome :=
  runHandler Config.device (encode .hs5e2) (handshakeHandler Config.device .h5E02) s

/-- HS5F `0x5F01`. -/
def execHs5f1 (s : State) : Outcome :=
  runHandler Config.device (encode .hs5f1) (handshakeHandler Config.device .h5F01) s

/-- HS5F `0x5F02`. -/
def execHs5f2 (s : State) : Outcome :=
  runHandler Config.device (encode .hs5f2) (handshakeHandler Config.device .h5F02) s

end Sys2Proof.Machine
end

