-- ==== Sys2Proof/Machine/Provisioning.lean ====
section
/-! DEFINITION. The provisioning commands CHTAB_LOAD, SETMODE, SETATR, KEYLOAD (R200 to R211). -/

namespace Sys2Proof.Machine

/-- CHTAB_LOAD (R201): acknowledge, eight payload bytes, persist, acknowledge completion. -/
def chtabLoadHandler (c : Config) : Handler :=
  .seq (.write c.ackChTabStart.word :: payloadReads chTabLen (by decide)) fun s =>
    persistPrims .chTab (s.buf.toList.take chTabLen) ++ [.write c.ackChTabDone.word]

/-- SETMODE (R204): the working copy and its stored image; nothing written to the channel. -/
def setmodeHandler (m : CryptMode) : Handler :=
  .fixed (.setMode m :: persistPrims .cryptMode [m.toByte])

/-- SETATR (R206). -/
def setatrHandler (b : Byte) : Handler :=
  .fixed (.setAtr b :: persistPrims .atrIndex [b])

/-- One pair of KEYLOAD's payload bytes and its acknowledge. -/
def keyPair (c : Config) (p : Fin (keyLen / 2)) : List Prim :=
  [.readBuf ⟨2 * p, by have := p.isLt; simp at *; omega⟩, .readBuf ⟨2 * p + 1, by have := p.isLt; simp at *; omega⟩,
    .write c.ackKeyPair.word]

/-- KEYLOAD (R209): acknowledge; the pairs of payload bytes, each acknowledged; then persist. -/
def keyloadHandler (c : Config) (n : BitVec 4) : Handler :=
  .seq (.write c.ackKeyStart.word :: (List.finRange (keyLen / 2)).flatMap (keyPair c)) fun s =>
    persistPrims (.key n.toFin) (s.buf.toList.take keyLen)

/-- CHTAB_LOAD. -/
def execChtabLoad (v : BitVec 1) (s : State) : Outcome :=
  runHandler Config.device (encode (.chtabLoad v)) (chtabLoadHandler Config.device) s

/-- SETMODE `0x0400`. -/
def execSetmode0 (s : State) : Outcome := runHandler Config.device (encode .setmode0) (setmodeHandler .primary) s

/-- SETMODE `0x0401`. -/
def execSetmode1 (s : State) : Outcome := runHandler Config.device (encode .setmode1) (setmodeHandler .alternate) s

/-- SETMODE `0x0402`. -/
def execSetmode2 (s : State) : Outcome :=
  runHandler Config.device (encode .setmode2) (setmodeHandler .alternateVerified) s

/-- SETATR. -/
def execSetatr (b : Byte) (s : State) : Outcome := runHandler Config.device (encode (.setatr b)) (setatrHandler b) s

/-- KEYLOAD. -/
def execKeyload (n : BitVec 4) (s : State) : Outcome :=
  runHandler Config.device (encode (.keyload n)) (keyloadHandler Config.device n) s

end Sys2Proof.Machine
end

