-- ==== Sys2Proof/Machine/Query.lean ====
section
/-! DEFINITION. The query commands ATR, CHTAB_READ, IDENT, ENT (R220 to R227; ENT's handshake part R243). -/

namespace Sys2Proof.Machine

/-- ATR (R221): the payload of the low nibble of `atrIndex`. -/
def atrHandler (c : Config) : Handler := ⟨[fun s => byteBurst (c.atrPayload (atrLo s.atrIndex))]⟩

/-- CHTAB_READ (R223). -/
def chtabReadHandler (c : Config) : Handler := ⟨[fun s => byteBurst (chTabOf c s.nv).toList]⟩

/-- IDENT (R224). -/
def identHandler (c : Config) (i : Fin nIdPayload) : Handler := .fixed (byteBurst (c.idPayload i))

/-- What ENT does once it has the sub-selector (R225): 0 and 1 R226, 2 and 3 R243, the rest R227. -/
def entPrims (c : Config) (sub : Byte) (m : Memory) : List Prim :=
  if sub = subRecord0 then byteBurst (entOf c m 0)
  else if sub = subRecord1 then byteBurst (entOf c m 1)
  else if sub = subHandshake2 then handshakePrims c .h5F00s2
  else if sub = subHandshake3 then handshakePrims c .h5F00s3
  else [.write wNotReady]

/-- ENT (R225): the sub-selector is bits 7:0 of the first payload word. -/
def entHandler (c : Config) : Handler := .seq (payloadReads 1 (by decide)) fun s => entPrims c s.buf[0] s.nv

/-- ATR. -/
def execAtr (s : State) : Outcome := runHandler Config.device (encode .atr) (atrHandler Config.device) s

/-- CHTAB_READ. -/
def execChtabRead (s : State) : Outcome :=
  runHandler Config.device (encode .chtabRead) (chtabReadHandler Config.device) s

/-- IDENT `0x5700`. -/
def execIdent0 (s : State) : Outcome := runHandler Config.device (encode .ident0) (identHandler Config.device 0) s

/-- IDENT `0x5701`. -/
def execIdent1 (s : State) : Outcome := runHandler Config.device (encode .ident1) (identHandler Config.device 1) s

/-- IDENT `0x5702`. -/
def execIdent2 (s : State) : Outcome := runHandler Config.device (encode .ident2) (identHandler Config.device 2) s

/-- ENT. -/
def execEnt (s : State) : Outcome := runHandler Config.device (encode .ent) (entHandler Config.device) s

end Sys2Proof.Machine
end

