-- ==== Sys2Proof/Machine/Dispatch.lean ====
section
/-! DEFINITION. One arm per row of the opcode table (R184). -/

namespace Sys2Proof.Machine

def exec (i : Instr) (s : State) : Host.Outcome State Fault Refusal :=
  match i with
  | .chtabLoad v => Sys2Proof.Machine.execChtabLoad v s
  | .atr => Sys2Proof.Machine.execAtr s
  | .chtabRead => Sys2Proof.Machine.execChtabRead s
  | .setmode0 => Sys2Proof.Machine.execSetmode0 s
  | .setmode1 => Sys2Proof.Machine.execSetmode1 s
  | .setmode2 => Sys2Proof.Machine.execSetmode2 s
  | .hs05 v => Sys2Proof.Machine.execHs05 v s
  | .decrypt b => Sys2Proof.Machine.execDecrypt b s
  | .setatr b => Sys2Proof.Machine.execSetatr b s
  | .keyload n => Sys2Proof.Machine.execKeyload n s
  | .ident0 => Sys2Proof.Machine.execIdent0 s
  | .ident1 => Sys2Proof.Machine.execIdent1 s
  | .ident2 => Sys2Proof.Machine.execIdent2 s
  | .hs5e0 => Sys2Proof.Machine.execHs5e0 s
  | .hs5e1 => Sys2Proof.Machine.execHs5e1 s
  | .hs5e2 => Sys2Proof.Machine.execHs5e2 s
  | .ent => Sys2Proof.Machine.execEnt s
  | .hs5f1 => Sys2Proof.Machine.execHs5f1 s
  | .hs5f2 => Sys2Proof.Machine.execHs5f2 s
  | .pop => Sys2Proof.Machine.execPop s
  | .notready code => Sys2Proof.Machine.execNotready code s

end Sys2Proof.Machine
end

