-- ==== Sys2Proof/Machine/Sampling.lean ====
section
/-! DEFINITION. Boundary detection (R181), the main loop's choice between sampling and running (R188), the handler of
each command under any parameter set, and the words `withFetchWord` supplies. -/

namespace Sys2Proof.Machine

/-- Detection on one word (R181): nothing but the phase changes. -/
def State.detect (s : State) (w : Word9) : State :=
  match s.phase with
  | .cand h =>
    if isFramed w then { s with phase := .cand (dataByte w) }
    else { s with phase := .run (assembleCode h (dataByte w)) 0 }
  | _ =>
    if isFramed w then { s with phase := .cand (dataByte w) } else { s with phase := .idle }

/-- One step of sampling: a `ChRead()` and detection on its word (R181); stuck without a word (R306). -/
def sample (s : State) : Outcome :=
  match s.chRead with
  | none => .fault .hostSilent
  | some (w, s') => .next (s'.detect w)

/-- One step, given how a code is decoded and how a command is executed (R188). A state with a recorded model fault has
no next step (R305, R326). -/
def stepBy (dec : Word16 → Instr) (ex : Instr → State → Outcome) (s : State) : Outcome :=
  match s.fault with
  | some f => .fault (.recorded f)
  | none =>
    match s.phase with
    | .run code _ => ex (dec code) s
    | _ => sample s

/-- The handler of each command under a parameter set (R184). -/
def handlerOf (c : Config) : Instr → Handler
  | .chtabLoad _ => chtabLoadHandler c
  | .atr => atrHandler c
  | .chtabRead => chtabReadHandler c
  | .setmode0 => setmodeHandler .primary
  | .setmode1 => setmodeHandler .alternate
  | .setmode2 => setmodeHandler .alternateVerified
  | .hs05 _ => hs05Handler
  | .decrypt b => decryptHandler c (encode (.decrypt b))
  | .setatr b => setatrHandler b
  | .keyload n => keyloadHandler c n
  | .ident0 => identHandler c 0
  | .ident1 => identHandler c 1
  | .ident2 => identHandler c 2
  | .hs5e0 => handshakeHandler c .h5E00
  | .hs5e1 => handshakeHandler c .h5E01
  | .hs5e2 => handshakeHandler c .h5E02
  | .ent => entHandler c
  | .hs5f1 => handshakeHandler c .h5F01
  | .hs5f2 => handshakeHandler c .h5F02
  | .pop => popHandler
  | .notready _ => notreadyHandler

/-- The meaning of a command under any parameter set; `exec` is its instance for the modelled device. -/
def execWith (c : Config) (i : Instr) (s : State) : Outcome := runHandler c (encode i) (handlerOf c i) s

/-- One step under any parameter set; `step` is its instance for the modelled device. -/
def stepWith (c : Config) (s : State) : Outcome := stepBy (decodeWith c) (execWith c) s

/-- One step of R18's own size under any parameter set: one primitive. -/
def primStepWith (c : Config) (s : State) : Outcome :=
  stepBy (decodeWith c) (fun i s => (handlerOf c i).primStep c (s.enter (encode i))) s

/-- The operand words of zeros `withFetchWord` puts after a code: as many as the longest fixed payload, or more if the
command reads more. -/
def zeroPayload (c : Config) (i : Instr) : List Word9 :=
  List.replicate hs05Len 0 ++ List.replicate (payloadCount c i - hs05Len) 0

end Sys2Proof.Machine
end

