-- ==== Sys2Proof/Machine/Step.lean ====
section
/-! DEFINITION. One step of the machine (R188), and where it takes its next instruction from. -/

namespace Sys2Proof.Machine

/-- One step: sampling reads one word (R181); a dispatched command runs to its end, or as far as the host's words allow
(assumption log 1). -/
def step (s : State) : Host.Outcome State Fault Refusal := stepBy decode exec s

/-- `s` with the command whose 16-bit code is `w` dispatched, and zeros for its payload words: the state right after
detection has assembled the code (R183, assumption log 9). -/
def State.withFetchWord (s : State) (nbits w : Nat) : State :=
  let code : Word16 := BitVec.ofNat 16 (w % 2 ^ nbits)
  { s with phase := .run code 0, rx := zeroPayload Config.device (decode code) ++ s.rx }

end Sys2Proof.Machine
end

