-- ==== Sys2Proof/Machine/Reset.lean ====
section
/-! DEFINITION. The reset step (R320 to R326): an input of the block from outside, no command causes it. -/

namespace Sys2Proof.Machine

/-- The two kinds of reset (R320). -/
inductive ResetKind where
  | firstInit
  | restart
  deriving DecidableEq, Repr

/-- The byte updates a reset of this kind performs (R321, R325). -/
def resetWrites (c : Config) : ResetKind → List (Nat × Byte)
  | .firstInit => seedWrites c
  | .restart => []

/-- `Reset(kind)` (R325) on a store that answers every access. The host's unread words stay (assumption log 8). -/
def State.resetTo (c : Config) (kind : ResetKind) (s : State) : State :=
  State.afterReset c (Memory.updateAll s.nv (resetWrites c kind)) s.rx

/-- A reset whose store access number `n` fails (R326): `ResetFailed` is recorded, and the block does not enter its main
loop. The rest is the model's choice (DESIGN CHOICE, log 22): the updates before the failing access stand, every other
element is as it was, and a fault recorded before the reset is emptied first (R324, R38, which empty it in a reset that
completes) so that `ResetFailed` takes its place, where R35 and R305 alone would keep the earlier one. -/
def State.resetFailing (c : Config) (kind : ResetKind) (n : Nat) (s : State) : State :=
  State.raise { s with nv := Memory.updateAll s.nv ((resetWrites c kind).take n), fault := none } .resetFailed

/-- The reset step with its two inputs: the kind, and the store access that fails, if one does. -/
def State.resetStep (c : Config) (kind : ResetKind) (failAt : Option Nat) (s : State) : State :=
  match failAt with
  | none => s.resetTo c kind
  | some n => s.resetFailing c kind n

end Sys2Proof.Machine
end

