-- ==== Sys2Proof/WellFormed.lean ====
section
/-! DEFINITION. Which instructions are well formed: DECRYPT and SETATR only with a low byte that is in their code set
(R206, R260), NOTREADY only with a code that no other row of R100 selects (R103). -/

namespace Sys2Proof

/-- Some row of R100 other than NOTREADY selects the code. -/
def listedCode (c : Config) (code : Word16) : Bool :=
  maskedRows.any (·.selects code) || c.decryptCode code || c.atrCode code

/-- Well-formedness under a parameter set. -/
def Instr.wellFormedIn (c : Config) : Instr → Bool
  | .chtabLoad _ => true
  | .atr => true
  | .chtabRead => true
  | .setmode0 => true
  | .setmode1 => true
  | .setmode2 => true
  | .hs05 _ => true
  | .decrypt b => c.decryptCode (encode (.decrypt b))
  | .setatr b => c.atrCode (encode (.setatr b))
  | .keyload _ => true
  | .ident0 => true
  | .ident1 => true
  | .ident2 => true
  | .hs5e0 => true
  | .hs5e1 => true
  | .hs5e2 => true
  | .ent => true
  | .hs5f1 => true
  | .hs5f2 => true
  | .pop => true
  | .notready code => !listedCode c code

/-- Well-formedness on the modelled device. -/
def Instr.wellFormed (i : Instr) : Bool := i.wellFormedIn Config.device

end Sys2Proof
end

