-- ==== Sys2Proof/Safety.lean ====
section
/-! DEFINITION. The vocabulary of claims: where a command starts, runs of steps and of primitive steps, what a burst
leaves in the ResponseBuffer, the writes of a provisioning command, the rows of the opcode table, and the invariant. -/

namespace Sys2Proof.Machine

/-! ## Starts and runs -/

/-- The command `i` has been detected and its handler has performed nothing (R181, R183). -/
abbrev State.atStart (s : State) (i : Instr) : Prop := s.phase = .run (encode i) 0

/-- `Idle` or `Cand`: the source's `Idle` (R22). -/
def State.sampling (s : State) : Bool :=
  match s.phase with
  | .idle => true
  | .cand _ => true
  | .run _ _ => false

/-- The next state, if the step has one. -/
def nextState (o : Outcome) : Option State :=
  match o with
  | .next s => some s
  | _ => none

/-- The state after `n` steps under a parameter set. -/
def stepsWith (c : Config) : Nat → State → Option State
  | 0, s => some s
  | n + 1, s => (nextState (stepWith c s)).bind (stepsWith c n)

/-- The state after `n` steps of R18's own size under a parameter set. -/
def primStepsWith (c : Config) : Nat → State → Option State
  | 0, s => some s
  | n + 1, s => (nextState (primStepWith c s)).bind (primStepsWith c n)

/-- Where a run of primitive steps can go no further on its own inside the command: back in `Idle`, at a recorded fault,
or at a `ChRead()` with no word. -/
def Settled (c : Config) (s : State) : Prop :=
  s.phase = .idle ∨ s.fault ≠ none ∨ primStepWith c s = .fault .hostSilent

/-! ## Bursts (R283, R286) -/

/-- The words of a burst with the framing bit set on the first and the last. -/
def frameEnds (ws : List SlotWord) : List SlotWord :=
  ws.mapIdx fun i w => if i = 0 ∨ i + 1 = ws.length then w ||| frameMask else w

/-- `s` with the burst `ws` in the ResponseBuffer, oldest word in slot 0, the slots past it as they were. -/
def State.withBurst (s : State) (ws : List SlotWord) : State :=
  { s with
    rd := 0
    len := ws.length
    slot := Vector.ofFn fun i : Fin rbCap => (frameEnds ws)[i.val]?.getD s.slot[i] }

/-- The words of the bytes `bs` as `RbPush` takes them (R282). -/
def byteWords (bs : List Byte) : List SlotWord := bs.map (·.setWidth rbSlotBits)

/-! ## Channel traffic (R70, R71) -/

/-- `s` with the words `ws` read from the channel and logged, `rest` still to come. -/
def State.withRead (s : State) (ws rest : List Word9) : State :=
  { s with rx := rest, ioLog := s.ioLog ++ ws.map .rx }

/-- `s` with the words `ws` written to the channel. -/
def State.withSent (s : State) (ws : List Word9) : State := { s with ioLog := s.ioLog ++ ws.map .tx }

/-- The words read among channel events. -/
def readWords (es : List ChEvent) : List Word9 :=
  es.filterMap fun
    | .rx w => some w
    | .tx _ => none

/-! ## Persisting (R66, R68) -/

/-- The positions at which `v` differs from the stored bytes of the item. -/
def differing (c : Config) (m : Memory) (item : NvItem) (v : List Byte) : Nat :=
  (v.zipIdx.filter fun (b, i) => itemByte c m item i != b).length

/-- `s` with `v` persisted as the bytes of the item: the cells updated, one physical write for each byte that differed
(R66). -/
def State.withItem (s : State) (c : Config) (item : NvItem) (v : List Byte) : State :=
  { s with
    nv := Memory.updateAll s.nv (persistWrites c item v)
    nvWrites := s.nvWrites + differing c s.nv item v }

/-- The cell belongs to the item. -/
def ownsAddress (c : Config) (item : NvItem) (a : Nat) : Prop := ∃ i < c.size item, c.nvCell item i = a

/-- Read after the item is persisted, a cell of the item gives the new byte, every other cell what it gave. -/
def StoresItem (c : Config) (m m' : Memory) (item : NvItem) (v : List Byte) : Prop :=
  (∀ i (h : i < v.length), itemByte c m' item i = v[i]) ∧
    ∀ a, ¬ ownsAddress c item a → Memory.read m' a = Memory.read m a

/-! ## What a command touches (R37, R96) -/

/-- The item a provisioning command persists (R200); none for every other command. -/
def writtenItem : Instr → Option NvItem
  | .chtabLoad _ => some .chTab
  | .setmode0 => some .cryptMode
  | .setmode1 => some .cryptMode
  | .setmode2 => some .cryptMode
  | .setatr _ => some .atrIndex
  | .keyload n => some (.key n.toFin)
  | .atr => none
  | .chtabRead => none
  | .hs05 _ => none
  | .decrypt _ => none
  | .ident0 => none
  | .ident1 => none
  | .ident2 => none
  | .hs5e0 => none
  | .hs5e1 => none
  | .hs5e2 => none
  | .ent => none
  | .hs5f1 => none
  | .hs5f2 => none
  | .pop => none
  | .notready _ => none

/-- The commands that may touch the ResponseBuffer: the producing ones (R332) and POP. -/
def usesBuffer : Instr → Bool
  | .atr => true
  | .chtabRead => true
  | .ident0 => true
  | .ident1 => true
  | .ident2 => true
  | .ent => true
  | .decrypt _ => true
  | .pop => true
  | .chtabLoad _ => false
  | .setmode0 => false
  | .setmode1 => false
  | .setmode2 => false
  | .hs05 _ => false
  | .setatr _ => false
  | .keyload _ => false
  | .hs5e0 => false
  | .hs5e1 => false
  | .hs5e2 => false
  | .hs5f1 => false
  | .hs5f2 => false
  | .notready _ => false

/-- The command is DECRYPT. -/
def isDecrypt : Instr → Bool
  | .decrypt _ => true
  | _ => false

/-- The payload words a command reads from the state `s` (R96): fixed by the code, except for ENT, where the first one
decides. -/
def wordsRead (c : Config) (i : Instr) (s : State) : Nat :=
  match i with
  | .ent =>
    match s.rx with
    | [] => 1
    | w :: _ =>
      if dataByte w = subHandshake2 then 1 + c.hsLen .h5F00s2
      else if dataByte w = subHandshake3 then 1 + c.hsLen .h5F00s3
      else 1
  | i => payloadCount c i

/-! ## Sequences of ResponseBuffer operations (R287) -/

/-- `RbPush` of each word in order. -/
def pushAll (c : Config) : List SlotWord → State → PrimResult
  | [], s => .done s
  | w :: ws, s =>
    match Prim.perform c (.rbPush w) s with
    | .done s' => pushAll c ws s'
    | .blocked => .blocked
    | .raised f => .raised f

/-- The words of `n` calls of `RbPop`. -/
def popAll : Nat → State → List Word9
  | 0, _ => []
  | n + 1, s => s.rbPop.1 :: popAll n s.rbPop.2

/-- The channel words of `n` POP commands. -/
def popScript (n : Nat) : List Word9 := (List.replicate n (encodeWords .pop)).flatten

/-! ## The rows of the command map (R100) -/

/-- The rows of R100 other than NOTREADY, one for each mnemonic and match, as predicates on the code. -/
def listedRows (c : Config) : List (Word16 → Bool) :=
  maskedRows.map CodeRow.selects ++ [c.decryptCode, c.atrCode]

/-! ## The invariant -/

/-- No handler stands between two of its primitive steps but before a `ChRead()`: `step` runs a handler on as far as the
host's words allow. -/
def parked (c : Config) (s : State) : Prop :=
  match s.phase with
  | .run code k => k = 0 ∨ (handlerOf c (decodeWith c code)).atRead s = true
  | _ => True

/-- The invariant under a parameter set: no model fault (R284), the store in canonical form, the length in range (R280),
every queued word a 9-bit word (R33), working copies equal to their images (R32), the low nibble of `atrIndex` 0, 1 or 2
(R25), the window that of the records (R26). -/
structure InvWith (c : Config) (s : State) : Prop where
  noFault : s.fault = none
  nvWf : Memory.wf s.nv
  lenLe : s.len ≤ rbCap
  queued : ∀ w ∈ s.queue, w.toNat < 2 ^ wordBits
  mode : s.cryptMode.toByte = nvCryptModeOf c s.nv
  atr : s.atrIndex = nvAtrIndexOf c s.nv
  atrLow : (atrLo s.atrIndex).toNat < nAtrPayload
  minDate : s.minDate = c.minDateOf (entOf c s.nv 0) (entOf c s.nv 1)
  maxDate : s.maxDate = c.maxDateOf (entOf c s.nv 0) (entOf c s.nv 1)
  parked : parked c s

/-- The invariant of the modelled device. -/
def Inv (s : State) : Prop := InvWith Config.device s

/-- The final state of a claim (R18, R305): sampling, no fault, and every word the host sent has been read. -/
def Quiescent (s : State) : Prop := s.sampling = true ∧ s.fault = none ∧ s.rx = []

end Sys2Proof.Machine
end

