-- ==== Sys2Proof/Certificates/Slice0/Obligations.lean ====
section
/-! DEFINITION. The statements about the model: encoding, detection and steps, each command's effect and frame, the
ResponseBuffer, the store, the ciphers, reset, and the invariant. -/

section

open Sys2Proof Sys2Proof.Machine

/-! ## Encoding -/

/-- Decoding the code of a well-formed instruction gives it back, under every parameter set (R93, R94, R100). -/
def Obligations.DecodeOfEncode : Prop :=
  ∀ (c : Config) (i : Instr), i.wellFormedIn c = true → decodeWith c (encode i) = i

/-- Every code is the code of the well-formed instruction it decodes to: the decoder is total and drops no bit (R103,
R104, R184). -/
def Obligations.DecodeIsExact : Prop :=
  ∀ (c : Config) (code : Word16),
    (decodeWith c code).wellFormedIn c = true ∧ encode (decodeWith c code) = code

/-- The rows of R100 are pairwise disjoint, whatever the parameters, and NOTREADY takes exactly the codes of no row
(R101, which the spec derives from R99; R103). -/
def Obligations.RowsDisjoint : Prop :=
  ∀ (c : Config) (code : Word16),
    (listedRows c).Pairwise (fun p q => ¬ (p code = true ∧ q code = true)) ∧
      (decodeWith c code = .notready code ↔ ∀ p ∈ listedRows c, p code = false)

/-- A word sequence begins with a command exactly if its first word is framed and its second is not; the first gives
the high byte of the code, the second the low byte (R73, R92). -/
def Obligations.FramedPairDelimits : Prop :=
  ∀ (c : Config) (ws rest : List Word9) (i : Instr),
    decodeWordsWith c ws = .ok (i, rest) ↔
      ∃ w1 w2, ws = w1 :: w2 :: rest ∧ w1.getLsbD 8 = true ∧ w2.getLsbD 8 = false ∧
        i = decodeWith c (w1.extractLsb' 0 8 ++ w2.extractLsb' 0 8)

/-- Words written out from the map of R99 and what they are. -/
def Obligations.WordsDecode : Prop :=
  decodeWords [0x101, 0x001] = .ok (.chtabLoad 1, []) ∧ decodeWords [0x102, 0x000] = .ok (.atr, []) ∧
    decodeWords [0x104, 0x002] = .ok (.setmode2, []) ∧ decodeWords [0x105, 0x000] = .ok (.hs05 0, []) ∧
    decodeWords [0x106, 0x022, 0x055] = .ok (.decrypt 0x22, [0x055]) ∧
    decodeWords [0x114, 0x012] = .ok (.setatr 0x12, []) ∧ decodeWords [0x124, 0x003] = .ok (.keyload 3, []) ∧
    decodeWords [0x157, 0x001] = .ok (.ident1, []) ∧ decodeWords [0x15E, 0x000] = .ok (.hs5e0, []) ∧
    decodeWords [0x15F, 0x000] = .ok (.ent, []) ∧ decodeWords [0x15F, 0x002] = .ok (.hs5f2, []) ∧
    decodeWords [0x1FF, 0x0FF] = .ok (.pop, []) ∧ decodeWords [0x103, 0x000] = .ok (.notready 0x0300, []) ∧
    decodeWords [0x101, 0x101] = .error .secondFramed ∧ decodeWords [0x001, 0x000] = .error .firstNotFramed

/-! ## Detection and steps -/

/-- One step of detection (R181): one word is read, the phase changes as the rule says, and nothing else does. -/
def Obligations.DetectionStep : Prop :=
  ∀ (s : State) (w : Word9) (rest : List Word9), s.fault = none → s.rx = w :: rest →
    (s.phase = .idle →
      step s = .next { s.withRead [w] rest with
        phase := if w.getLsbD 8 = true then .cand (w.extractLsb' 0 8) else .idle }) ∧
    ∀ h, s.phase = .cand h →
      step s = .next { s.withRead [w] rest with
        phase := if w.getLsbD 8 = true then .cand (w.extractLsb' 0 8) else .run (h ++ w.extractLsb' 0 8) 0 }

/-- Detection over noise (R182 (a), (b)): leading unframed words and all but the last of the framed words are dropped,
and the last framed word with the unframed word after it forms the code. -/
def Obligations.BoundaryAfterNoise : Prop :=
  ∀ (s : State) (us hs : List Word9) (h lo : Word9) (rest : List Word9), s.fault = none → s.phase = .idle →
    s.rx = us ++ (hs ++ h :: lo :: rest) → (∀ u ∈ us, isFramed u = false) → (∀ x ∈ hs, isFramed x = true) →
    isFramed h = true → isFramed lo = false →
    stepsWith Config.device (us.length + (hs.length + 2)) s =
      some { s.withRead (us ++ hs ++ [h, lo]) rest with phase := .run (assembleCode (dataByte h) (dataByte lo)) 0 }

/-- A step in a dispatched state is `exec` of the decoded instruction at that state, and `step` adds nothing around it
(R184, R188). That one step is the whole of `exec`, a handler run on, is the model's choice of step size (DESIGN CHOICE,
log 1). That `withFetchWord` stands for the detection of the code is the model's reading (DEDUCED, log 9). -/
def Obligations.StepRunsDecoded : Prop :=
  (∀ (s : State) (code : Word16) (k : Nat), s.fault = none → s.phase = .run code k →
    step s = exec (decode code) s) ∧
  ∀ (s : State) (w : Nat), s.fault = none →
    step (s.withFetchWord 16 w) = exec (decode (BitVec.ofNat 16 w)) (s.withFetchWord 16 w)

/-- The two words of a well-formed command, sent to an idle block, start that command and no other after two steps, and
the third step is its `exec` (R92, R183). That the third step is the whole `exec`, where R18 has one primitive, is the
model's choice of step size (DESIGN CHOICE, log 1). -/
def Obligations.CommandWordsRun : Prop :=
  ∀ (i : Instr) (s : State) (rest : List Word9), i.wellFormed = true → s.fault = none → s.sampling = true →
    s.rx = encodeWords i ++ rest →
    ∃ t, stepsWith Config.device 2 s = some t ∧
      t = { s.withRead (encodeWords i) rest with phase := .run (encode i) 0 } ∧ step t = exec i t

/-- When a step has no next state: a model fault is recorded (R305), or the next primitive is a `ChRead()` with no word
(R18, R306). No step is refused. That a state with a recorded fault has no next step is the model's reading (DEDUCED,
log 16), and so is that a silent host is the answer `hostSilent` (DEDUCED, log 2). -/
def Obligations.StepStops : Prop :=
  ∀ s : State,
    (∀ f, step s = .fault (.recorded f) ↔ s.fault = some f) ∧
    (step s = .fault .hostSilent ↔
      s.fault = none ∧ s.rx = [] ∧
        (s.sampling = true ∨
          ∃ code k, s.phase = .run code k ∧ (handlerOf Config.device (decode code)).atRead s = true)) ∧
    ∀ r, step s ≠ .refused r

/-- One step of the model on a dispatched command is one or more steps of R18's size, taken as far as they go; and it is
stuck exactly if the first of them is (R18, R185). The step size is the model's choice (log 1). -/
def Obligations.StepIsPrimitiveSteps : Prop :=
  ∀ (c : Config) (s : State) (code : Word16) (k : Nat), s.fault = none → s.phase = .run code k →
    (∀ t, stepWith c s = .next t → ∃ n, 1 ≤ n ∧ primStepsWith c n s = some t ∧ Settled c t) ∧
      (stepWith c s = .fault .hostSilent ↔ primStepWith c s = .fault .hostSilent)

/-- A step of R18's size does one thing (R13, R18): of the channel log, the store, the ResponseBuffer, the control
registers, `chk` and the scratch elements it changes at most one, and of `msg` at most one byte; it reads or writes at most
one word and takes at most one physical write. Where R13 does not say what is one primitive, the model does (DESIGN CHOICE,
log 25). -/
def Obligations.PrimitiveStepDoesOneThing : Prop :=
  ∀ (c : Config) (s t : State), primStepWith c s = .next t →
    [t.ioLog != s.ioLog, t.nv != s.nv, (t.slot, t.rd, t.len) != (s.slot, s.rd, s.len), t.cryptMode != s.cryptMode,
      t.atrIndex != s.atrIndex, t.chk != s.chk, t.msg != s.msg, t.wk != s.wk, t.cw != s.cw, t.aux != s.aux,
      t.date != s.date].count true ≤ 1 ∧
    (∀ i j : Fin 16, t.msg[i] ≠ s.msg[i] → t.msg[j] ≠ s.msg[j] → i = j) ∧
    (t.ioLog = s.ioLog ∨ ∃ e, t.ioLog = s.ioLog ++ [e]) ∧ t.nvWrites ≤ s.nvWrites + 1

/-- The host's pace does not matter (R19, R70): words that come later than a handler needs them are used as if they had
been there. The step that runs on is the model's (log 1). -/
def Obligations.HostPaceIrrelevant : Prop :=
  ∀ (c : Config) (s t : State) (code : Word16) (k : Nat) (ws : List Word9), s.fault = none → s.phase = .run code k →
    ws ≠ [] → stepWith c s = .next t →
    stepWith c (s.hostSend ws) =
      if t.phase = .idle ∨ t.fault ≠ none then .next (t.hostSend ws) else stepWith c (t.hostSend ws)

/-- Every command, started with its payload words supplied, completes: the handler runs to its end, reads exactly those
words, records no fault and leaves the block in `Idle` (R185, R186); in one step, which is the model's size (log 1). -/
def Obligations.EveryCommandCompletes : Prop :=
  ∀ (i : Instr) (s : State), s.atStart i → wordsRead Config.device i s ≤ s.rx.length →
    ∃ t, exec i s = .next t ∧ t.phase = .idle ∧ t.fault = s.fault ∧
      t.rx = s.rx.drop (wordsRead Config.device i s)

/-- Words are read in the order sent, each once, and both logs only grow (R70, R71). -/
def Obligations.WordsReadInOrder : Prop :=
  ∀ s t : State, step s = .next t → ∃ es, t.ioLog = s.ioLog ++ es ∧ s.rx = readWords es ++ t.rx

/-! ## Provisioning -/

/-- CHTAB_LOAD (R201): acknowledge, eight payload bytes, persist, acknowledge; nothing else changes. `buf` is the model's
own field for the payload bytes (log 18). -/
def Obligations.ChtabLoadPersists : Prop :=
  ∀ (v : BitVec 1) (s : State) (w : Fin 8 → Word9) (rest : List Word9), s.atStart (.chtabLoad v) →
    Memory.wf s.nv → s.rx = List.ofFn w ++ rest →
    let b : Bytes 8 := vecOf fun i => (w i).extractLsb' 0 8
    exec (.chtabLoad v) s =
      .next { s with
        phase := .idle
        rx := rest
        buf := b
        nv := Memory.updateAll s.nv (persistWrites Config.device .chTab b.toList)
        nvWrites := s.nvWrites + differing Config.device s.nv .chTab b.toList
        ioLog := s.ioLog ++ [.tx Config.device.ackChTabStart.word] ++ (List.ofFn w).map .rx ++
          [.tx Config.device.ackChTabDone.word] }

/-- SETMODE (R204): the working copy and its stored image take the low byte of the code; nothing else changes. -/
def Obligations.SetmodeSelects : Prop :=
  ∀ (i : Instr) (m : CryptMode) (s : State),
    (i, m) ∈ [(Instr.setmode0, CryptMode.primary), (.setmode1, .alternate), (.setmode2, .alternateVerified)] →
    s.atStart i →
    m.toByte = codeLow (encode i) ∧
      exec i s =
        .next { s with
          phase := .idle
          cryptMode := m
          nv := Memory.updateAll s.nv (persistWrites Config.device .cryptMode [m.toByte])
          nvWrites := s.nvWrites + differing Config.device s.nv .cryptMode [m.toByte] }

/-- SETATR (R206): the working copy and its stored image take the low byte of the code; the window is not recomputed and
nothing else changes. -/
def Obligations.SetatrSelects : Prop :=
  ∀ (b : Byte) (s : State), s.atStart (.setatr b) →
    exec (.setatr b) s =
      .next { s with
        phase := .idle
        atrIndex := codeLow (encode (.setatr b))
        nv := Memory.updateAll s.nv (persistWrites Config.device .atrIndex [b])
        nvWrites := s.nvWrites + differing Config.device s.nv .atrIndex [b] }

/-- KEYLOAD (R209): acknowledge, four pairs of payload bytes each acknowledged, then persist; nothing else changes. `buf` is
the model's own field for the payload bytes (log 18). -/
def Obligations.KeyloadPersists : Prop :=
  ∀ (n : BitVec 4) (s : State) (w : Fin 8 → Word9) (rest : List Word9), s.atStart (.keyload n) → Memory.wf s.nv →
    s.rx = List.ofFn w ++ rest →
    let b : Bytes 8 := vecOf fun i => (w i).extractLsb' 0 8
    let pair := ChEvent.tx Config.device.ackKeyPair.word
    exec (.keyload n) s =
      .next { s with
        phase := .idle
        rx := rest
        buf := b
        nv := Memory.updateAll s.nv (persistWrites Config.device (.key n.toFin) b.toList)
        nvWrites := s.nvWrites + differing Config.device s.nv (.key n.toFin) b.toList
        ioLog := s.ioLog ++
          [.tx Config.device.ackKeyStart.word, .rx (w 0), .rx (w 1), pair, .rx (w 2), .rx (w 3), pair, .rx (w 4),
            .rx (w 5), pair, .rx (w 6), .rx (w 7), pair] }

/-- `Persist` (R68): afterwards the item reads as the new bytes and every other address reads as before, and the store
keeps its canonical form. -/
def Obligations.PersistStoresItem : Prop :=
  ∀ (c : Config) (m : Memory) (item : NvItem) (v : List Byte), Memory.wf m → v.length = c.size item →
    StoresItem c m (Memory.updateAll m (persistWrites c item v)) item v ∧
      Memory.wf (Memory.updateAll m (persistWrites c item v))

/-- Frame of the provisioning commands (R37, R200): outside the bytes of its own item the store reads as before, at
whatever step the command is taken up; the ResponseBuffer, `chk`, the scratch elements and the window are unchanged, and
so is the working copy the command does not select. -/
def Obligations.ProvisioningFrame : Prop :=
  ∀ (i : Instr) (item : NvItem) (s t : State), writtenItem i = some item → Memory.wf s.nv → exec i s = .next t →
    (∀ a, ¬ ownsAddress Config.device item a → Memory.read t.nv a = Memory.read s.nv a) ∧
    t.slot = s.slot ∧ t.rd = s.rd ∧ t.len = s.len ∧ t.chk = s.chk ∧ t.msg = s.msg ∧ t.wk = s.wk ∧ t.cw = s.cw ∧
    t.aux = s.aux ∧ t.date = s.date ∧ t.minDate = s.minDate ∧ t.maxDate = s.maxDate ∧ t.altRounds = s.altRounds ∧
    (item ≠ .cryptMode → t.cryptMode = s.cryptMode) ∧ (item ≠ .atrIndex → t.atrIndex = s.atrIndex)

/-- The access matrix R37, its blanks, at whatever step a command is taken up. No command but a provisioning one changes
persistent state or the control registers. None but a producing one and POP changes the ResponseBuffer, and ENT does not
on a sub-selector above 1 (held in `buf[0]`, the model's own field, log 18). None but DECRYPT changes `chk` and the
scratch elements. A DECRYPT in mode 0 leaves `chk` (R120), and each byte of `msg` is as it was or the data byte of a word
read (R120, R271): one the step read, or the one held when it began (the model's own field, log 18). In modes 1 and 2 it
leaves `wk`, `aux`, `date` (R160). No command writes the window. -/
def Obligations.AccessMatrix : Prop :=
  ∀ (i : Instr) (s t : State), exec i s = .next t →
    (writtenItem i = none →
      (∀ a, Memory.read t.nv a = Memory.read s.nv a) ∧ t.nvWrites = s.nvWrites ∧ t.cryptMode = s.cryptMode ∧
        t.atrIndex = s.atrIndex) ∧
    (usesBuffer i = false → t.slot = s.slot ∧ t.rd = s.rd ∧ t.len = s.len) ∧
    (i = .ent → 2 ≤ t.buf[0].toNat → t.slot = s.slot ∧ t.rd = s.rd ∧ t.len = s.len) ∧
    (isDecrypt i = false →
      t.chk = s.chk ∧ t.msg = s.msg ∧ t.wk = s.wk ∧ t.cw = s.cw ∧ t.aux = s.aux ∧ t.date = s.date ∧
        t.altRounds = s.altRounds) ∧
    (isDecrypt i = true → s.cryptMode = .primary → t.chk = s.chk ∧ t.altRounds = s.altRounds ∧
      ∃ ws, s.rx = ws ++ t.rx ∧
        ∀ j : Fin 16, t.msg[j] = s.msg[j] ∨ ∃ w ∈ s.held :: ws, t.msg[j] = w.extractLsb' 0 8) ∧
    (isDecrypt i = true → s.cryptMode ≠ .primary → t.wk = s.wk ∧ t.aux = s.aux ∧ t.date = s.date) ∧
    t.minDate = s.minDate ∧ t.maxDate = s.maxDate

/-- No step changes `SPKEY`, `ALTKEY`, `ENT` or the validity window (R26, R28, R29, R31). -/
def Obligations.NeverWritten : Prop :=
  ∀ s t : State, Memory.wf s.nv → step s = .next t →
    spKeyOf Config.device t.nv = spKeyOf Config.device s.nv ∧
    (∀ p, altKeyOf Config.device t.nv p = altKeyOf Config.device s.nv p) ∧
    (∀ r, entOf Config.device t.nv r = entOf Config.device s.nv r) ∧
    t.minDate = s.minDate ∧ t.maxDate = s.maxDate

/-- Read-after-write (R210): after KEYLOAD of key `n` with payload `P`, a DECRYPT in mode 0 that selects `n` and is not
for the special audience decrypts its message with exactly `P`. R120 gives the call's control word, auxiliary byte and date;
that what it leaves in `wk` is part of the parameter set's function is the model's choice (DESIGN CHOICE, log 12). -/
def Obligations.KeyReadAfterWrite : Prop :=
  ∀ (c : Config) (s : State) (n : BitVec 4) (b : Byte) (p : Fin 8 → Byte) (m : Fin 16 → Byte) (rest : List Word9),
    s.fault = none → s.phase = .idle → Memory.wf s.nv → s.cryptMode = .primary →
    c.decryptCode (encode (.decrypt b)) = true → c.keySel (keyIndexOf c (encode (.decrypt b))) s.atrIndex = n.toFin →
    c.audienceOf (encode (.decrypt b)) (vecOf m)
      (nvViewOf c (Memory.updateAll s.nv (persistWrites c (.key n.toFin) (vecOf p).toList))) ≠ c.audSpecial →
    s.rx = encodeWords (.keyload n) ++ payloadWords (List.ofFn p) ++
      (encodeWords (.decrypt b) ++ payloadWords (List.ofFn m) ++ rest) →
    ∃ k t, stepsWith c k s = some t ∧ t.phase = .idle ∧ t.rx = rest ∧
      (⟨t.cw, t.aux, t.date, t.wk⟩ : PrimaryOut) = decryptPrimary c (vecOf p) (vecOf m)

/-! ## Queries -/

/-- ATR: the payload of the low nibble of `atrIndex` as a burst; nothing else changes. R221 gives the payloads of the low
nibbles 0, 1 and 2; for 3 to 15, which R25 makes unreachable, the payload is the model's own free choice (DESIGN CHOICE,
log 11). -/
def Obligations.AtrBurst : Prop :=
  ∀ s : State, s.atStart .atr →
    exec .atr s =
      .next { s.withBurst (byteWords (Config.device.atrPayload (s.atrIndex.extractLsb' 0 4))) with phase := .idle }

/-- CHTAB_READ (R223): the eight bytes of the channel table as a burst; nothing else changes. -/
def Obligations.ChtabReadBurst : Prop :=
  ∀ s : State, s.atStart .chtabRead →
    exec .chtabRead s =
      .next { s.withBurst (byteWords
          ((List.range 8).map fun i => s.nvReadByte Config.device (Config.device.nvLayout .chTab i))) with
        phase := .idle }

/-- IDENT (R224): the fixed payload of the code as a burst; nothing else changes. -/
def Obligations.IdentBurst : Prop :=
  ∀ (i : Instr) (n : Fin 3) (s : State), (i, n) ∈ [(Instr.ident0, (0 : Fin 3)), (.ident1, 1), (.ident2, 2)] →
    s.atStart i →
    n.val = ((encode i).extractLsb' 0 2).toNat ∧
      exec i s = .next { s.withBurst (byteWords (Config.device.idPayload n)) with phase := .idle }

/-- ENT with sub-selector 0 or 1 (R225, R226): the record as a burst. `buf` is the model's own field for `sub`
(log 18). -/
def Obligations.EntRecordBurst : Prop :=
  ∀ (s : State) (r : Fin 2) (w : Word9) (rest : List Word9), s.atStart .ent → s.rx = w :: rest →
    (w.extractLsb' 0 8).toNat = r.val →
    exec .ent s =
      .next { (s.withRead [w] rest).withBurst (byteWords
          ((List.range Config.device.entLen).map fun i =>
            s.nvReadByte Config.device (Config.device.nvLayout (.ent r) i))) with
        phase := .idle
        buf := s.buf.set 0 (w.extractLsb' 0 8) }

/-- ENT with sub-selector 2 or 3 (R225, R243): the handshake of that site; the ResponseBuffer is not reset. `buf`
is the model's own field for `sub` (log 18). -/
def Obligations.EntHandshake : Prop :=
  ∀ (s : State) (sub : Byte) (site : HsSite) (w : Word9) (ws rest : List Word9), s.atStart .ent →
    (sub, site) ∈ [((2 : Byte), HsSite.h5F00s2), (3, .h5F00s3)] → w.extractLsb' 0 8 = sub →
    ws.length = Config.device.hsLen site → s.rx = w :: ws ++ rest →
    exec .ent s =
      .next { (s.withRead (w :: ws) rest).withSent ((Config.device.hsAck site).map AckWord.word) with
        phase := .idle
        buf := s.buf.set 0 sub }

/-- ENT with sub-selector 4 to 255 (R227): the not-ready word; the ResponseBuffer untouched. `buf` is the model's own
field for `sub` (log 18). -/
def Obligations.EntOtherNotReady : Prop :=
  ∀ (s : State) (w : Word9) (rest : List Word9), s.atStart .ent → s.rx = w :: rest → 4 ≤ (w.extractLsb' 0 8).toNat →
    exec .ent s =
      .next { (s.withRead [w] rest).withSent [0x101] with phase := .idle, buf := s.buf.set 0 (w.extractLsb' 0 8) }

/-! ## Handshakes -/

/-- HS5E and HS5F (R241): the site's words are discarded, its acknowledge words sent, nothing else changes. -/
def Obligations.HandshakeAnswers : Prop :=
  ∀ (i : Instr) (site : HsSite) (s : State) (ws rest : List Word9),
    (i, site) ∈ [(Instr.hs5e0, HsSite.h5E00), (.hs5e1, .h5E01), (.hs5e2, .h5E02), (.hs5f1, .h5F01),
      (.hs5f2, .h5F02)] →
    s.atStart i → ws.length = Config.device.hsLen site → s.rx = ws ++ rest →
    exec i s =
      .next { (s.withRead ws rest).withSent ((Config.device.hsAck site).map AckWord.word) with phase := .idle }

/-- HS05 (R245): thirty-two words are discarded and nothing is written, whatever bit 0 of the code (R102). -/
def Obligations.Hs05Discards : Prop :=
  ∀ (v : BitVec 1) (s : State) (ws rest : List Word9), s.atStart (.hs05 v) → ws.length = 32 → s.rx = ws ++ rest →
    exec (.hs05 v) s = .next { s.withRead ws rest with phase := .idle }

/-! ## DECRYPT -/

/-- DECRYPT in mode 0 (R260 to R264, R266, R268, R269, R271): the key by audience, one call of `DecryptPrimary`, the
validation, and the burst or the single failure word; nothing else changes. `held`, the last word read, is the model's own
field (log 18), and what is left in `wk` is the parameter set's (log 12). -/
def Obligations.DecryptModePrimary : Prop :=
  ∀ (b : Byte) (s : State) (w : Fin 16 → Word9) (rest : List Word9), s.atStart (.decrypt b) →
    s.cryptMode = .primary → s.rx = List.ofFn w ++ rest →
    let c := Config.device
    let code := encode (.decrypt b)
    let m : Bytes 16 := vecOf fun i => (w i).extractLsb' 0 8
    let aud := c.audienceOf code m (nvViewOf c s.nv)
    let key := if aud = c.audSpecial then spKeyOf c s.nv
      else keyOf c s.nv (c.keySel (c.keyIndexOf code) s.atrIndex)
    let o := decryptPrimary c key m
    let validate := c.validatingPolicy (s.atrIndex.extractLsb' 4 4) = true ∧ aud ≠ c.audSpecial
    let ok := ¬ validate ∨
      (s.minDate.toNat ≤ o.date.toNat ∧ o.date.toNat ≤ s.maxDate.toNat ∧ c.audienceMatch aud o.aux = true)
    let t := fun ws => { (s.withRead (List.ofFn w) rest).withBurst ws with
      phase := .idle
      held := w 15
      msg := m
      cw := o.cw
      aux := o.aux
      date := o.date
      wk := o.wk }
    (ok → exec (.decrypt b) s = .next (t ((c.decOkBurst o.cw (c.keyIndexOf code)).map (·.setWidth 16)))) ∧
      (¬ ok → exec (.decrypt b) s = .next (t [0x010A]))

/-- DECRYPT in mode 1 (R162, R265, R267): the message passes through unchanged, the control word is its `v0` and `v1`
bytes, and the decrypt always succeeds; nothing else changes. `held`, `v0` and `v1` are the model's own fields, for the last
word read and two locals of the call (log 18). -/
def Obligations.DecryptModeUnverified : Prop :=
  ∀ (b : Byte) (s : State) (w : Fin 16 → Word9) (rest : List Word9), s.atStart (.decrypt b) →
    s.cryptMode = .alternate → s.rx = List.ofFn w ++ rest →
    let c := Config.device
    let m : Bytes 16 := vecOf fun i => (w i).extractLsb' 0 8
    let cw : Bytes 8 := vecOf fun i =>
      if i.val < 4 then byteAt m (c.altOff .v0 + i.val) else byteAt m (c.altOff .v1 + (i.val - 4))
    exec (.decrypt b) s =
      .next { (s.withRead (List.ofFn w) rest).withBurst
          ((c.decOkBurst cw (c.keyIndexOf (encode (.decrypt b)))).map (·.setWidth 16)) with
        phase := .idle
        held := w 15
        msg := m
        cw := cw
        chk := 1
        v0 := altField c m .v0
        v1 := altField c m .v1
        altRounds := 0 }

/-- DECRYPT in mode 2 (R166, R167, R265, R267 to R269): the cipher under the key of the key index's parity; the burst if
the signature matched, else the single failure word; nothing else changes. `held`, `v0` and `v1` are the model's own
fields (log 18). -/
def Obligations.DecryptModeVerified : Prop :=
  ∀ (b : Byte) (s : State) (w : Fin 16 → Word9) (rest : List Word9), s.atStart (.decrypt b) →
    s.cryptMode = .alternateVerified → s.rx = List.ofFn w ++ rest →
    let c := Config.device
    let code := encode (.decrypt b)
    let m : Bytes 16 := vecOf fun i => (w i).extractLsb' 0 8
    let k := altKeyOf c s.nv (if (c.keyIndexOf code).val % 2 = 1 then 1 else 0)
    let r8 := altRun c k 8 ⟨0, altField c m .v0, altField c m .v1⟩
    let matched := r8.v0 = altField c m .s0 ∧ r8.v1 = altField c m .s1
    let o := decryptAlternate c true k m
    let t := fun ws => { (s.withRead (List.ofFn w) rest).withBurst ws with
      phase := .idle
      held := w 15
      msg := o.msg
      cw := o.cw
      chk := o.chk
      v0 := altField c o.msg .v0
      v1 := altField c o.msg .v1
      altRounds := o.rounds }
    (matched → o.chk = 1 ∧ o.rounds = 32 ∧
      exec (.decrypt b) s = .next (t ((c.decOkBurst o.cw (c.keyIndexOf code)).map (·.setWidth 16)))) ∧
    (¬ matched → o.chk = 0 ∧ o.rounds = 8 ∧ exec (.decrypt b) s = .next (t [0x010A]))

/-- The source's scenario C (R270): in mode 0, under a validating policy and with an audience that is not the special
one, a date outside the window gives the single failure word, then the idle word, never a control-word burst. The number
of steps is the model's (log 1). -/
def Obligations.DateOutsideWindowFails : Prop :=
  ∀ (c : Config) (s : State) (b : Byte) (m : Fin 16 → Byte) (rest : List Word9), s.fault = none → s.phase = .idle →
    s.cryptMode = .primary → c.decryptCode (encode (.decrypt b)) = true →
    c.validatingPolicy (s.atrIndex.extractLsb' 4 4) = true →
    c.audienceOf (encode (.decrypt b)) (vecOf m) (nvViewOf c s.nv) ≠ c.audSpecial →
    (let d := (decryptPrimary c (keyOf c s.nv (c.keySel (c.keyIndexOf (encode (.decrypt b))) s.atrIndex))
        (vecOf m)).date;
      d.toNat < s.minDate.toNat ∨ s.maxDate.toNat < d.toNat) →
    s.rx = encodeWords (.decrypt b) ++ payloadWords (List.ofFn m) ++ (popScript 2 ++ rest) →
    ∃ t, stepsWith c 9 s = some t ∧ t.phase = .idle ∧ t.rx = rest ∧ t.len = 0 ∧ t.txLog = s.txLog ++ [0x10A, 0x100]

/-! ## POP and NOTREADY -/

/-- POP (R285, R288): the oldest word and one slot less, or the idle word and no change of the buffer; nothing else
changes. `held` is the model's own field for the word between `RbPop()` and `ChWrite`, so the clauses on it are the model's
choice (DESIGN CHOICE, logs 18 and 23). -/
def Obligations.PopReturns : Prop :=
  ∀ s : State, s.atStart .pop →
    (s.len = 0 → exec .pop s = .next { s with phase := .idle, held := 0x100, ioLog := s.ioLog ++ [.tx 0x100] }) ∧
    (s.len ≠ 0 →
      exec .pop s = .next { s with
        phase := .idle
        rd := ⟨(s.rd.val + 1) % 16, Nat.mod_lt _ (by decide)⟩
        len := s.len - 1
        held := s.slot[s.rd].extractLsb' 0 9
        ioLog := s.ioLog ++ [.tx (s.slot[s.rd].extractLsb' 0 9)] })

/-- NOTREADY (R187): one not-ready word, whatever the code; the ResponseBuffer and all other state untouched. -/
def Obligations.NotReadyAnswers : Prop :=
  ∀ (code : Word16) (s : State), s.atStart (.notready code) →
    exec (.notready code) s = .next { s with phase := .idle, ioLog := s.ioLog ++ [.tx 0x101] }

/-! ## The ResponseBuffer -/

/-- The FIFO law (R287, which the spec derives from R282 and R285): up to sixteen words pushed onto an empty queue, wherever
its cursor stands, come back in order, and after them only the idle word. -/
def Obligations.FifoLaw : Prop :=
  ∀ (c : Config) (s : State) (ws : List Word16) (n : Nat), s.len = 0 → ws.length ≤ 16 →
    ∃ t, pushAll c ws s = .done t ∧
      popAll (ws.length + n) t = ws.map (·.extractLsb' 0 9) ++ List.replicate n 0x100

/-- A push onto a full buffer is the model fault: no slot and no length changes, and the first fault stays recorded (R284,
R305). That no step follows is the model's reading (DEDUCED, log 16). -/
def Obligations.CapacityViolation : Prop :=
  ∀ (c : Config) (s : State) (w : Word16), s.len = 16 →
    Prim.perform c (.rbPush w) s = .raised (.capacityViolation w) ∧
      ∀ f : ModelFault, s.raise f = { s with fault := some (s.fault.getD f) } ∧
        step (s.raise f) = .fault (.recorded (s.fault.getD f))

/-- `RbFrame` (R283): bit 8 set in the first and the last slot of the queue, nothing else changed; on an empty queue
nothing. -/
def Obligations.FrameSetsEnds : Prop :=
  ∀ s : State,
    (s.len = 0 → s.rbFrame = s) ∧
    (1 ≤ s.len → s.len ≤ 16 →
      s.rbFrame = { s with slot := s.rbFrame.slot } ∧
        ∀ i : Fin 16, s.rbFrame.slot[i] =
          if i = s.rd ∨ i.val = (s.rd.val + s.len - 1) % 16 then s.slot[i] ||| 0x0100 else s.slot[i])

/-- The source's scenario B (R76, R97, R201, R223, R288): a channel table loaded, read and drained comes back byte for
byte, framed on the first and the last word, after the two acknowledges. The number of steps is the model's (log 1). -/
def Obligations.ChtabRoundTrip : Prop :=
  ∀ (s : State) (b : Fin 8 → Byte) (rest : List Word9), s.fault = none → s.phase = .idle → Memory.wf s.nv →
    s.rx = encodeWords (.chtabLoad 0) ++ payloadWords (List.ofFn b) ++
      (encodeWords .chtabRead ++ (popScript 8 ++ rest)) →
    ∃ t, stepsWith Config.device 30 s = some t ∧ t.phase = .idle ∧ t.rx = rest ∧ t.len = 0 ∧
      chTabOf Config.device t.nv = vecOf b ∧
      t.txLog = s.txLog ++ [Config.device.ackChTabStart.word, Config.device.ackChTabDone.word,
        1#1 ++ b 0, 0#1 ++ b 1, 0#1 ++ b 2, 0#1 ++ b 3, 0#1 ++ b 4, 0#1 ++ b 5, 0#1 ++ b 6, 1#1 ++ b 7]

/-! ## The store -/

/-- `NvUpdateByte` (R66), for every type of addresses (R61): afterwards the address reads as the byte and every other as
before; one physical write exactly if the byte differed; a second identical call changes nothing (R81). -/
def Obligations.UpdateIfChanged : Prop :=
  ∀ (c : Config) (s : State) (a : c.Addr) (b : Byte), Memory.wf s.nv →
    let t := s.nvUpdateByte c a b
    t = { s with nv := t.nv, nvWrites := t.nvWrites } ∧
    t.nvReadByte c a = b ∧ (∀ x : c.Addr, x ≠ a → t.nvReadByte c x = s.nvReadByte c x) ∧
    t.nvWrites = (if s.nvReadByte c a = b then s.nvWrites else s.nvWrites + 1) ∧
    t.nvUpdateByte c a b = t

/-- `MemWrite` and `MemRead` (R13, R65, R67), for every type of addresses (R61): an address `a + i` reads as the last byte
written to it, every other cell as before; nothing but the store and the count of physical writes changes, and the store
keeps its canonical form. Where the `n` addresses differ, the block reads back as written, for one physical write for each
byte that differed. That a cell has a number is the model's choice (DESIGN CHOICE, log 5). -/
def Obligations.BlockWrite : Prop :=
  ∀ (c : Config) (s : State) (a : c.Addr) (n : Nat) (v : Bytes n), Memory.wf s.nv →
    let t := s.memWrite c a v
    t = { s with nv := t.nv, nvWrites := t.nvWrites } ∧ Memory.wf t.nv ∧
    (∀ i (h : i < n), (∀ j, i < j → j < n → c.addrAdd a j ≠ c.addrAdd a i) →
      t.nvReadByte c (c.addrAdd a i) = v[i]) ∧
    (∀ x : Nat, (∀ i, i < n → c.addrCell (c.addrAdd a i) ≠ x) → Memory.read t.nv x = Memory.read s.nv x) ∧
    ((∀ i j, i < j → j < n → c.addrAdd a j ≠ c.addrAdd a i) →
      t.memRead c a n = v.toList ∧
      t.nvWrites = s.nvWrites +
        ((List.range n).filter fun i => s.nvReadByte c (c.addrAdd a i) != byteAt v i).length)

/-! ## The ciphers -/

/-- `LE32` and `PutLE32` (R74): four bytes, least significant first; what is put is read back, and the other bytes are
left. -/
def Obligations.LittleEndianWords : Prop :=
  ∀ (m : Bytes 16) (o : Nat) (v : Word32), o ≤ 12 →
    (getLE32 m o).toNat = (byteAt m o).toNat + 2 ^ 8 * (byteAt m (o + 1)).toNat +
      2 ^ 16 * (byteAt m (o + 2)).toNat + 2 ^ 24 * (byteAt m (o + 3)).toNat ∧
    (∀ j, j < 4 → byteAt (putLE32 m o v) (o + j) = (v >>> (8 * j)).setWidth 8) ∧
    (∀ i, i < o ∨ o + 4 ≤ i → byteAt (putLE32 m o v) i = byteAt m i) ∧
    getLE32 (putLE32 m o v) o = v

/-- The unverified variant (R162, R168): the buffer as it was, success, no round run, and the key not read. -/
def Obligations.AltUnverified : Prop :=
  ∀ (c : Config) (k k' : AltKey) (m : Bytes 16),
    let o := decryptAlternate c false k m
    o.msg = m ∧ o.chk = 1 ∧ o.rounds = 0 ∧ decryptAlternate c false k' m = o ∧
      ∀ i : Fin 8, o.cw[i] =
        if i.val < 4 then byteAt m (c.altOff .v0 + i.val) else byteAt m (c.altOff .v1 + (i.val - 4))

/-- The verified variant, match (R165, R166, R168): `chk` is 1, `v0` and `v1` are the values of thirty-two applications
of `ALT_ROUND`, back in their places and in the control word, and the signature bytes are as received. -/
def Obligations.AltMatch : Prop :=
  ∀ (c : Config) (k : AltKey) (m : Bytes 16),
    (let r8 := altRun c k 8 ⟨0, altField c m .v0, altField c m .v1⟩;
      r8.v0 = altField c m .s0 ∧ r8.v1 = altField c m .s1) →
    let o := decryptAlternate c true k m
    let r := altRun c k 32 ⟨0, altField c m .v0, altField c m .v1⟩
    o.chk = 1 ∧ o.rounds = 32 ∧ altField c o.msg .v0 = r.v0 ∧ altField c o.msg .v1 = r.v1 ∧
      altField c o.msg .s0 = altField c m .s0 ∧ altField c o.msg .s1 = altField c m .s1 ∧
      le32 o.cw[0] o.cw[1] o.cw[2] o.cw[3] = r.v0 ∧ le32 o.cw[4] o.cw[5] o.cw[6] o.cw[7] = r.v1

/-- The verified variant, mismatch (R165, R167, R168): `chk` is 0 and no round runs after the eighth, whose values are
repacked like any others. -/
def Obligations.AltMismatch : Prop :=
  ∀ (c : Config) (k : AltKey) (m : Bytes 16),
    let r := altRun c k 8 ⟨0, altField c m .v0, altField c m .v1⟩
    ¬ (r.v0 = altField c m .s0 ∧ r.v1 = altField c m .s1) →
    let o := decryptAlternate c true k m
    o.chk = 0 ∧ o.rounds = 8 ∧ altField c o.msg .v0 = r.v0 ∧ altField c o.msg .v1 = r.v1 ∧
      altField c o.msg .s0 = altField c m .s0 ∧ altField c o.msg .s1 = altField c m .s1 ∧
      le32 o.cw[0] o.cw[1] o.cw[2] o.cw[3] = r.v0 ∧ le32 o.cw[4] o.cw[5] o.cw[6] o.cw[7] = r.v1

/-- Tamper sensitivity (R169 (b)): an input that matches stops matching when a bit of its signature changes and its `v0`
and `v1` do not. -/
def Obligations.TamperedSignatureFails : Prop :=
  ∀ (c : Config) (k : AltKey) (m m' : Bytes 16),
    altField c m' .v0 = altField c m .v0 → altField c m' .v1 = altField c m .v1 → m' ≠ m →
    (decryptAlternate c true k m).chk = 1 → (decryptAlternate c true k m').chk = 0

/-- The auxiliary byte and the date of the assembled primary cipher (R134, R135): half 1 does not contribute to `aux`;
the date is the first field, or the next one if the first is the sentinel. -/
def Obligations.AuxAndDate : Prop :=
  ∀ (p : PrimaryParts) (key : Bytes 8) (m m' : Bytes 16),
    ((∀ i, i < 8 → byteAt m' i = byteAt m i) → (assembledDecrypt p key m').aux = (assembledDecrypt p key m).aux) ∧
    (let k0 := p.keyAdjust (p.keyReduce p.tables.tKeyPerm key) key
      let d := p.dateFields (halfPipeline p k0 (messageHalf m 0)).1 (halfPipeline p k0 (messageHalf m 1)).1
      (assembledDecrypt p key m).date = if d.1 = 0xFFFF then d.2 else d.1)

/-- One Feistel round of the primary cipher (R130): the expanded key and state, exclusive or by group, the lookups, the
permutation; its value into the right half, the halves swapped, the key rotated by the round's shift. That the left half
is bytes 0 to 3 is the spec's own convention (D31). -/
def Obligations.FeistelRound : Prop :=
  ∀ (p : PrimaryParts) (r : Fin 16) (s : Bytes 8) (k : K56),
    let x : Fin 8 → BitVec 6 := fun g => (p.expandKey p.tables.tKeyExp k)[g] ^^^ (p.expandData p.tables.tDataExp s)[g]
    let f : Bytes 4 := p.outPermute p.tables.tOutPerm (vecOf fun g => p.sboxLookup p.tables.tSbox r g (x g))
    let o : Bytes 8 × K56 := feistelRound p r s k
    (∀ j (_ : j < 4), o.1[j] = s[4 + j] ^^^ f[j] ∧ o.1[4 + j] = s[j]) ∧ o.2 = keyRotate p k (p.tables.tShift r)

/-- The control word and the working key of the assembled primary cipher (R124, R133, R136 to R138): each half goes from
the same start key through sixteen rounds; the four designated bytes of half 0's output, then those of half 1's, are
repacked to the control word; and `wk` is the start key after the sixteen rotations, whatever the message. That half 0's
bytes come first is the spec's own decision (D31). -/
def Obligations.AssembledControlWord : Prop :=
  ∀ (p : PrimaryParts) (key : Bytes 8) (m : Bytes 16),
    let k0 := p.keyAdjust (p.keyReduce p.tables.tKeyPerm key) key
    let rounds := fun h : Bytes 8 =>
      (List.finRange 16).foldl (fun x r => feistelRound p r x.1 x.2) (p.cwIP p.tables.tCwIp h, k0)
    let o0 := p.cwFP p.tables.tCwFp (rounds (vecOf fun j => m[j.val])).1
    let o1 := p.cwFP p.tables.tCwFp (rounds (vecOf fun j => m[8 + j.val])).1
    let a := p.halfPos 0
    let b := p.halfPos 1
    (assembledDecrypt p key m).cw =
        p.cwRepack #v[o0[a 0], o0[a 1], o0[a 2], o0[a 3], o1[b 0], o1[b 1], o1[b 2], o1[b 3]] ∧
      (assembledDecrypt p key m).wk = (List.finRange 16).foldl (fun k r => keyRotate p k (p.tables.tShift r)) k0

/-- `KeyRotate` (R131): each half on its own, a rotation by one position, which taken twice is the rotation by two, and
taken twenty-eight times is nothing. R131 leaves the placement of the 28 bits open; that a half is rotated in an order of
its bits, `keyOrderL` or `keyOrderR`, is the model's reading (DEDUCED, log 13). -/
def Obligations.KeyRotation : Prop :=
  ∀ (p : PrimaryParts) (k k' : K56),
    (k'.kL = k.kL → (keyRotate p k' .one).kL = (keyRotate p k .one).kL) ∧
    (k'.kR = k.kR → (keyRotate p k' .one).kR = (keyRotate p k .one).kR) ∧
    (∀ i : Fin 28, (keyRotate p k .one).kL.getLsb (p.keyOrderL i) = k.kL.getLsb (p.keyOrderL (i + 1))) ∧
    (∀ i : Fin 28, (keyRotate p k .one).kR.getLsb (p.keyOrderR i) = k.kR.getLsb (p.keyOrderR (i + 1))) ∧
    keyRotate p (keyRotate p k .one) .one = keyRotate p k .two ∧
    (fun x => keyRotate p x .one)^[28] k = k

/-! ## Reset and the invariant -/

/-- Reset at first initialisation (R321 to R325): every persistent item holds its default, the working copies and the
window follow from them, the buffer is empty, the phase `Idle`, the bookkeeping clear. -/
def Obligations.FirstInitDefaults : Prop :=
  ∀ (c : Config) (s : State), Memory.wf s.nv →
    let t := s.resetTo c .firstInit
    (∀ n, keyOf c t.nv n = c.defKey n) ∧ spKeyOf c t.nv = c.defSpKey ∧ (∀ p, altKeyOf c t.nv p = c.defAltKey p) ∧
    chTabOf c t.nv = c.defChTab ∧ (∀ r, entOf c t.nv r = (List.range c.entLen).map (c.defEnt r)) ∧
    nvCryptModeOf c t.nv = c.defCryptMode.toByte ∧ nvAtrIndexOf c t.nv = c.defAtrIndex ∧
    t.cryptMode = c.defCryptMode ∧ t.atrIndex = c.defAtrIndex ∧
    t.minDate = c.minDateOf ((List.range c.entLen).map (c.defEnt 0)) ((List.range c.entLen).map (c.defEnt 1)) ∧
    t.maxDate = c.maxDateOf ((List.range c.entLen).map (c.defEnt 0)) ((List.range c.entLen).map (c.defEnt 1)) ∧
    t.rd = 0 ∧ t.len = 0 ∧ t.phase = .idle ∧ t.fault = none ∧ t.nvWrites = 0 ∧ t.rxLog = [] ∧ t.txLog = []

/-- Restart (R39, R325): from a state of the invariant the store, the working copies and the window are as they were,
the buffer is empty, the phase `Idle`, the bookkeeping clear. -/
def Obligations.RestartRetains : Prop :=
  ∀ (c : Config) (s : State), InvWith c s →
    let t := s.resetTo c .restart
    t.nv = s.nv ∧ t.cryptMode = s.cryptMode ∧ t.atrIndex = s.atrIndex ∧ t.minDate = s.minDate ∧
    t.maxDate = s.maxDate ∧ t.rd = 0 ∧ t.len = 0 ∧ t.phase = .idle ∧ t.fault = none ∧ t.nvWrites = 0 ∧
    t.rxLog = [] ∧ t.txLog = []

/-- A reset step whose store access fails (R326): the failure is recorded, no word is read or written, and no step
follows. That it is recorded in place of a fault that was there before the reset is the model's choice (DESIGN CHOICE,
log 22); which of the updates stand is its choice too, and not stated. -/
def Obligations.ResetFailureStops : Prop :=
  ∀ (c : Config) (kind : ResetKind) (n : Nat) (s : State),
    let t := s.resetStep c kind (some n)
    t.fault = some .resetFailed ∧ t.rx = s.rx ∧ t.ioLog = s.ioLog ∧ step t = .fault (.recorded .resetFailed)

/-- The invariant holds after reset. The reset values the spec leaves open do not enter it. -/
def Obligations.ResetInv : Prop := Inv State.reset

/-- Every step keeps the invariant: no model fault is ever raised (R284), the store keeps its canonical form, the length
and the queued words stay in range (R33, R280), the working copies equal their images (R32), the low nibble of
`atrIndex` stays 0, 1 or 2 (R25), the window stays that of the records (R26). That a handler is left only at a
`ChRead()` is the model's step size (log 1). -/
def Obligations.StepKeepsInv : Prop := ∀ s t : State, Inv s → step s = .next t → Inv t

/-- The host's words do not touch the invariant: they can be supplied between any two steps (R19). -/
def Obligations.HostKeepsInv : Prop := ∀ (s : State) (ws : List Word9), Inv s → Inv (s.hostSend ws)

end
end

