-- ==== Sys2Proof/Laws/Memory.lean ====
section
/-! SUPPORT. The laws of the store: read after write, the canonical form kept by every operation, runs of updates, and
the persistent items through the injective `NV_LAYOUT` (R63). -/

namespace Sys2Proof.Machine

/-! ## Arrays by index -/

@[simp] theorem getElem_vecOf {α : Type} {n : Nat} (f : Fin n → α) (i : Nat) (hi : i < n) :
    (vecOf f)[i] = f ⟨i, hi⟩ := by
  simp [vecOf]

theorem vecOf_four {α : Type} (f : Fin 4 → α) : vecOf f = #v[f 0, f 1, f 2, f 3] := rfl

theorem vecOf_eight {α : Type} (f : Fin 8 → α) : vecOf f = #v[f 0, f 1, f 2, f 3, f 4, f 5, f 6, f 7] := rfl

theorem vecOf_sixteen {α : Type} (f : Fin 16 → α) :
    vecOf f = #v[f 0, f 1, f 2, f 3, f 4, f 5, f 6, f 7, f 8, f 9, f 10, f 11, f 12, f 13, f 14, f 15] := rfl

/-! ## Cells -/

theorem Memory.read_consCell (a : Nat) (b : Byte) (m : Memory) (x : Nat) (h : ∀ c ∈ m, a < c.1) :
    Memory.read (Memory.consCell a b m) x = if x = a then b else Memory.read m x := by
  have hout : Memory.read m a = Memory.unlisted := by
    induction m with
    | nil => rfl
    | cons c rest ih =>
      have := h c (by simp)
      simp only [Memory.read]
      rw [if_neg (by omega)]
      exact ih fun d hd => h d (by simp [hd])
  unfold Memory.consCell
  by_cases hb : b = Memory.unlisted
  · rw [if_pos hb]; split
    · next e => rw [e, hout, hb]
    · rfl
  · rw [if_neg hb]
    simp only [Memory.read]
    by_cases e : x = a
    · simp [e]
    · rw [if_neg (Ne.symm e), if_neg e]

/-- Read after write: the byte written at its address, every other address as before. -/
theorem Memory.read_write (m : Memory) (hm : Memory.wf m) (a : Nat) (b : Byte) (x : Nat) :
    Memory.read (Memory.write m a b) x = if x = a then b else Memory.read m x := by
  induction m with
  | nil => exact Memory.read_consCell a b [] x (by simp)
  | cons c rest ih =>
    obtain ⟨hp, hb⟩ := hm
    have hp' := List.pairwise_cons.mp hp
    simp only [Memory.write]
    split
    · next lt =>
      refine Memory.read_consCell a b (c :: rest) x ?_
      intro d hd
      rcases List.mem_cons.mp hd with rfl | hd
      · exact lt
      · exact lt_trans lt (hp'.1 d hd)
    · split
      · next nlt e =>
        subst e
        rw [Memory.read_consCell c.1 b rest x hp'.1]
        by_cases e : x = c.1
        · simp [e]
        · simp [Memory.read, e, Ne.symm e]
      · next nlt ne =>
        simp only [Memory.read]
        rw [ih ⟨hp'.2, fun d hd => hb d (by simp [hd])⟩]
        by_cases e : x = a
        · subst e; simp [Ne.symm ne]
        · simp [e]

theorem Memory.wf_consCell (a : Nat) (b : Byte) (m : Memory) (hm : Memory.wf m) (h : ∀ c ∈ m, a < c.1) :
    Memory.wf (Memory.consCell a b m) := by
  unfold Memory.consCell
  split
  · exact hm
  · next hb =>
    exact ⟨List.pairwise_cons.mpr ⟨h, hm.1⟩, fun d hd => by
      rcases List.mem_cons.mp hd with rfl | hd
      · exact hb
      · exact hm.2 d hd⟩

theorem Memory.write_keys (m : Memory) (a : Nat) (b : Byte) :
    ∀ c ∈ Memory.write m a b, c.1 = a ∨ c ∈ m := by
  induction m with
  | nil =>
    intro c hc
    simp only [Memory.write, Memory.consCell] at hc
    split at hc <;> simp_all
  | cons d rest ih =>
    intro c hc
    simp only [Memory.write, Memory.consCell] at hc
    split at hc
    · split at hc <;> simp_all
      rcases hc with rfl | hc
      · left; rfl
      · right; exact hc
    · split at hc
      · split at hc <;> simp_all
        rcases hc with rfl | hc
        · left; rfl
        · right; right; exact hc
      · rcases List.mem_cons.mp hc with rfl | hc
        · right; simp
        · rcases ih c hc with h | h
          · left; exact h
          · right; simp [h]

/-- A write keeps the canonical form. -/
theorem Memory.wf_write (m : Memory) (hm : Memory.wf m) (a : Nat) (b : Byte) : Memory.wf (Memory.write m a b) := by
  induction m with
  | nil => exact Memory.wf_consCell a b [] hm (by simp)
  | cons c rest ih =>
    obtain ⟨hp, hb⟩ := hm
    have hp' := List.pairwise_cons.mp hp
    have hrest : Memory.wf rest := ⟨hp'.2, fun d hd => hb d (by simp [hd])⟩
    simp only [Memory.write]
    split
    · next lt =>
      refine Memory.wf_consCell a b (c :: rest) ⟨hp, hb⟩ ?_
      intro d hd
      rcases List.mem_cons.mp hd with rfl | hd
      · exact lt
      · exact lt_trans lt (hp'.1 d hd)
    · split
      · next nlt e => subst e; exact Memory.wf_consCell c.1 b rest hrest hp'.1
      · next nlt ne =>
        have ih' := ih hrest
        refine ⟨List.pairwise_cons.mpr ⟨fun d hd => ?_, ih'.1⟩, fun d hd => ?_⟩
        · rcases Memory.write_keys rest a b d hd with h | h
          · rw [h]; omega
          · exact hp'.1 d h
        · rcases List.mem_cons.mp hd with rfl | hd
          · exact hb _ (by simp)
          · exact ih'.2 d hd

/-! ## `NvUpdateByte` -/

theorem Memory.read_update (m : Memory) (hm : Memory.wf m) (a : Nat) (b : Byte) (x : Nat) :
    Memory.read (Memory.update m a b) x = if x = a then b else Memory.read m x := by
  unfold Memory.update
  split
  · next h =>
    split
    · next e => rw [e, h]
    · rfl
  · exact Memory.read_write m hm a b x

theorem Memory.wf_update (m : Memory) (hm : Memory.wf m) (a : Nat) (b : Byte) : Memory.wf (Memory.update m a b) := by
  unfold Memory.update
  split
  · exact hm
  · exact Memory.wf_write m hm a b

/-- A second identical update costs nothing and changes nothing (R81). -/
theorem Memory.update_update (m : Memory) (hm : Memory.wf m) (a : Nat) (b : Byte) :
    Memory.update (Memory.update m a b) a b = Memory.update m a b ∧
      Memory.updateCost (Memory.update m a b) a b = 0 := by
  have h : Memory.read (Memory.update m a b) a = b := by rw [Memory.read_update m hm]; simp
  constructor
  · conv_lhs => unfold Memory.update
    exact if_pos h
  · unfold Memory.updateCost; exact if_pos h

/-! ## Runs of updates -/

@[simp] theorem Memory.updateAll_nil (m : Memory) : Memory.updateAll m [] = m := rfl

@[simp] theorem Memory.updateAll_cons (m : Memory) (w : Nat × Byte) (ws : List (Nat × Byte)) :
    Memory.updateAll m (w :: ws) = Memory.updateAll (Memory.update m w.1 w.2) ws := rfl

theorem Memory.updateAll_append (m : Memory) (ws vs : List (Nat × Byte)) :
    Memory.updateAll m (ws ++ vs) = Memory.updateAll (Memory.updateAll m ws) vs := by
  simp [Memory.updateAll, List.foldl_append]

theorem Memory.wf_updateAll (m : Memory) (hm : Memory.wf m) (ws : List (Nat × Byte)) :
    Memory.wf (Memory.updateAll m ws) := by
  induction ws generalizing m with
  | nil => exact hm
  | cons w ws ih => exact ih _ (Memory.wf_update m hm w.1 w.2)

/-- An address no update of the run names keeps its byte. -/
theorem Memory.read_updateAll_of_not_mem (m : Memory) (hm : Memory.wf m) (ws : List (Nat × Byte)) (x : Nat)
    (h : ∀ w ∈ ws, w.1 ≠ x) : Memory.read (Memory.updateAll m ws) x = Memory.read m x := by
  induction ws generalizing m with
  | nil => rfl
  | cons w ws ih =>
    rw [Memory.updateAll_cons, ih _ (Memory.wf_update m hm w.1 w.2) fun v hv => h v (by simp [hv]),
      Memory.read_update m hm, if_neg (Ne.symm (h w (by simp)))]

/-- A cell reads as the last byte put into it. -/
theorem Memory.read_updateAll_last (m : Memory) (hm : Memory.wf m) (ws vs : List (Nat × Byte)) (x : Nat) (b : Byte)
    (h : ∀ w ∈ vs, w.1 ≠ x) : Memory.read (Memory.updateAll m (ws ++ (x, b) :: vs)) x = b := by
  rw [Memory.updateAll_append, Memory.updateAll_cons,
    Memory.read_updateAll_of_not_mem _ (Memory.wf_update _ (Memory.wf_updateAll m hm ws) _ _) _ _ h,
    Memory.read_update _ (Memory.wf_updateAll m hm ws), if_pos rfl]

/-- An address that the updates of the run name with one byte only holds that byte. -/
theorem Memory.read_updateAll_of_mem (m : Memory) (hm : Memory.wf m) (ws : List (Nat × Byte)) (x : Nat) (b : Byte)
    (hin : (x, b) ∈ ws) (hone : ∀ w ∈ ws, w.1 = x → w.2 = b) : Memory.read (Memory.updateAll m ws) x = b := by
  induction ws generalizing m with
  | nil => simp at hin
  | cons w ws ih =>
    rw [Memory.updateAll_cons]
    by_cases hin' : (x, b) ∈ ws
    · exact ih _ (Memory.wf_update m hm w.1 w.2) hin' fun v hv => hone v (by simp [hv])
    · by_cases hx : ∃ v ∈ ws, v.1 = x
      · obtain ⟨v, hv, rfl⟩ := hx
        have := hone v (by simp [hv]) rfl
        exact absurd (this ▸ hv) hin'
      · have hw : w = (x, b) := by
          rcases List.mem_cons.mp hin with h | h
          · exact h.symm
          · exact absurd h hin'
        rw [Memory.read_updateAll_of_not_mem _ (Memory.wf_update m hm w.1 w.2) ws x fun v hv e => hx ⟨v, hv, e⟩,
          Memory.read_update m hm, hw]
        simp

/-! ## Items -/

theorem mem_persistWrites {c : Config} {item : NvItem} {v : List Byte} {w : Nat × Byte} :
    w ∈ persistWrites c item v ↔ ∃ i, ∃ h : i < v.length, w = (c.nvCell item i, v[i]) := by
  simp only [persistWrites, List.mem_map, Prod.exists]
  constructor
  · rintro ⟨b, i, hm, rfl⟩
    obtain ⟨h, rfl⟩ := List.mk_mem_zipIdx_iff_getElem?.mp hm |> fun h => List.getElem?_eq_some_iff.mp h
    exact ⟨i, h, rfl⟩
  · rintro ⟨i, h, rfl⟩
    exact ⟨v[i], i, List.mk_mem_zipIdx_iff_getElem?.mpr (List.getElem?_eq_some_iff.mpr ⟨h, rfl⟩), rfl⟩

/-- After `Persist(item, v)` the item's bytes are `v` (R68). -/
theorem itemByte_persist_same (c : Config) (m : Memory) (hm : Memory.wf m) (item : NvItem) (v : List Byte)
    (hv : v.length ≤ c.size item) (i : Nat) (hi : i < v.length) :
    itemByte c (Memory.updateAll m (persistWrites c item v)) item i = v[i] := by
  refine Memory.read_updateAll_of_mem m hm _ _ _ (mem_persistWrites.mpr ⟨i, hi, rfl⟩) ?_
  intro w hw e
  obtain ⟨j, hj, rfl⟩ := mem_persistWrites.mp hw
  obtain ⟨-, rfl⟩ := c.nvCell_ok item item j i (lt_of_lt_of_le hj hv) (lt_of_lt_of_le hi hv) e
  rfl

/-- `Persist(item, v)` leaves every byte of every other item as it was: `NV_LAYOUT` is injective (R63). -/
theorem itemByte_persist_other (c : Config) (m : Memory) (hm : Memory.wf m) (item other : NvItem) (v : List Byte)
    (hv : v.length ≤ c.size item) (hne : other ≠ item) (i : Nat) (hi : i < c.size other) :
    itemByte c (Memory.updateAll m (persistWrites c item v)) other i = itemByte c m other i := by
  refine Memory.read_updateAll_of_not_mem m hm _ _ ?_
  intro w hw e
  obtain ⟨j, hj, rfl⟩ := mem_persistWrites.mp hw
  exact hne (c.nvCell_ok item other j i (lt_of_lt_of_le hj hv) hi e).1.symm

@[simp] theorem size_key (c : Config) (n : Fin nKey) : c.size (.key n) = 8 := rfl
@[simp] theorem size_spKey (c : Config) : c.size .spKey = 8 := rfl
@[simp] theorem size_altKey (c : Config) (p : Fin nAltKey) : c.size (.altKey p) = 16 := rfl
@[simp] theorem size_chTab (c : Config) : c.size .chTab = 8 := rfl
@[simp] theorem size_ent (c : Config) (r : Fin nEnt) : c.size (.ent r) = c.entLen := rfl
@[simp] theorem size_cryptMode (c : Config) : c.size .cryptMode = 1 := rfl
@[simp] theorem size_atrIndex (c : Config) : c.size .atrIndex = 1 := rfl

/-- The views of the items are equal when their bytes are. -/
theorem keyOf_congr {c : Config} {m m' : Memory} {n : Fin nKey}
    (h : ∀ i < 8, itemByte c m' (.key n) i = itemByte c m (.key n) i) : keyOf c m' n = keyOf c m n := by
  simp only [keyOf, vecOf_eight]; simp [h]

theorem spKeyOf_congr {c : Config} {m m' : Memory}
    (h : ∀ i < 8, itemByte c m' .spKey i = itemByte c m .spKey i) : spKeyOf c m' = spKeyOf c m := by
  simp only [spKeyOf, vecOf_eight]; simp [h]

theorem chTabOf_congr {c : Config} {m m' : Memory}
    (h : ∀ i < 8, itemByte c m' .chTab i = itemByte c m .chTab i) : chTabOf c m' = chTabOf c m := by
  simp only [chTabOf, vecOf_eight]; simp [h]

theorem altKeyOf_congr {c : Config} {m m' : Memory} {p : Fin nAltKey}
    (h : ∀ i < 16, itemByte c m' (.altKey p) i = itemByte c m (.altKey p) i) : altKeyOf c m' p = altKeyOf c m p := by
  simp only [altKeyOf, vecOf_four]; simp [h]

theorem entOf_congr {c : Config} {m m' : Memory} {r : Fin nEnt}
    (h : ∀ i < c.entLen, itemByte c m' (.ent r) i = itemByte c m (.ent r) i) : entOf c m' r = entOf c m r := by
  unfold entOf itemBytes
  exact List.map_congr_left fun i hi => h i (List.mem_range.mp hi)

@[simp] theorem entOf_length (c : Config) (m : Memory) (r : Fin nEnt) : (entOf c m r).length = c.entLen := by
  simp [entOf, itemBytes]

theorem nvViewOf_congr {c : Config} {m m' : Memory}
    (h : ∀ item, ∀ i < c.size item, itemByte c m' item i = itemByte c m item i) : nvViewOf c m' = nvViewOf c m := by
  funext item i
  unfold nvViewOf
  split
  · next hi => exact h item i hi
  · rfl

end Sys2Proof.Machine
end

