-- ==== Sys2Proof/Laws/Blocks.lean ====
section
/-! SUPPORT. Runs of `NvUpdateByte`, `MemWrite` and `Persist` as operations on the state (R13, R67, R68). -/

namespace Sys2Proof.Machine

@[simp] theorem State.updateCells_nil (s : State) : s.updateCells [] = s := rfl

@[simp] theorem State.updateCells_cons (s : State) (w : Nat × Byte) (ws : List (Nat × Byte)) :
    s.updateCells (w :: ws) = (s.updateCell w.1 w.2).updateCells ws := rfl

@[simp] theorem State.updateCells_nv (s : State) (ws : List (Nat × Byte)) :
    (s.updateCells ws).nv = Memory.updateAll s.nv ws := by
  induction ws generalizing s with
  | nil => rfl
  | cons w ws ih => rw [State.updateCells_cons, ih]; rfl

/-- Updates change the store and the count of physical writes alone. -/
theorem State.updateCells_eq (s : State) (ws : List (Nat × Byte)) :
    s.updateCells ws = { s with nv := (s.updateCells ws).nv, nvWrites := (s.updateCells ws).nvWrites } := by
  induction ws generalizing s with
  | nil => rfl
  | cons w ws ih =>
    rw [State.updateCells_cons, ih]
    rfl

/-- Updates of distinct addresses cost one physical write for each byte that differs from what was stored (R66). -/
theorem State.updateCells_nvWrites (s : State) (hw : Memory.wf s.nv) (ws : List (Nat × Byte))
    (hd : (ws.map (·.1)).Nodup) :
    (s.updateCells ws).nvWrites = s.nvWrites + (ws.filter fun w => Memory.read s.nv w.1 != w.2).length := by
  induction ws generalizing s with
  | nil => rfl
  | cons w ws ih =>
    simp only [List.map_cons, List.nodup_cons] at hd
    have hf : ws.filter (fun v => Memory.read (Memory.update s.nv w.1 w.2) v.1 != v.2) =
        ws.filter (fun v => Memory.read s.nv v.1 != v.2) := by
      refine List.filter_congr fun v hv => ?_
      have : v.1 ≠ w.1 := fun e => hd.1 (e ▸ List.mem_map_of_mem hv)
      rw [Memory.read_update _ hw, if_neg this]
    rw [State.updateCells_cons, ih _ (Memory.wf_update _ hw _ _) hd.2]
    simp only [State.updateCell, Memory.updateCost, List.filter_cons]
    rw [hf]
    by_cases h : Memory.read s.nv w.1 = w.2
    · simp [h]
    · simp [h]; omega

theorem mem_blockWrites {c : Config} {n : Nat} {a : c.Addr} {v : Bytes n} {w : Nat × Byte} :
    w ∈ blockWrites c a v ↔ ∃ i, ∃ h : i < n, w = (c.addrCell (c.addrAdd a i), v[i]) := by
  simp only [blockWrites, List.mem_map, Prod.exists]
  constructor
  · rintro ⟨b, i, hm, rfl⟩
    obtain ⟨h, rfl⟩ := List.mk_mem_zipIdx_iff_getElem?.mp hm |> fun h => List.getElem?_eq_some_iff.mp h
    exact ⟨i, by simpa using h, by simp⟩
  · rintro ⟨i, h, rfl⟩
    exact ⟨v[i], i, List.mk_mem_zipIdx_iff_getElem?.mpr (List.getElem?_eq_some_iff.mpr ⟨by simpa using h, by simp⟩), rfl⟩

/-- The cells of a block: those of `a + i` for `i` ascending. -/
theorem blockWrites_addresses (c : Config) {n : Nat} (a : c.Addr) (v : Bytes n) :
    (blockWrites c a v).map (·.1) = (List.range n).map fun i => c.addrCell (c.addrAdd a i) := by
  rw [blockWrites, List.map_map]
  have : v.toList.zipIdx.map (·.2) = List.range n := by simp [List.range_eq_range']
  rw [← this, List.map_map]
  rfl

end Sys2Proof.Machine
end

