-- ==== Sys2Proof/Laws/Cipher.lean ====
section
/-! SUPPORT. The little-endian words of the alternate cipher (R74) and the composition of its rounds. -/

namespace Sys2Proof.Machine

theorem toNat_append_eq {m n : Nat} (x : BitVec m) (y : BitVec n) : (x ++ y).toNat = x.toNat * 2 ^ n + y.toNat := by
  rw [BitVec.toNat_append, ← Nat.shiftLeft_add_eq_or_of_lt y.isLt, Nat.shiftLeft_eq]

theorem le32_toNat (b0 b1 b2 b3 : Byte) :
    (le32 b0 b1 b2 b3).toNat = b0.toNat + 2 ^ 8 * b1.toNat + 2 ^ 16 * b2.toNat + 2 ^ 24 * b3.toNat := by
  have h : (le32 b0 b1 b2 b3).toNat = ((b3 ++ b2 : BitVec 16) ++ b1 ++ b0).toNat := rfl
  rw [h, toNat_append_eq, toNat_append_eq]
  have h2 : (b3 ++ b2 : BitVec 16).toNat = b3.toNat * 2 ^ 8 + b2.toNat := toNat_append_eq b3 b2
  rw [h2]
  omega

theorem byteOfWord_toNat (v : Word32) (j : Nat) : (byteOfWord v j).toNat = v.toNat / 2 ^ (8 * j) % 256 := by
  simp [byteOfWord, BitVec.extractLsb'_toNat, Nat.shiftRight_eq_div_pow]

/-- A word is its four bytes. -/
@[simp] theorem le32_byteOfWord (v : Word32) :
    le32 (byteOfWord v 0) (byteOfWord v 1) (byteOfWord v 2) (byteOfWord v 3) = v := by
  apply BitVec.eq_of_toNat_eq
  rw [le32_toNat, byteOfWord_toNat, byteOfWord_toNat, byteOfWord_toNat, byteOfWord_toNat]
  have := v.isLt
  omega

/-- Four bytes are those of their word. -/
theorem byteOfWord_le32 (b0 b1 b2 b3 : Byte) :
    byteOfWord (le32 b0 b1 b2 b3) 0 = b0 ∧ byteOfWord (le32 b0 b1 b2 b3) 1 = b1 ∧
      byteOfWord (le32 b0 b1 b2 b3) 2 = b2 ∧ byteOfWord (le32 b0 b1 b2 b3) 3 = b3 := by
  have h0 := b0.isLt
  have h1 := b1.isLt
  have h2 := b2.isLt
  have h3 := b3.isLt
  refine ⟨?_, ?_, ?_, ?_⟩ <;>
    (apply BitVec.eq_of_toNat_eq; rw [byteOfWord_toNat, le32_toNat]; omega)

theorem byteAt_setIfInBounds {n : Nat} (v : Bytes n) (i j : Nat) (x : Byte) (hi : i < n) :
    byteAt (v.setIfInBounds i x) j = if j = i then x else byteAt v j := by
  unfold byteAt
  rw [Vector.getElem?_setIfInBounds]
  by_cases h : i = j
  · subst h; simp [hi]
  · rw [if_neg h, if_neg (Ne.symm h)]

/-- The offsets of the four fields, as numbers (R161). -/
theorem altOff_le (c : Config) (f : AltField) : c.altOff f ≤ 12 := by
  have : c.altOff f + 4 ≤ 16 := c.altOff_ok f
  omega

theorem altOff_apart (c : Config) (f g : AltField) (h : f ≠ g) :
    c.altOff f + 4 ≤ c.altOff g ∨ c.altOff g + 4 ≤ c.altOff f := c.altOff_disjoint_ok f g h

/-- What `PutLE32` leaves at each byte. -/
theorem byteAt_putLE32 (m : Bytes ecmLen) (o : Nat) (v : Word32) (ho : o ≤ 12) (i : Nat) :
    byteAt (putLE32 m o v) i =
      if i = o then byteOfWord v 0 else if i = o + 1 then byteOfWord v 1 else if i = o + 2 then byteOfWord v 2
      else if i = o + 3 then byteOfWord v 3 else byteAt m i := by
  simp only [putLE32, putByte, Nat.add_zero]
  have hn : ecmLen = 16 := rfl
  rw [byteAt_setIfInBounds _ _ _ _ (by omega), byteAt_setIfInBounds _ _ _ _ (by omega),
    byteAt_setIfInBounds _ _ _ _ (by omega), byteAt_setIfInBounds _ _ _ _ (by omega)]
  by_cases h0 : i = o
  · subst h0; simp
  · by_cases h1 : i = o + 1
    · subst h1; simp
    · by_cases h2 : i = o + 2
      · subst h2; simp
      · by_cases h3 : i = o + 3
        · subst h3; simp
        · simp [h0, h1, h2, h3]

theorem getLE32_putLE32_disjoint (m : Bytes ecmLen) (o p : Nat) (v : Word32) (ho : o ≤ 12)
    (h : o + 4 ≤ p ∨ p + 4 ≤ o) : getLE32 (putLE32 m o v) p = getLE32 m p := by
  have hb : ∀ j, j < 4 → byteAt (putLE32 m o v) (p + j) = byteAt m (p + j) := by
    intro j hj
    rw [byteAt_putLE32 m o v ho, if_neg (by omega), if_neg (by omega), if_neg (by omega), if_neg (by omega)]
  unfold getLE32
  rw [hb 1 (by omega), hb 2 (by omega), hb 3 (by omega), show p = p + 0 from rfl, hb 0 (by omega)]

/-- Vectors with the same bytes are the same. -/
theorem bytes_ext {n : Nat} {u v : Bytes n} (h : ∀ i, i < n → byteAt u i = byteAt v i) : u = v := by
  refine Vector.ext fun i hi => ?_
  have := h i hi
  simpa [byteAt, hi] using this

theorem getElem_eq_byteAt {n : Nat} (v : Bytes n) (i : Nat) (hi : i < n) : v[i] = byteAt v i := by
  simp [byteAt, hi]

/-- Rounds compose (R166). -/
theorem altRun_add (c : Config) (k : AltKey) (m n : Nat) (r : AltRegs) :
    altRun c k (m + n) r = altRun c k n (altRun c k m r) := by
  induction m generalizing r with
  | zero => rw [Nat.zero_add]; rfl
  | succ m ih => rw [Nat.succ_add]; exact ih (altRoundStep c k r)

/-- A word put is the word read back. -/
theorem getLE32_putLE32_same (m : Bytes ecmLen) (o : Nat) (v : Word32) (ho : o ≤ 12) : getLE32 (putLE32 m o v) o = v := by
  unfold getLE32
  simp [byteAt_putLE32 m o v ho]

/-- Putting back what was read changes nothing. -/
theorem put_get (m : Bytes ecmLen) (o : Nat) (ho : o ≤ 12) : putLE32 m o (getLE32 m o) = m := by
  refine bytes_ext fun i hi => ?_
  obtain ⟨h0, h1, h2, h3⟩ := byteOfWord_le32 (byteAt m o) (byteAt m (o+1)) (byteAt m (o+2)) (byteAt m (o+3))
  rw [byteAt_putLE32 m o _ ho]
  unfold getLE32
  rw [h0, h1, h2, h3]
  split_ifs with a b c d <;> simp [*]

theorem byteAt_of_get {m m' : Bytes ecmLen} {o : Nat} (h : getLE32 m' o = getLE32 m o) (j : Nat) (hj : j < 4) : byteAt m'
    (o + j) = byteAt m (o + j) := by
  obtain ⟨a0, a1, a2, a3⟩ := byteOfWord_le32 (byteAt m o) (byteAt m (o+1)) (byteAt m (o+2)) (byteAt m (o+3))
  obtain ⟨b0, b1, b2, b3⟩ := byteOfWord_le32 (byteAt m' o) (byteAt m' (o+1)) (byteAt m' (o+2)) (byteAt m' (o+3))
  unfold getLE32 at h
  rw [h] at b0 b1 b2 b3
  interval_cases j
  · exact b0.symm.trans a0
  · exact b1.symm.trans a1
  · exact b2.symm.trans a2
  · exact b3.symm.trans a3

/-- The fields after repacking (R168). -/
theorem altRepack_fields (c : Config) (m : Bytes ecmLen) (x : AltOutcome) :
    let o := altRepack c m x
    altField c o.msg .v0 = x.v0 ∧ altField c o.msg .v1 = x.v1 ∧
      altField c o.msg .s0 = altField c m .s0 ∧ altField c o.msg .s1 = altField c m .s1 ∧
      le32 o.cw[0] o.cw[1] o.cw[2] o.cw[3] = x.v0 ∧ le32 o.cw[4] o.cw[5] o.cw[6] o.cw[7] = x.v1 := by
  obtain ⟨v0, v1, chk, n⟩ := x
  intro o
  have d := altOff_apart c
  have k := altOff_le c
  have e0 : altField c o.msg .v0 = v0 := by
    show getLE32 (putLE32 (putLE32 m _ v0) _ v1) _ = v0
    rw [getLE32_putLE32_disjoint _ _ _ _ (k .v1) (d .v1 .v0 (by decide))]
    exact getLE32_putLE32_same m _ v0 (k .v0)
  have e1 : altField c o.msg .v1 = v1 := getLE32_putLE32_same _ _ v1 (k .v1)
  refine ⟨e0, e1, ?_, ?_, ?_, ?_⟩
  · show getLE32 (putLE32 (putLE32 m _ v0) _ v1) _ = _
    rw [getLE32_putLE32_disjoint _ _ _ _ (k .v1) (d .v1 .s0 (by decide)), getLE32_putLE32_disjoint _ _ _ _ (k .v0)
        (d .v0 .s0 (by decide))]
    rfl
  · show getLE32 (putLE32 (putLE32 m _ v0) _ v1) _ = _
    rw [getLE32_putLE32_disjoint _ _ _ _ (k .v1) (d .v1 .s1 (by decide)), getLE32_putLE32_disjoint _ _ _ _ (k .v0)
        (d .v0 .s1 (by decide))]
    rfl
  · exact e0
  · exact e1

/-- `chk` is the comparison of the checkpoint (R165). -/
theorem chk_iff (c : Config) (k : AltKey) (m : Bytes ecmLen) : (decryptAlternate c true k m).chk = if altMatches c k m =
    true then 1 else 0 := by
  simp only [decryptAlternate, altRepack, altOutcome, if_true]
  split <;> rfl

/-- The four fields are the whole message (R161). -/
theorem cover (c : Config) (i : Nat) (hi : i < 16) : ∃ f j, j < 4 ∧ i = c.altOff f + j := by
  have k := altOff_le c
  have d := altOff_apart c
  have d1 := d .v0 .v1 (by decide); have d2 := d .v0 .s0 (by decide); have d3 := d .v0 .s1 (by decide)
  have d4 := d .v1 .s0 (by decide); have d5 := d .v1 .s1 (by decide); have d6 := d .s0 .s1 (by decide)
  have k1 := k .v0; have k2 := k .v1; have k3 := k .s0; have k4 := k .s1
  by_contra hcon
  push Not at hcon
  have n0 := fun j hj => hcon .v0 j hj
  have n1 := fun j hj => hcon .v1 j hj
  have n2 := fun j hj => hcon .s0 j hj
  have n3 := fun j hj => hcon .s1 j hj
  have m0 : i < c.altOff .v0 ∨ c.altOff .v0 + 4 ≤ i := by
    by_contra h; push Not at h; exact n0 (i - c.altOff .v0) (by omega) (by omega)
  have m1 : i < c.altOff .v1 ∨ c.altOff .v1 + 4 ≤ i := by
    by_contra h; push Not at h; exact n1 (i - c.altOff .v1) (by omega) (by omega)
  have m2 : i < c.altOff .s0 ∨ c.altOff .s0 + 4 ≤ i := by
    by_contra h; push Not at h; exact n2 (i - c.altOff .s0) (by omega) (by omega)
  have m3 : i < c.altOff .s1 ∨ c.altOff .s1 + 4 ≤ i := by
    by_contra h; push Not at h; exact n3 (i - c.altOff .s1) (by omega) (by omega)
  omega

/-! ## The primary cipher -/

/-- The bytes after one round: the right half with the round value, then the left half (R130). -/
theorem feistelRound_bytes (p : PrimaryParts) (r : Fin priRounds) (s : Bytes halfLen) (k : K56) (j : Nat) (hj : j < 4) :
    byteAt (feistelRound p r s k).1 j = byteAt s (4 + j) ^^^ byteAt (roundValue p r s k) j ∧
      byteAt (feistelRound p r s k).1 (4 + j) = byteAt s j := by
  have h1 : j < halfLen := show j < 8 by omega
  have h2 : 4 + j < halfLen := show 4 + j < 8 by omega
  refine ⟨?_, ?_⟩
  · rw [← getElem_eq_byteAt _ j h1, feistelRound, getElem_vecOf]
    exact if_pos hj
  · rw [← getElem_eq_byteAt _ (4 + j) h2, feistelRound, getElem_vecOf]
    dsimp only
    rw [if_neg (show ¬ 4 + j < 4 by omega)]
    congr 1
    exact Nat.add_sub_cancel_left 4 j

/-- The working key of a run of rounds does not depend on the message. -/
theorem rounds_key (p : PrimaryParts) (rs : List (Fin priRounds)) (s : Bytes halfLen) (k : K56) :
    (rs.foldl (fun sk r => feistelRound p r sk.1 sk.2) (s, k)).2 =
      rs.foldl (fun k r => keyRotate p k (p.tables.tShift r)) k := by
  induction rs generalizing s k with
  | nil => rfl
  | cons r rs ih => exact ih _ _

theorem scanl_getLast {α β : Type} (f : α → β → α) (l : List β) (a d : α) :
    (l.scanl f a).getLastD d = l.foldl f a := by
  induction l generalizing a d with
  | nil => rfl
  | cons b l ih => rw [List.scanl_cons, List.getLastD_cons]; exact ih _ _

/-- The last value written to `wk` is the one the call leaves (R133). -/
theorem wkWrites_last (c : Config) (key : Bytes keyLen) (m : Bytes ecmLen) (d : K56) :
    (wkWrites c key m).getLastD d = (decryptPrimary c key m).wk := by
  unfold wkWrites decryptPrimary
  cases c.primary with
  | whole f => rfl
  | assembled p =>
    have h : ∀ (a b : List K56), b ≠ [] → ∀ x y, (a ++ b).getLastD x = b.getLastD y := by
      intro a b hb x y
      cases b with
      | nil => exact absurd rfl hb
      | cons z b => simp [List.getLastD_eq_getLast?, List.getLast?_append, List.getLast?_cons]
    have hne : workingKeys p (startKey p key) ≠ [] := by simp [workingKeys]
    dsimp only
    rw [h _ _ hne d d, workingKeys, scanl_getLast]
    exact (rounds_key p _ _ _).symm

/-- A rotation in a bit order, bit by bit (R131). -/
theorem getLsb_rotate (order : Equiv.Perm (Fin 28)) (n : Nat) (h : BitVec 28) (i : Fin 28) :
    (rotateHalf order n h).getLsb i = h.getLsb (order (order.symm i + Fin.ofNat 28 n)) := by
  simp [rotateHalf, BitVec.getLsb]

theorem bv_ext {x y : BitVec 28} (h : ∀ i : Fin 28, x.getLsb i = y.getLsb i) : x = y := by
  refine BitVec.eq_of_getLsbD_eq fun i hi => ?_
  have := h ⟨i, hi⟩
  exact this

/-- A rotation by one taken `n` times is a rotation by `n`. -/
theorem rot_iter (order : Equiv.Perm (Fin 28)) (n : Nat) (h : BitVec 28) (i : Fin 28) :
   ((rotateHalf order 1)^[n] h).getLsb i = h.getLsb (order (order.symm i + Fin.ofNat 28 n)) := by
  induction n generalizing i with
  | zero => simp
  | succ n ih =>
    rw [Function.iterate_succ_apply', getLsb_rotate, ih]
    congr 1
    simp only [Equiv.symm_apply_apply]
    congr 1
    rw [add_assoc]
    congr 1
    apply Fin.ext
    simp [Fin.ofNat, Fin.val_add]
    omega

end Sys2Proof.Machine
end

