-- ==== Sys2Proof/Laws/State.lean ====
section
/-! SUPPORT. One lemma per field per update of the state, so that no proof unfolds a record update. -/

namespace Sys2Proof.Machine

/-! ### `s.raise f` -/

@[simp] theorem State.raise_phase (s : State) (f : ModelFault) : (s.raise f).phase = s.phase := rfl
@[simp] theorem State.raise_chk (s : State) (f : ModelFault) : (s.raise f).chk = s.chk := rfl
@[simp] theorem State.raise_cryptMode (s : State) (f : ModelFault) : (s.raise f).cryptMode = s.cryptMode := rfl
@[simp] theorem State.raise_atrIndex (s : State) (f : ModelFault) : (s.raise f).atrIndex = s.atrIndex := rfl
@[simp] theorem State.raise_minDate (s : State) (f : ModelFault) : (s.raise f).minDate = s.minDate := rfl
@[simp] theorem State.raise_maxDate (s : State) (f : ModelFault) : (s.raise f).maxDate = s.maxDate := rfl
@[simp] theorem State.raise_nv (s : State) (f : ModelFault) : (s.raise f).nv = s.nv := rfl
@[simp] theorem State.raise_slot (s : State) (f : ModelFault) : (s.raise f).slot = s.slot := rfl
@[simp] theorem State.raise_rd (s : State) (f : ModelFault) : (s.raise f).rd = s.rd := rfl
@[simp] theorem State.raise_len (s : State) (f : ModelFault) : (s.raise f).len = s.len := rfl
@[simp] theorem State.raise_msg (s : State) (f : ModelFault) : (s.raise f).msg = s.msg := rfl
@[simp] theorem State.raise_wk (s : State) (f : ModelFault) : (s.raise f).wk = s.wk := rfl
@[simp] theorem State.raise_cw (s : State) (f : ModelFault) : (s.raise f).cw = s.cw := rfl
@[simp] theorem State.raise_aux (s : State) (f : ModelFault) : (s.raise f).aux = s.aux := rfl
@[simp] theorem State.raise_date (s : State) (f : ModelFault) : (s.raise f).date = s.date := rfl
@[simp] theorem State.raise_fault (s : State) (f : ModelFault) : (s.raise f).fault = (s.fault <|> some f) := rfl
@[simp] theorem State.raise_nvWrites (s : State) (f : ModelFault) : (s.raise f).nvWrites = s.nvWrites := rfl
@[simp] theorem State.raise_ioLog (s : State) (f : ModelFault) : (s.raise f).ioLog = s.ioLog := rfl
@[simp] theorem State.raise_rx (s : State) (f : ModelFault) : (s.raise f).rx = s.rx := rfl
@[simp] theorem State.raise_buf (s : State) (f : ModelFault) : (s.raise f).buf = s.buf := rfl
@[simp] theorem State.raise_held (s : State) (f : ModelFault) : (s.raise f).held = s.held := rfl
@[simp] theorem State.raise_v0 (s : State) (f : ModelFault) : (s.raise f).v0 = s.v0 := rfl
@[simp] theorem State.raise_v1 (s : State) (f : ModelFault) : (s.raise f).v1 = s.v1 := rfl
@[simp] theorem State.raise_altRounds (s : State) (f : ModelFault) : (s.raise f).altRounds = s.altRounds := rfl

/-! ### `s.chWrite w` -/

@[simp] theorem State.chWrite_phase (s : State) (w : Word9) : (s.chWrite w).phase = s.phase := rfl
@[simp] theorem State.chWrite_chk (s : State) (w : Word9) : (s.chWrite w).chk = s.chk := rfl
@[simp] theorem State.chWrite_cryptMode (s : State) (w : Word9) : (s.chWrite w).cryptMode = s.cryptMode := rfl
@[simp] theorem State.chWrite_atrIndex (s : State) (w : Word9) : (s.chWrite w).atrIndex = s.atrIndex := rfl
@[simp] theorem State.chWrite_minDate (s : State) (w : Word9) : (s.chWrite w).minDate = s.minDate := rfl
@[simp] theorem State.chWrite_maxDate (s : State) (w : Word9) : (s.chWrite w).maxDate = s.maxDate := rfl
@[simp] theorem State.chWrite_nv (s : State) (w : Word9) : (s.chWrite w).nv = s.nv := rfl
@[simp] theorem State.chWrite_slot (s : State) (w : Word9) : (s.chWrite w).slot = s.slot := rfl
@[simp] theorem State.chWrite_rd (s : State) (w : Word9) : (s.chWrite w).rd = s.rd := rfl
@[simp] theorem State.chWrite_len (s : State) (w : Word9) : (s.chWrite w).len = s.len := rfl
@[simp] theorem State.chWrite_msg (s : State) (w : Word9) : (s.chWrite w).msg = s.msg := rfl
@[simp] theorem State.chWrite_wk (s : State) (w : Word9) : (s.chWrite w).wk = s.wk := rfl
@[simp] theorem State.chWrite_cw (s : State) (w : Word9) : (s.chWrite w).cw = s.cw := rfl
@[simp] theorem State.chWrite_aux (s : State) (w : Word9) : (s.chWrite w).aux = s.aux := rfl
@[simp] theorem State.chWrite_date (s : State) (w : Word9) : (s.chWrite w).date = s.date := rfl
@[simp] theorem State.chWrite_fault (s : State) (w : Word9) : (s.chWrite w).fault = s.fault := rfl
@[simp] theorem State.chWrite_nvWrites (s : State) (w : Word9) : (s.chWrite w).nvWrites = s.nvWrites := rfl
@[simp] theorem State.chWrite_ioLog (s : State) (w : Word9) : (s.chWrite w).ioLog = s.ioLog ++ [.tx w] := rfl
@[simp] theorem State.chWrite_rx (s : State) (w : Word9) : (s.chWrite w).rx = s.rx := rfl
@[simp] theorem State.chWrite_buf (s : State) (w : Word9) : (s.chWrite w).buf = s.buf := rfl
@[simp] theorem State.chWrite_held (s : State) (w : Word9) : (s.chWrite w).held = s.held := rfl
@[simp] theorem State.chWrite_v0 (s : State) (w : Word9) : (s.chWrite w).v0 = s.v0 := rfl
@[simp] theorem State.chWrite_v1 (s : State) (w : Word9) : (s.chWrite w).v1 = s.v1 := rfl
@[simp] theorem State.chWrite_altRounds (s : State) (w : Word9) : (s.chWrite w).altRounds = s.altRounds := rfl

/-! ### `s.hostSend ws` -/

@[simp] theorem State.hostSend_phase (s : State) (ws : List Word9) : (s.hostSend ws).phase = s.phase := rfl
@[simp] theorem State.hostSend_chk (s : State) (ws : List Word9) : (s.hostSend ws).chk = s.chk := rfl
@[simp] theorem State.hostSend_cryptMode (s : State) (ws : List Word9) : (s.hostSend ws).cryptMode = s.cryptMode :=
  rfl
@[simp] theorem State.hostSend_atrIndex (s : State) (ws : List Word9) : (s.hostSend ws).atrIndex = s.atrIndex := rfl
@[simp] theorem State.hostSend_minDate (s : State) (ws : List Word9) : (s.hostSend ws).minDate = s.minDate := rfl
@[simp] theorem State.hostSend_maxDate (s : State) (ws : List Word9) : (s.hostSend ws).maxDate = s.maxDate := rfl
@[simp] theorem State.hostSend_nv (s : State) (ws : List Word9) : (s.hostSend ws).nv = s.nv := rfl
@[simp] theorem State.hostSend_slot (s : State) (ws : List Word9) : (s.hostSend ws).slot = s.slot := rfl
@[simp] theorem State.hostSend_rd (s : State) (ws : List Word9) : (s.hostSend ws).rd = s.rd := rfl
@[simp] theorem State.hostSend_len (s : State) (ws : List Word9) : (s.hostSend ws).len = s.len := rfl
@[simp] theorem State.hostSend_msg (s : State) (ws : List Word9) : (s.hostSend ws).msg = s.msg := rfl
@[simp] theorem State.hostSend_wk (s : State) (ws : List Word9) : (s.hostSend ws).wk = s.wk := rfl
@[simp] theorem State.hostSend_cw (s : State) (ws : List Word9) : (s.hostSend ws).cw = s.cw := rfl
@[simp] theorem State.hostSend_aux (s : State) (ws : List Word9) : (s.hostSend ws).aux = s.aux := rfl
@[simp] theorem State.hostSend_date (s : State) (ws : List Word9) : (s.hostSend ws).date = s.date := rfl
@[simp] theorem State.hostSend_fault (s : State) (ws : List Word9) : (s.hostSend ws).fault = s.fault := rfl
@[simp] theorem State.hostSend_nvWrites (s : State) (ws : List Word9) : (s.hostSend ws).nvWrites = s.nvWrites := rfl
@[simp] theorem State.hostSend_ioLog (s : State) (ws : List Word9) : (s.hostSend ws).ioLog = s.ioLog := rfl
@[simp] theorem State.hostSend_rx (s : State) (ws : List Word9) : (s.hostSend ws).rx = s.rx ++ ws := rfl
@[simp] theorem State.hostSend_buf (s : State) (ws : List Word9) : (s.hostSend ws).buf = s.buf := rfl
@[simp] theorem State.hostSend_held (s : State) (ws : List Word9) : (s.hostSend ws).held = s.held := rfl
@[simp] theorem State.hostSend_v0 (s : State) (ws : List Word9) : (s.hostSend ws).v0 = s.v0 := rfl
@[simp] theorem State.hostSend_v1 (s : State) (ws : List Word9) : (s.hostSend ws).v1 = s.v1 := rfl
@[simp] theorem State.hostSend_altRounds (s : State) (ws : List Word9) : (s.hostSend ws).altRounds = s.altRounds :=
  rfl

/-! ### `s.updateCell a b` -/

@[simp] theorem State.updateCell_phase (s : State) (a : Nat) (b : Byte) : (s.updateCell a b).phase = s.phase :=
  rfl
@[simp] theorem State.updateCell_chk (s : State) (a : Nat) (b : Byte) : (s.updateCell a b).chk = s.chk := rfl
@[simp] theorem State.updateCell_cryptMode (s : State) (a : Nat) (b : Byte) : (s.updateCell a b).cryptMode = s.cryptMode :=
  rfl
@[simp] theorem State.updateCell_atrIndex (s : State) (a : Nat) (b : Byte) : (s.updateCell a b).atrIndex = s.atrIndex :=
  rfl
@[simp] theorem State.updateCell_minDate (s : State) (a : Nat) (b : Byte) : (s.updateCell a b).minDate = s.minDate :=
  rfl
@[simp] theorem State.updateCell_maxDate (s : State) (a : Nat) (b : Byte) : (s.updateCell a b).maxDate = s.maxDate :=
  rfl
@[simp] theorem State.updateCell_nv (s : State) (a : Nat) (b : Byte) : (s.updateCell a b).nv = Memory.update s.nv a b :=
  rfl
@[simp] theorem State.updateCell_slot (s : State) (a : Nat) (b : Byte) : (s.updateCell a b).slot = s.slot := rfl
@[simp] theorem State.updateCell_rd (s : State) (a : Nat) (b : Byte) : (s.updateCell a b).rd = s.rd := rfl
@[simp] theorem State.updateCell_len (s : State) (a : Nat) (b : Byte) : (s.updateCell a b).len = s.len := rfl
@[simp] theorem State.updateCell_msg (s : State) (a : Nat) (b : Byte) : (s.updateCell a b).msg = s.msg := rfl
@[simp] theorem State.updateCell_wk (s : State) (a : Nat) (b : Byte) : (s.updateCell a b).wk = s.wk := rfl
@[simp] theorem State.updateCell_cw (s : State) (a : Nat) (b : Byte) : (s.updateCell a b).cw = s.cw := rfl
@[simp] theorem State.updateCell_aux (s : State) (a : Nat) (b : Byte) : (s.updateCell a b).aux = s.aux := rfl
@[simp] theorem State.updateCell_date (s : State) (a : Nat) (b : Byte) : (s.updateCell a b).date = s.date := rfl
@[simp] theorem State.updateCell_fault (s : State) (a : Nat) (b : Byte) : (s.updateCell a b).fault = s.fault :=
  rfl
@[simp] theorem State.updateCell_nvWrites (s : State) (a : Nat) (b : Byte) : (s.updateCell a b).nvWrites = s.nvWrites + Memory.updateCost s.nv a b :=
  rfl
@[simp] theorem State.updateCell_ioLog (s : State) (a : Nat) (b : Byte) : (s.updateCell a b).ioLog = s.ioLog :=
  rfl
@[simp] theorem State.updateCell_rx (s : State) (a : Nat) (b : Byte) : (s.updateCell a b).rx = s.rx := rfl
@[simp] theorem State.updateCell_buf (s : State) (a : Nat) (b : Byte) : (s.updateCell a b).buf = s.buf := rfl
@[simp] theorem State.updateCell_held (s : State) (a : Nat) (b : Byte) : (s.updateCell a b).held = s.held := rfl
@[simp] theorem State.updateCell_v0 (s : State) (a : Nat) (b : Byte) : (s.updateCell a b).v0 = s.v0 := rfl
@[simp] theorem State.updateCell_v1 (s : State) (a : Nat) (b : Byte) : (s.updateCell a b).v1 = s.v1 := rfl
@[simp] theorem State.updateCell_altRounds (s : State) (a : Nat) (b : Byte) : (s.updateCell a b).altRounds = s.altRounds :=
  rfl

/-! ### `s.rbReset` -/

@[simp] theorem State.rbReset_phase (s : State) : (s.rbReset).phase = s.phase := rfl
@[simp] theorem State.rbReset_chk (s : State) : (s.rbReset).chk = s.chk := rfl
@[simp] theorem State.rbReset_cryptMode (s : State) : (s.rbReset).cryptMode = s.cryptMode := rfl
@[simp] theorem State.rbReset_atrIndex (s : State) : (s.rbReset).atrIndex = s.atrIndex := rfl
@[simp] theorem State.rbReset_minDate (s : State) : (s.rbReset).minDate = s.minDate := rfl
@[simp] theorem State.rbReset_maxDate (s : State) : (s.rbReset).maxDate = s.maxDate := rfl
@[simp] theorem State.rbReset_nv (s : State) : (s.rbReset).nv = s.nv := rfl
@[simp] theorem State.rbReset_slot (s : State) : (s.rbReset).slot = s.slot := rfl
@[simp] theorem State.rbReset_rd (s : State) : (s.rbReset).rd = 0 := rfl
@[simp] theorem State.rbReset_len (s : State) : (s.rbReset).len = 0 := rfl
@[simp] theorem State.rbReset_msg (s : State) : (s.rbReset).msg = s.msg := rfl
@[simp] theorem State.rbReset_wk (s : State) : (s.rbReset).wk = s.wk := rfl
@[simp] theorem State.rbReset_cw (s : State) : (s.rbReset).cw = s.cw := rfl
@[simp] theorem State.rbReset_aux (s : State) : (s.rbReset).aux = s.aux := rfl
@[simp] theorem State.rbReset_date (s : State) : (s.rbReset).date = s.date := rfl
@[simp] theorem State.rbReset_fault (s : State) : (s.rbReset).fault = s.fault := rfl
@[simp] theorem State.rbReset_nvWrites (s : State) : (s.rbReset).nvWrites = s.nvWrites := rfl
@[simp] theorem State.rbReset_ioLog (s : State) : (s.rbReset).ioLog = s.ioLog := rfl
@[simp] theorem State.rbReset_rx (s : State) : (s.rbReset).rx = s.rx := rfl
@[simp] theorem State.rbReset_buf (s : State) : (s.rbReset).buf = s.buf := rfl
@[simp] theorem State.rbReset_held (s : State) : (s.rbReset).held = s.held := rfl
@[simp] theorem State.rbReset_v0 (s : State) : (s.rbReset).v0 = s.v0 := rfl
@[simp] theorem State.rbReset_v1 (s : State) : (s.rbReset).v1 = s.v1 := rfl
@[simp] theorem State.rbReset_altRounds (s : State) : (s.rbReset).altRounds = s.altRounds := rfl

/-! ### `s.rbStore w` -/

@[simp] theorem State.rbStore_phase (s : State) (w : SlotWord) : (s.rbStore w).phase = s.phase := rfl
@[simp] theorem State.rbStore_chk (s : State) (w : SlotWord) : (s.rbStore w).chk = s.chk := rfl
@[simp] theorem State.rbStore_cryptMode (s : State) (w : SlotWord) : (s.rbStore w).cryptMode = s.cryptMode := rfl
@[simp] theorem State.rbStore_atrIndex (s : State) (w : SlotWord) : (s.rbStore w).atrIndex = s.atrIndex := rfl
@[simp] theorem State.rbStore_minDate (s : State) (w : SlotWord) : (s.rbStore w).minDate = s.minDate := rfl
@[simp] theorem State.rbStore_maxDate (s : State) (w : SlotWord) : (s.rbStore w).maxDate = s.maxDate := rfl
@[simp] theorem State.rbStore_nv (s : State) (w : SlotWord) : (s.rbStore w).nv = s.nv := rfl
@[simp] theorem State.rbStore_slot (s : State) (w : SlotWord) : (s.rbStore w).slot = s.slot.set (slotIndex (s.rd.val + s.len)) w :=
  rfl
@[simp] theorem State.rbStore_rd (s : State) (w : SlotWord) : (s.rbStore w).rd = s.rd := rfl
@[simp] theorem State.rbStore_len (s : State) (w : SlotWord) : (s.rbStore w).len = s.len + 1 := rfl
@[simp] theorem State.rbStore_msg (s : State) (w : SlotWord) : (s.rbStore w).msg = s.msg := rfl
@[simp] theorem State.rbStore_wk (s : State) (w : SlotWord) : (s.rbStore w).wk = s.wk := rfl
@[simp] theorem State.rbStore_cw (s : State) (w : SlotWord) : (s.rbStore w).cw = s.cw := rfl
@[simp] theorem State.rbStore_aux (s : State) (w : SlotWord) : (s.rbStore w).aux = s.aux := rfl
@[simp] theorem State.rbStore_date (s : State) (w : SlotWord) : (s.rbStore w).date = s.date := rfl
@[simp] theorem State.rbStore_fault (s : State) (w : SlotWord) : (s.rbStore w).fault = s.fault := rfl
@[simp] theorem State.rbStore_nvWrites (s : State) (w : SlotWord) : (s.rbStore w).nvWrites = s.nvWrites := rfl
@[simp] theorem State.rbStore_ioLog (s : State) (w : SlotWord) : (s.rbStore w).ioLog = s.ioLog := rfl
@[simp] theorem State.rbStore_rx (s : State) (w : SlotWord) : (s.rbStore w).rx = s.rx := rfl
@[simp] theorem State.rbStore_buf (s : State) (w : SlotWord) : (s.rbStore w).buf = s.buf := rfl
@[simp] theorem State.rbStore_held (s : State) (w : SlotWord) : (s.rbStore w).held = s.held := rfl
@[simp] theorem State.rbStore_v0 (s : State) (w : SlotWord) : (s.rbStore w).v0 = s.v0 := rfl
@[simp] theorem State.rbStore_v1 (s : State) (w : SlotWord) : (s.rbStore w).v1 = s.v1 := rfl
@[simp] theorem State.rbStore_altRounds (s : State) (w : SlotWord) : (s.rbStore w).altRounds = s.altRounds := rfl

/-! ### `s.frameSlot i` -/

@[simp] theorem State.frameSlot_phase (s : State) (i : Fin rbCap) : (s.frameSlot i).phase = s.phase := rfl
@[simp] theorem State.frameSlot_chk (s : State) (i : Fin rbCap) : (s.frameSlot i).chk = s.chk := rfl
@[simp] theorem State.frameSlot_cryptMode (s : State) (i : Fin rbCap) : (s.frameSlot i).cryptMode = s.cryptMode := rfl
@[simp] theorem State.frameSlot_atrIndex (s : State) (i : Fin rbCap) : (s.frameSlot i).atrIndex = s.atrIndex := rfl
@[simp] theorem State.frameSlot_minDate (s : State) (i : Fin rbCap) : (s.frameSlot i).minDate = s.minDate := rfl
@[simp] theorem State.frameSlot_maxDate (s : State) (i : Fin rbCap) : (s.frameSlot i).maxDate = s.maxDate := rfl
@[simp] theorem State.frameSlot_nv (s : State) (i : Fin rbCap) : (s.frameSlot i).nv = s.nv := rfl
@[simp] theorem State.frameSlot_slot (s : State) (i : Fin rbCap) : (s.frameSlot i).slot = s.slot.set i (s.slot[i] ||| frameMask) :=
  rfl
@[simp] theorem State.frameSlot_rd (s : State) (i : Fin rbCap) : (s.frameSlot i).rd = s.rd := rfl
@[simp] theorem State.frameSlot_len (s : State) (i : Fin rbCap) : (s.frameSlot i).len = s.len := rfl
@[simp] theorem State.frameSlot_msg (s : State) (i : Fin rbCap) : (s.frameSlot i).msg = s.msg := rfl
@[simp] theorem State.frameSlot_wk (s : State) (i : Fin rbCap) : (s.frameSlot i).wk = s.wk := rfl
@[simp] theorem State.frameSlot_cw (s : State) (i : Fin rbCap) : (s.frameSlot i).cw = s.cw := rfl
@[simp] theorem State.frameSlot_aux (s : State) (i : Fin rbCap) : (s.frameSlot i).aux = s.aux := rfl
@[simp] theorem State.frameSlot_date (s : State) (i : Fin rbCap) : (s.frameSlot i).date = s.date := rfl
@[simp] theorem State.frameSlot_fault (s : State) (i : Fin rbCap) : (s.frameSlot i).fault = s.fault := rfl
@[simp] theorem State.frameSlot_nvWrites (s : State) (i : Fin rbCap) : (s.frameSlot i).nvWrites = s.nvWrites := rfl
@[simp] theorem State.frameSlot_ioLog (s : State) (i : Fin rbCap) : (s.frameSlot i).ioLog = s.ioLog := rfl
@[simp] theorem State.frameSlot_rx (s : State) (i : Fin rbCap) : (s.frameSlot i).rx = s.rx := rfl
@[simp] theorem State.frameSlot_buf (s : State) (i : Fin rbCap) : (s.frameSlot i).buf = s.buf := rfl
@[simp] theorem State.frameSlot_held (s : State) (i : Fin rbCap) : (s.frameSlot i).held = s.held := rfl
@[simp] theorem State.frameSlot_v0 (s : State) (i : Fin rbCap) : (s.frameSlot i).v0 = s.v0 := rfl
@[simp] theorem State.frameSlot_v1 (s : State) (i : Fin rbCap) : (s.frameSlot i).v1 = s.v1 := rfl
@[simp] theorem State.frameSlot_altRounds (s : State) (i : Fin rbCap) : (s.frameSlot i).altRounds = s.altRounds := rfl

/-! ### `s.rbFrame` -/

@[simp] theorem State.rbFrame_phase (s : State) : (s.rbFrame).phase = s.phase :=
  by unfold State.rbFrame; split <;> rfl
@[simp] theorem State.rbFrame_chk (s : State) : (s.rbFrame).chk = s.chk := by unfold State.rbFrame; split <;> rfl
@[simp] theorem State.rbFrame_cryptMode (s : State) : (s.rbFrame).cryptMode = s.cryptMode :=
  by unfold State.rbFrame; split <;> rfl
@[simp] theorem State.rbFrame_atrIndex (s : State) : (s.rbFrame).atrIndex = s.atrIndex :=
  by unfold State.rbFrame; split <;> rfl
@[simp] theorem State.rbFrame_minDate (s : State) : (s.rbFrame).minDate = s.minDate :=
  by unfold State.rbFrame; split <;> rfl
@[simp] theorem State.rbFrame_maxDate (s : State) : (s.rbFrame).maxDate = s.maxDate :=
  by unfold State.rbFrame; split <;> rfl
@[simp] theorem State.rbFrame_nv (s : State) : (s.rbFrame).nv = s.nv := by unfold State.rbFrame; split <;> rfl
@[simp] theorem State.rbFrame_rd (s : State) : (s.rbFrame).rd = s.rd := by unfold State.rbFrame; split <;> rfl
@[simp] theorem State.rbFrame_len (s : State) : (s.rbFrame).len = s.len := by unfold State.rbFrame; split <;> rfl
@[simp] theorem State.rbFrame_msg (s : State) : (s.rbFrame).msg = s.msg := by unfold State.rbFrame; split <;> rfl
@[simp] theorem State.rbFrame_wk (s : State) : (s.rbFrame).wk = s.wk := by unfold State.rbFrame; split <;> rfl
@[simp] theorem State.rbFrame_cw (s : State) : (s.rbFrame).cw = s.cw := by unfold State.rbFrame; split <;> rfl
@[simp] theorem State.rbFrame_aux (s : State) : (s.rbFrame).aux = s.aux := by unfold State.rbFrame; split <;> rfl
@[simp] theorem State.rbFrame_date (s : State) : (s.rbFrame).date = s.date := by unfold State.rbFrame; split <;> rfl
@[simp] theorem State.rbFrame_fault (s : State) : (s.rbFrame).fault = s.fault :=
  by unfold State.rbFrame; split <;> rfl
@[simp] theorem State.rbFrame_nvWrites (s : State) : (s.rbFrame).nvWrites = s.nvWrites :=
  by unfold State.rbFrame; split <;> rfl
@[simp] theorem State.rbFrame_ioLog (s : State) : (s.rbFrame).ioLog = s.ioLog :=
  by unfold State.rbFrame; split <;> rfl
@[simp] theorem State.rbFrame_rx (s : State) : (s.rbFrame).rx = s.rx := by unfold State.rbFrame; split <;> rfl
@[simp] theorem State.rbFrame_buf (s : State) : (s.rbFrame).buf = s.buf := by unfold State.rbFrame; split <;> rfl
@[simp] theorem State.rbFrame_held (s : State) : (s.rbFrame).held = s.held := by unfold State.rbFrame; split <;> rfl
@[simp] theorem State.rbFrame_v0 (s : State) : (s.rbFrame).v0 = s.v0 := by unfold State.rbFrame; split <;> rfl
@[simp] theorem State.rbFrame_v1 (s : State) : (s.rbFrame).v1 = s.v1 := by unfold State.rbFrame; split <;> rfl
@[simp] theorem State.rbFrame_altRounds (s : State) : (s.rbFrame).altRounds = s.altRounds :=
  by unfold State.rbFrame; split <;> rfl

/-! ### `s.rbPop.2` -/

@[simp] theorem State.rbPop_snd_phase (s : State) : (s.rbPop.2).phase = s.phase :=
  by unfold State.rbPop; split <;> rfl
@[simp] theorem State.rbPop_snd_chk (s : State) : (s.rbPop.2).chk = s.chk := by unfold State.rbPop; split <;> rfl
@[simp] theorem State.rbPop_snd_cryptMode (s : State) : (s.rbPop.2).cryptMode = s.cryptMode :=
  by unfold State.rbPop; split <;> rfl
@[simp] theorem State.rbPop_snd_atrIndex (s : State) : (s.rbPop.2).atrIndex = s.atrIndex :=
  by unfold State.rbPop; split <;> rfl
@[simp] theorem State.rbPop_snd_minDate (s : State) : (s.rbPop.2).minDate = s.minDate :=
  by unfold State.rbPop; split <;> rfl
@[simp] theorem State.rbPop_snd_maxDate (s : State) : (s.rbPop.2).maxDate = s.maxDate :=
  by unfold State.rbPop; split <;> rfl
@[simp] theorem State.rbPop_snd_nv (s : State) : (s.rbPop.2).nv = s.nv := by unfold State.rbPop; split <;> rfl
@[simp] theorem State.rbPop_snd_slot (s : State) : (s.rbPop.2).slot = s.slot := by unfold State.rbPop; split <;> rfl
@[simp] theorem State.rbPop_snd_msg (s : State) : (s.rbPop.2).msg = s.msg := by unfold State.rbPop; split <;> rfl
@[simp] theorem State.rbPop_snd_wk (s : State) : (s.rbPop.2).wk = s.wk := by unfold State.rbPop; split <;> rfl
@[simp] theorem State.rbPop_snd_cw (s : State) : (s.rbPop.2).cw = s.cw := by unfold State.rbPop; split <;> rfl
@[simp] theorem State.rbPop_snd_aux (s : State) : (s.rbPop.2).aux = s.aux := by unfold State.rbPop; split <;> rfl
@[simp] theorem State.rbPop_snd_date (s : State) : (s.rbPop.2).date = s.date := by unfold State.rbPop; split <;> rfl
@[simp] theorem State.rbPop_snd_fault (s : State) : (s.rbPop.2).fault = s.fault :=
  by unfold State.rbPop; split <;> rfl
@[simp] theorem State.rbPop_snd_nvWrites (s : State) : (s.rbPop.2).nvWrites = s.nvWrites :=
  by unfold State.rbPop; split <;> rfl
@[simp] theorem State.rbPop_snd_ioLog (s : State) : (s.rbPop.2).ioLog = s.ioLog :=
  by unfold State.rbPop; split <;> rfl
@[simp] theorem State.rbPop_snd_rx (s : State) : (s.rbPop.2).rx = s.rx := by unfold State.rbPop; split <;> rfl
@[simp] theorem State.rbPop_snd_buf (s : State) : (s.rbPop.2).buf = s.buf := by unfold State.rbPop; split <;> rfl
@[simp] theorem State.rbPop_snd_held (s : State) : (s.rbPop.2).held = s.held := by unfold State.rbPop; split <;> rfl
@[simp] theorem State.rbPop_snd_v0 (s : State) : (s.rbPop.2).v0 = s.v0 := by unfold State.rbPop; split <;> rfl
@[simp] theorem State.rbPop_snd_v1 (s : State) : (s.rbPop.2).v1 = s.v1 := by unfold State.rbPop; split <;> rfl
@[simp] theorem State.rbPop_snd_altRounds (s : State) : (s.rbPop.2).altRounds = s.altRounds :=
  by unfold State.rbPop; split <;> rfl

/-! ### `s.hold w` -/

@[simp] theorem State.hold_phase (s : State) (w : Word9) : (s.hold w).phase = s.phase := rfl
@[simp] theorem State.hold_chk (s : State) (w : Word9) : (s.hold w).chk = s.chk := rfl
@[simp] theorem State.hold_cryptMode (s : State) (w : Word9) : (s.hold w).cryptMode = s.cryptMode := rfl
@[simp] theorem State.hold_atrIndex (s : State) (w : Word9) : (s.hold w).atrIndex = s.atrIndex := rfl
@[simp] theorem State.hold_minDate (s : State) (w : Word9) : (s.hold w).minDate = s.minDate := rfl
@[simp] theorem State.hold_maxDate (s : State) (w : Word9) : (s.hold w).maxDate = s.maxDate := rfl
@[simp] theorem State.hold_nv (s : State) (w : Word9) : (s.hold w).nv = s.nv := rfl
@[simp] theorem State.hold_slot (s : State) (w : Word9) : (s.hold w).slot = s.slot := rfl
@[simp] theorem State.hold_rd (s : State) (w : Word9) : (s.hold w).rd = s.rd := rfl
@[simp] theorem State.hold_len (s : State) (w : Word9) : (s.hold w).len = s.len := rfl
@[simp] theorem State.hold_msg (s : State) (w : Word9) : (s.hold w).msg = s.msg := rfl
@[simp] theorem State.hold_wk (s : State) (w : Word9) : (s.hold w).wk = s.wk := rfl
@[simp] theorem State.hold_cw (s : State) (w : Word9) : (s.hold w).cw = s.cw := rfl
@[simp] theorem State.hold_aux (s : State) (w : Word9) : (s.hold w).aux = s.aux := rfl
@[simp] theorem State.hold_date (s : State) (w : Word9) : (s.hold w).date = s.date := rfl
@[simp] theorem State.hold_fault (s : State) (w : Word9) : (s.hold w).fault = s.fault := rfl
@[simp] theorem State.hold_nvWrites (s : State) (w : Word9) : (s.hold w).nvWrites = s.nvWrites := rfl
@[simp] theorem State.hold_ioLog (s : State) (w : Word9) : (s.hold w).ioLog = s.ioLog := rfl
@[simp] theorem State.hold_rx (s : State) (w : Word9) : (s.hold w).rx = s.rx := rfl
@[simp] theorem State.hold_buf (s : State) (w : Word9) : (s.hold w).buf = s.buf := rfl
@[simp] theorem State.hold_held (s : State) (w : Word9) : (s.hold w).held = w := rfl
@[simp] theorem State.hold_v0 (s : State) (w : Word9) : (s.hold w).v0 = s.v0 := rfl
@[simp] theorem State.hold_v1 (s : State) (w : Word9) : (s.hold w).v1 = s.v1 := rfl
@[simp] theorem State.hold_altRounds (s : State) (w : Word9) : (s.hold w).altRounds = s.altRounds := rfl

/-! ### `s.toIdle` -/

@[simp] theorem State.toIdle_phase (s : State) : (s.toIdle).phase = .idle := rfl
@[simp] theorem State.toIdle_chk (s : State) : (s.toIdle).chk = s.chk := rfl
@[simp] theorem State.toIdle_cryptMode (s : State) : (s.toIdle).cryptMode = s.cryptMode := rfl
@[simp] theorem State.toIdle_atrIndex (s : State) : (s.toIdle).atrIndex = s.atrIndex := rfl
@[simp] theorem State.toIdle_minDate (s : State) : (s.toIdle).minDate = s.minDate := rfl
@[simp] theorem State.toIdle_maxDate (s : State) : (s.toIdle).maxDate = s.maxDate := rfl
@[simp] theorem State.toIdle_nv (s : State) : (s.toIdle).nv = s.nv := rfl
@[simp] theorem State.toIdle_slot (s : State) : (s.toIdle).slot = s.slot := rfl
@[simp] theorem State.toIdle_rd (s : State) : (s.toIdle).rd = s.rd := rfl
@[simp] theorem State.toIdle_len (s : State) : (s.toIdle).len = s.len := rfl
@[simp] theorem State.toIdle_msg (s : State) : (s.toIdle).msg = s.msg := rfl
@[simp] theorem State.toIdle_wk (s : State) : (s.toIdle).wk = s.wk := rfl
@[simp] theorem State.toIdle_cw (s : State) : (s.toIdle).cw = s.cw := rfl
@[simp] theorem State.toIdle_aux (s : State) : (s.toIdle).aux = s.aux := rfl
@[simp] theorem State.toIdle_date (s : State) : (s.toIdle).date = s.date := rfl
@[simp] theorem State.toIdle_fault (s : State) : (s.toIdle).fault = s.fault := rfl
@[simp] theorem State.toIdle_nvWrites (s : State) : (s.toIdle).nvWrites = s.nvWrites := rfl
@[simp] theorem State.toIdle_ioLog (s : State) : (s.toIdle).ioLog = s.ioLog := rfl
@[simp] theorem State.toIdle_rx (s : State) : (s.toIdle).rx = s.rx := rfl
@[simp] theorem State.toIdle_buf (s : State) : (s.toIdle).buf = s.buf := rfl
@[simp] theorem State.toIdle_held (s : State) : (s.toIdle).held = s.held := rfl
@[simp] theorem State.toIdle_v0 (s : State) : (s.toIdle).v0 = s.v0 := rfl
@[simp] theorem State.toIdle_v1 (s : State) : (s.toIdle).v1 = s.v1 := rfl
@[simp] theorem State.toIdle_altRounds (s : State) : (s.toIdle).altRounds = s.altRounds := rfl

/-! ### `s.advance` -/

@[simp] theorem State.advance_chk (s : State) : (s.advance).chk = s.chk := by unfold State.advance; split <;> rfl
@[simp] theorem State.advance_cryptMode (s : State) : (s.advance).cryptMode = s.cryptMode :=
  by unfold State.advance; split <;> rfl
@[simp] theorem State.advance_atrIndex (s : State) : (s.advance).atrIndex = s.atrIndex :=
  by unfold State.advance; split <;> rfl
@[simp] theorem State.advance_minDate (s : State) : (s.advance).minDate = s.minDate :=
  by unfold State.advance; split <;> rfl
@[simp] theorem State.advance_maxDate (s : State) : (s.advance).maxDate = s.maxDate :=
  by unfold State.advance; split <;> rfl
@[simp] theorem State.advance_nv (s : State) : (s.advance).nv = s.nv := by unfold State.advance; split <;> rfl
@[simp] theorem State.advance_slot (s : State) : (s.advance).slot = s.slot := by unfold State.advance; split <;> rfl
@[simp] theorem State.advance_rd (s : State) : (s.advance).rd = s.rd := by unfold State.advance; split <;> rfl
@[simp] theorem State.advance_len (s : State) : (s.advance).len = s.len := by unfold State.advance; split <;> rfl
@[simp] theorem State.advance_msg (s : State) : (s.advance).msg = s.msg := by unfold State.advance; split <;> rfl
@[simp] theorem State.advance_wk (s : State) : (s.advance).wk = s.wk := by unfold State.advance; split <;> rfl
@[simp] theorem State.advance_cw (s : State) : (s.advance).cw = s.cw := by unfold State.advance; split <;> rfl
@[simp] theorem State.advance_aux (s : State) : (s.advance).aux = s.aux := by unfold State.advance; split <;> rfl
@[simp] theorem State.advance_date (s : State) : (s.advance).date = s.date := by unfold State.advance; split <;> rfl
@[simp] theorem State.advance_fault (s : State) : (s.advance).fault = s.fault :=
  by unfold State.advance; split <;> rfl
@[simp] theorem State.advance_nvWrites (s : State) : (s.advance).nvWrites = s.nvWrites :=
  by unfold State.advance; split <;> rfl
@[simp] theorem State.advance_ioLog (s : State) : (s.advance).ioLog = s.ioLog :=
  by unfold State.advance; split <;> rfl
@[simp] theorem State.advance_rx (s : State) : (s.advance).rx = s.rx := by unfold State.advance; split <;> rfl
@[simp] theorem State.advance_buf (s : State) : (s.advance).buf = s.buf := by unfold State.advance; split <;> rfl
@[simp] theorem State.advance_held (s : State) : (s.advance).held = s.held := by unfold State.advance; split <;> rfl
@[simp] theorem State.advance_v0 (s : State) : (s.advance).v0 = s.v0 := by unfold State.advance; split <;> rfl
@[simp] theorem State.advance_v1 (s : State) : (s.advance).v1 = s.v1 := by unfold State.advance; split <;> rfl
@[simp] theorem State.advance_altRounds (s : State) : (s.advance).altRounds = s.altRounds :=
  by unfold State.advance; split <;> rfl

/-! ### `s.enter code` -/

@[simp] theorem State.enter_chk (s : State) (code : Word16) : (s.enter code).chk = s.chk :=
  by unfold State.enter; split <;> (try split) <;> rfl
@[simp] theorem State.enter_cryptMode (s : State) (code : Word16) : (s.enter code).cryptMode = s.cryptMode :=
  by unfold State.enter; split <;> (try split) <;> rfl
@[simp] theorem State.enter_atrIndex (s : State) (code : Word16) : (s.enter code).atrIndex = s.atrIndex :=
  by unfold State.enter; split <;> (try split) <;> rfl
@[simp] theorem State.enter_minDate (s : State) (code : Word16) : (s.enter code).minDate = s.minDate :=
  by unfold State.enter; split <;> (try split) <;> rfl
@[simp] theorem State.enter_maxDate (s : State) (code : Word16) : (s.enter code).maxDate = s.maxDate :=
  by unfold State.enter; split <;> (try split) <;> rfl
@[simp] theorem State.enter_nv (s : State) (code : Word16) : (s.enter code).nv = s.nv :=
  by unfold State.enter; split <;> (try split) <;> rfl
@[simp] theorem State.enter_slot (s : State) (code : Word16) : (s.enter code).slot = s.slot :=
  by unfold State.enter; split <;> (try split) <;> rfl
@[simp] theorem State.enter_rd (s : State) (code : Word16) : (s.enter code).rd = s.rd :=
  by unfold State.enter; split <;> (try split) <;> rfl
@[simp] theorem State.enter_len (s : State) (code : Word16) : (s.enter code).len = s.len :=
  by unfold State.enter; split <;> (try split) <;> rfl
@[simp] theorem State.enter_msg (s : State) (code : Word16) : (s.enter code).msg = s.msg :=
  by unfold State.enter; split <;> (try split) <;> rfl
@[simp] theorem State.enter_wk (s : State) (code : Word16) : (s.enter code).wk = s.wk :=
  by unfold State.enter; split <;> (try split) <;> rfl
@[simp] theorem State.enter_cw (s : State) (code : Word16) : (s.enter code).cw = s.cw :=
  by unfold State.enter; split <;> (try split) <;> rfl
@[simp] theorem State.enter_aux (s : State) (code : Word16) : (s.enter code).aux = s.aux :=
  by unfold State.enter; split <;> (try split) <;> rfl
@[simp] theorem State.enter_date (s : State) (code : Word16) : (s.enter code).date = s.date :=
  by unfold State.enter; split <;> (try split) <;> rfl
@[simp] theorem State.enter_fault (s : State) (code : Word16) : (s.enter code).fault = s.fault :=
  by unfold State.enter; split <;> (try split) <;> rfl
@[simp] theorem State.enter_nvWrites (s : State) (code : Word16) : (s.enter code).nvWrites = s.nvWrites :=
  by unfold State.enter; split <;> (try split) <;> rfl
@[simp] theorem State.enter_ioLog (s : State) (code : Word16) : (s.enter code).ioLog = s.ioLog :=
  by unfold State.enter; split <;> (try split) <;> rfl
@[simp] theorem State.enter_rx (s : State) (code : Word16) : (s.enter code).rx = s.rx :=
  by unfold State.enter; split <;> (try split) <;> rfl
@[simp] theorem State.enter_buf (s : State) (code : Word16) : (s.enter code).buf = s.buf :=
  by unfold State.enter; split <;> (try split) <;> rfl
@[simp] theorem State.enter_held (s : State) (code : Word16) : (s.enter code).held = s.held :=
  by unfold State.enter; split <;> (try split) <;> rfl
@[simp] theorem State.enter_v0 (s : State) (code : Word16) : (s.enter code).v0 = s.v0 :=
  by unfold State.enter; split <;> (try split) <;> rfl
@[simp] theorem State.enter_v1 (s : State) (code : Word16) : (s.enter code).v1 = s.v1 :=
  by unfold State.enter; split <;> (try split) <;> rfl
@[simp] theorem State.enter_altRounds (s : State) (code : Word16) : (s.enter code).altRounds = s.altRounds :=
  by unfold State.enter; split <;> (try split) <;> rfl

/-! ### `s.detect w` -/

@[simp] theorem State.detect_chk (s : State) (w : Word9) : (s.detect w).chk = s.chk :=
  by unfold State.detect; split <;> split <;> rfl
@[simp] theorem State.detect_cryptMode (s : State) (w : Word9) : (s.detect w).cryptMode = s.cryptMode :=
  by unfold State.detect; split <;> split <;> rfl
@[simp] theorem State.detect_atrIndex (s : State) (w : Word9) : (s.detect w).atrIndex = s.atrIndex :=
  by unfold State.detect; split <;> split <;> rfl
@[simp] theorem State.detect_minDate (s : State) (w : Word9) : (s.detect w).minDate = s.minDate :=
  by unfold State.detect; split <;> split <;> rfl
@[simp] theorem State.detect_maxDate (s : State) (w : Word9) : (s.detect w).maxDate = s.maxDate :=
  by unfold State.detect; split <;> split <;> rfl
@[simp] theorem State.detect_nv (s : State) (w : Word9) : (s.detect w).nv = s.nv :=
  by unfold State.detect; split <;> split <;> rfl
@[simp] theorem State.detect_slot (s : State) (w : Word9) : (s.detect w).slot = s.slot :=
  by unfold State.detect; split <;> split <;> rfl
@[simp] theorem State.detect_rd (s : State) (w : Word9) : (s.detect w).rd = s.rd :=
  by unfold State.detect; split <;> split <;> rfl
@[simp] theorem State.detect_len (s : State) (w : Word9) : (s.detect w).len = s.len :=
  by unfold State.detect; split <;> split <;> rfl
@[simp] theorem State.detect_msg (s : State) (w : Word9) : (s.detect w).msg = s.msg :=
  by unfold State.detect; split <;> split <;> rfl
@[simp] theorem State.detect_wk (s : State) (w : Word9) : (s.detect w).wk = s.wk :=
  by unfold State.detect; split <;> split <;> rfl
@[simp] theorem State.detect_cw (s : State) (w : Word9) : (s.detect w).cw = s.cw :=
  by unfold State.detect; split <;> split <;> rfl
@[simp] theorem State.detect_aux (s : State) (w : Word9) : (s.detect w).aux = s.aux :=
  by unfold State.detect; split <;> split <;> rfl
@[simp] theorem State.detect_date (s : State) (w : Word9) : (s.detect w).date = s.date :=
  by unfold State.detect; split <;> split <;> rfl
@[simp] theorem State.detect_fault (s : State) (w : Word9) : (s.detect w).fault = s.fault :=
  by unfold State.detect; split <;> split <;> rfl
@[simp] theorem State.detect_nvWrites (s : State) (w : Word9) : (s.detect w).nvWrites = s.nvWrites :=
  by unfold State.detect; split <;> split <;> rfl
@[simp] theorem State.detect_ioLog (s : State) (w : Word9) : (s.detect w).ioLog = s.ioLog :=
  by unfold State.detect; split <;> split <;> rfl
@[simp] theorem State.detect_rx (s : State) (w : Word9) : (s.detect w).rx = s.rx :=
  by unfold State.detect; split <;> split <;> rfl
@[simp] theorem State.detect_buf (s : State) (w : Word9) : (s.detect w).buf = s.buf :=
  by unfold State.detect; split <;> split <;> rfl
@[simp] theorem State.detect_held (s : State) (w : Word9) : (s.detect w).held = s.held :=
  by unfold State.detect; split <;> split <;> rfl
@[simp] theorem State.detect_v0 (s : State) (w : Word9) : (s.detect w).v0 = s.v0 :=
  by unfold State.detect; split <;> split <;> rfl
@[simp] theorem State.detect_v1 (s : State) (w : Word9) : (s.detect w).v1 = s.v1 :=
  by unfold State.detect; split <;> split <;> rfl
@[simp] theorem State.detect_altRounds (s : State) (w : Word9) : (s.detect w).altRounds = s.altRounds :=
  by unfold State.detect; split <;> split <;> rfl

/-! ### `s.writeScratch c x` -/

@[simp] theorem State.writeScratch_phase (s : State) (c : Config) (x : Scratch) : (s.writeScratch c x).phase = s.phase :=
  by cases x <;> rfl
@[simp] theorem State.writeScratch_cryptMode (s : State) (c : Config) (x : Scratch) : (s.writeScratch c x).cryptMode = s.cryptMode :=
  by cases x <;> rfl
@[simp] theorem State.writeScratch_atrIndex (s : State) (c : Config) (x : Scratch) : (s.writeScratch c x).atrIndex = s.atrIndex :=
  by cases x <;> rfl
@[simp] theorem State.writeScratch_minDate (s : State) (c : Config) (x : Scratch) : (s.writeScratch c x).minDate = s.minDate :=
  by cases x <;> rfl
@[simp] theorem State.writeScratch_maxDate (s : State) (c : Config) (x : Scratch) : (s.writeScratch c x).maxDate = s.maxDate :=
  by cases x <;> rfl
@[simp] theorem State.writeScratch_nv (s : State) (c : Config) (x : Scratch) : (s.writeScratch c x).nv = s.nv :=
  by cases x <;> rfl
@[simp] theorem State.writeScratch_slot (s : State) (c : Config) (x : Scratch) : (s.writeScratch c x).slot = s.slot :=
  by cases x <;> rfl
@[simp] theorem State.writeScratch_rd (s : State) (c : Config) (x : Scratch) : (s.writeScratch c x).rd = s.rd :=
  by cases x <;> rfl
@[simp] theorem State.writeScratch_len (s : State) (c : Config) (x : Scratch) : (s.writeScratch c x).len = s.len :=
  by cases x <;> rfl
@[simp] theorem State.writeScratch_fault (s : State) (c : Config) (x : Scratch) : (s.writeScratch c x).fault = s.fault :=
  by cases x <;> rfl
@[simp] theorem State.writeScratch_nvWrites (s : State) (c : Config) (x : Scratch) : (s.writeScratch c x).nvWrites = s.nvWrites :=
  by cases x <;> rfl
@[simp] theorem State.writeScratch_ioLog (s : State) (c : Config) (x : Scratch) : (s.writeScratch c x).ioLog = s.ioLog :=
  by cases x <;> rfl
@[simp] theorem State.writeScratch_rx (s : State) (c : Config) (x : Scratch) : (s.writeScratch c x).rx = s.rx :=
  by cases x <;> rfl
@[simp] theorem State.writeScratch_buf (s : State) (c : Config) (x : Scratch) : (s.writeScratch c x).buf = s.buf :=
  by cases x <;> rfl
@[simp] theorem State.writeScratch_held (s : State) (c : Config) (x : Scratch) : (s.writeScratch c x).held = s.held :=
  by cases x <;> rfl

end Sys2Proof.Machine
end

