-- ==== Sys2Proof/Laws/Words.lean ====
section
/-! SUPPORT. The small lemmas of words and codes: fields of a built word are what it was built from. -/

namespace Sys2Proof

@[simp] theorem isFramed_framedWord (b : Byte) : isFramed (framedWord b) = true := by
  simp [isFramed, framedWord, frameBitIn]

@[simp] theorem isFramed_plainWord (b : Byte) : isFramed (plainWord b) = false := by
  simp [isFramed, plainWord]

@[simp] theorem dataByte_framedWord (b : Byte) : dataByte (framedWord b) = b := by
  ext k hk
  interval_cases k <;> simp [dataByte, framedWord, frameBitIn]

@[simp] theorem dataByte_plainWord (b : Byte) : dataByte (plainWord b) = b := by
  ext k hk
  interval_cases k <;> simp [dataByte, plainWord]

@[simp] theorem codeHigh_append (h l : Byte) : codeHigh (h ++ l) = h := by
  unfold codeHigh
  ext k hk
  simp only [BitVec.getElem_extractLsb']
  exact (BitVec.getLsbD_append (x := h) (y := l) (i := 8 + k)).trans (by simp [hk])

@[simp] theorem codeLow_append (h l : Byte) : codeLow (h ++ l) = l := by
  unfold codeLow
  ext k hk
  simp only [BitVec.getElem_extractLsb', Nat.zero_add]
  exact (BitVec.getLsbD_append (x := h) (y := l) (i := k)).trans (by simp [hk])

@[simp] theorem codeHigh_assembleCode (h l : Byte) : codeHigh (assembleCode h l) = h := codeHigh_append h l

@[simp] theorem codeLow_assembleCode (h l : Byte) : codeLow (assembleCode h l) = l := codeLow_append h l

/-- A code is its two bytes. -/
@[simp] theorem assembleCode_high_low (code : Word16) : assembleCode (codeHigh code) (codeLow code) = code := by
  unfold assembleCode codeHigh codeLow
  refine BitVec.eq_of_getLsbD_eq fun k hk => ?_
  refine (BitVec.getLsbD_append (x := code.extractLsb' 8 8) (y := code.extractLsb' 0 8) (i := k)).trans ?_
  simp only [BitVec.getLsbD_extractLsb']
  split
  · simp [*]
  · have h1 : k - 8 < 8 := by omega
    have h2 : 8 + (k - 8) = k := by omega
    simp [h1, h2]

theorem code_eq_append (code : Word16) : code = codeHigh code ++ codeLow code := (assembleCode_high_low code).symm

/-- A member of `DECRYPT_CMDS` has high byte `0x06`, whatever the parameters (R101). -/
theorem codeHigh_of_decryptCode {c : Config} {code : Word16} (h : c.decryptCode code = true) :
    codeHigh code = 0x06 := by
  have hr : 0x0600 ≤ code.toNat ∧ code.toNat ≤ 0x0622 := by
    have e1 : decryptFirst.toNat = 0x0600 := rfl
    have e2 : decryptLast.toNat = 0x0622 := rfl
    simp only [Config.decryptCode, Bool.or_eq_true, beq_iff_eq, Bool.and_eq_true, decide_eq_true_eq] at h
    rcases h with (rfl | rfl) | ⟨⟨h1, h2⟩, -⟩
    · decide
    · decide
    · omega
  apply BitVec.eq_of_toNat_eq
  simp only [codeHigh, BitVec.extractLsb'_toNat, Nat.shiftRight_eq_div_pow]
  change _ = 6
  omega

/-- A member of `ATRIDX_CMDS` has high byte `0x14`, whatever the parameters (R101). -/
theorem codeHigh_of_atrCode {c : Config} {code : Word16} (h : c.atrCode code = true) : codeHigh code = 0x14 := by
  have hr : 0x1400 ≤ code.toNat ∧ code.toNat ≤ 0x1412 := by
    have e1 : atrFirst.toNat = 0x1400 := rfl
    have e2 : atrLast.toNat = 0x1412 := rfl
    simp only [Config.atrCode, Bool.or_eq_true, beq_iff_eq, Bool.and_eq_true, decide_eq_true_eq] at h
    rcases h with (rfl | rfl) | ⟨⟨⟨h1, h2⟩, -⟩, -⟩
    · decide
    · decide
    · omega
  apply BitVec.eq_of_toNat_eq
  simp only [codeHigh, BitVec.extractLsb'_toNat, Nat.shiftRight_eq_div_pow]
  change _ = 0x14
  omega

/-- Every member of `ATRIDX_CMDS` has low nibble 0, 1 or 2 (R10). -/
theorem lowNibble_of_atrCode {c : Config} {code : Word16} (h : c.atrCode code = true) :
    (code.extractLsb' 0 4).toNat < nAtrPayload := by
  simp only [Config.atrCode, Bool.or_eq_true, beq_iff_eq, Bool.and_eq_true, decide_eq_true_eq] at h
  rcases h with (rfl | rfl) | ⟨⟨-, h⟩, -⟩
  · decide
  · decide
  · exact h

/-- The mask of the framing bit (R9, D44). -/
@[simp] theorem frameMask_eq : frameMask = 0x0100 := rfl

/-! ## The rows of the command map (R100) -/

theorem encode_decrypt (b : Byte) : encode (.decrypt b) = 0x06#8 ++ b := rfl

theorem encode_setatr (b : Byte) : encode (.setatr b) = 0x14#8 ++ b := rfl

/-- The operand bits of the rows that have some. -/
theorem row_operands : (∀ i < 16, rowChtabLoad.mask.getLsbD i = decide (1 ≤ i)) ∧
    (∀ i < 16, rowHs05.mask.getLsbD i = decide (1 ≤ i)) ∧ ∀ i < 16, rowKeyload.mask.getLsbD i = decide (4 ≤ i) := by
  decide

theorem bit_cases (v : BitVec 1) : v = 0 ∨ v = 1 := by revert v; decide

/-- Masking works byte by byte. -/
theorem and_append (h l mh ml : Byte) : (h ++ l) &&& (mh ++ ml) = (h &&& mh) ++ (l &&& ml) := by
  refine BitVec.eq_of_getLsbD_eq fun k _ => ?_
  rw [BitVec.getLsbD_and, BitVec.getLsbD_append, BitVec.getLsbD_append, BitVec.getLsbD_append]
  split <;> simp

/-- A row of one code selects that code. -/
@[simp] theorem oneCode_selects (m code : Word16) : (oneCode m).selects code = (code == m) := by
  have : code &&& 0xFFFF = code := BitVec.and_allOnes
  unfold CodeRow.selects oneCode
  rw [this]

/-- The bits outside a mask of low bits and those inside make up the code. -/
theorem mask_or_low (code mask : Word16) (n : Nat) (hm : ∀ i < 16, mask.getLsbD i = decide (n ≤ i)) :
    (code &&& mask) ||| (code.extractLsb' 0 n).setWidth 16 = code := by
  refine BitVec.eq_of_getLsbD_eq fun i hi => ?_
  simp only [BitVec.getLsbD_or, BitVec.getLsbD_and, BitVec.getLsbD_setWidth, BitVec.getLsbD_extractLsb', hm i hi]
  by_cases h : n ≤ i
  · simp [h, show ¬ i < n by omega]
  · simp [h, show i < n by omega, hi]

/-- A code that a row with low operand bits selects is the row's code with these bits. -/
theorem code_of_selects {r : CodeRow} {code : Word16} {n : Nat} (hm : ∀ i < 16, r.mask.getLsbD i = decide (n ≤ i))
    (h : r.selects code = true) : r.code ||| (code.extractLsb' 0 n).setWidth 16 = code := by
  rw [← eq_of_beq (show (code &&& r.mask == r.code) = true from h)]
  exact mask_or_low code r.mask n hm

/-- Every mask covers the high byte, so a selected code has its row's high byte. -/
theorem codeHigh_of_selects {r : CodeRow} (hr : r ∈ maskedRows) {code : Word16} (h : r.selects code = true) :
    codeHigh code = codeHigh r.code := by
  have hm : ∀ r ∈ maskedRows, codeHigh r.mask = 0xFF#8 := by decide
  have hc := eq_of_beq (show (code &&& r.mask == r.code) = true from h)
  rw [← hc]
  conv_rhs => rw [code_eq_append code, code_eq_append r.mask, and_append, codeHigh_append, hm r hr]
  exact BitVec.and_allOnes.symm

/-- No row's high byte is that of the two code sets (R101). -/
theorem rows_high {r : CodeRow} (hr : r ∈ maskedRows) : codeHigh r.code ≠ 0x06 ∧ codeHigh r.code ≠ 0x14 := by
  have : ∀ r ∈ maskedRows, codeHigh r.code ≠ 0x06 ∧ codeHigh r.code ≠ 0x14 := by decide
  exact this r hr

/-- A code is in one of the two code sets at most, and then no row selects it (R101). -/
theorem decryptCode_alone {c : Config} {code : Word16} (h : c.decryptCode code = true) :
    c.atrCode code = false ∧ ∀ r ∈ maskedRows, r.selects code = false := by
  have h6 := codeHigh_of_decryptCode h
  refine ⟨?_, fun r hr => ?_⟩
  · by_contra h2
    have := codeHigh_of_atrCode (Bool.not_eq_false _ ▸ h2)
    rw [h6] at this
    exact absurd this (by decide)
  · by_contra h2
    exact (rows_high hr).1 ((codeHigh_of_selects hr (Bool.not_eq_false _ ▸ h2)).symm.trans h6)

theorem atrCode_alone {c : Config} {code : Word16} (h : c.atrCode code = true) :
    c.decryptCode code = false ∧ ∀ r ∈ maskedRows, r.selects code = false := by
  have h14 := codeHigh_of_atrCode h
  refine ⟨?_, fun r hr => ?_⟩
  · by_contra h2
    have := codeHigh_of_decryptCode (Bool.not_eq_false _ ▸ h2)
    rw [h14] at this
    exact absurd this (by decide)
  · by_contra h2
    exact (rows_high hr).2 ((codeHigh_of_selects hr (Bool.not_eq_false _ ▸ h2)).symm.trans h14)

/-- Case analysis on one test of the command map. -/
theorem ite_ind {p : Prop} [Decidable p] {P : Instr → Prop} {a b : Instr} (ha : p → P a) (hb : ¬p → P b) :
    P (if p then a else b) := by
  by_cases h : p
  · rw [if_pos h]; exact ha h
  · rw [if_neg h]; exact hb h

/-- A listed code is selected by some row or is in a code set. -/
theorem listedCode_eq_false {c : Config} {code : Word16} :
    listedCode c code = false ↔
      (∀ r ∈ maskedRows, r.selects code = false) ∧ c.decryptCode code = false ∧ c.atrCode code = false := by
  simp only [listedCode, Bool.or_eq_false_iff, List.any_eq_false, Bool.not_eq_true, and_assoc]

/-- What a code of no row decodes to (R103). -/
theorem decodeWith_unlisted {c : Config} {code : Word16} (h : listedCode c code = false) :
    decodeWith c code = .notready code := by
  obtain ⟨hr, hd, ha⟩ := listedCode_eq_false.mp h
  simp only [maskedRows, List.mem_cons, List.not_mem_nil, or_false, forall_eq_or_imp, forall_eq] at hr
  obtain ⟨h1, h2, h3, h4, h5, h6, h7, h8, h9, h10, h11, h12, h13, h14, h15, h16, h17, h18⟩ := hr
  unfold decodeWith
  rw [hd, ha, h1, h2, h3, h4, h5, h6, h7, h8, h9, h10, h11, h12, h13, h14, h15, h16, h17, h18]
  rfl

end Sys2Proof
end

