-- ==== Sys2Proof/Laws/Handler.lean ====
section
/-! SUPPORT. What running a handler can do: the primitives one by one, sequences of them, whole handlers that finish,
and the relations every run keeps. -/

namespace Sys2Proof.Machine

/-! ## The device's definitions as cases of the parametric ones -/

theorem exec_eq (i : Instr) (s : State) : exec i s = execWith Config.device i s := by cases i <;> rfl

theorem step_eq (s : State) : step s = stepWith Config.device s := by
  simp only [step, stepWith, stepBy, decode, exec_eq]

/-! ## The phase apart -/

/-- The state with another phase. -/
def State.setPhase (s : State) (ph : Phase) : State := { s with phase := ph }

@[simp] theorem State.setPhase_phase (s : State) (ph : Phase) : (s.setPhase ph).phase = ph := rfl
@[simp] theorem State.setPhase_chk (s : State) (ph : Phase) : (s.setPhase ph).chk = s.chk := rfl
@[simp] theorem State.setPhase_cryptMode (s : State) (ph : Phase) : (s.setPhase ph).cryptMode = s.cryptMode := rfl
@[simp] theorem State.setPhase_atrIndex (s : State) (ph : Phase) : (s.setPhase ph).atrIndex = s.atrIndex := rfl
@[simp] theorem State.setPhase_minDate (s : State) (ph : Phase) : (s.setPhase ph).minDate = s.minDate := rfl
@[simp] theorem State.setPhase_maxDate (s : State) (ph : Phase) : (s.setPhase ph).maxDate = s.maxDate := rfl
@[simp] theorem State.setPhase_nv (s : State) (ph : Phase) : (s.setPhase ph).nv = s.nv := rfl
@[simp] theorem State.setPhase_slot (s : State) (ph : Phase) : (s.setPhase ph).slot = s.slot := rfl
@[simp] theorem State.setPhase_rd (s : State) (ph : Phase) : (s.setPhase ph).rd = s.rd := rfl
@[simp] theorem State.setPhase_len (s : State) (ph : Phase) : (s.setPhase ph).len = s.len := rfl
@[simp] theorem State.setPhase_msg (s : State) (ph : Phase) : (s.setPhase ph).msg = s.msg := rfl
@[simp] theorem State.setPhase_wk (s : State) (ph : Phase) : (s.setPhase ph).wk = s.wk := rfl
@[simp] theorem State.setPhase_cw (s : State) (ph : Phase) : (s.setPhase ph).cw = s.cw := rfl
@[simp] theorem State.setPhase_aux (s : State) (ph : Phase) : (s.setPhase ph).aux = s.aux := rfl
@[simp] theorem State.setPhase_date (s : State) (ph : Phase) : (s.setPhase ph).date = s.date := rfl
@[simp] theorem State.setPhase_fault (s : State) (ph : Phase) : (s.setPhase ph).fault = s.fault := rfl
@[simp] theorem State.setPhase_nvWrites (s : State) (ph : Phase) : (s.setPhase ph).nvWrites = s.nvWrites := rfl
@[simp] theorem State.setPhase_ioLog (s : State) (ph : Phase) : (s.setPhase ph).ioLog = s.ioLog := rfl
@[simp] theorem State.setPhase_rx (s : State) (ph : Phase) : (s.setPhase ph).rx = s.rx := rfl
@[simp] theorem State.setPhase_buf (s : State) (ph : Phase) : (s.setPhase ph).buf = s.buf := rfl
@[simp] theorem State.setPhase_held (s : State) (ph : Phase) : (s.setPhase ph).held = s.held := rfl
@[simp] theorem State.setPhase_v0 (s : State) (ph : Phase) : (s.setPhase ph).v0 = s.v0 := rfl
@[simp] theorem State.setPhase_v1 (s : State) (ph : Phase) : (s.setPhase ph).v1 = s.v1 := rfl
@[simp] theorem State.setPhase_altRounds (s : State) (ph : Phase) : (s.setPhase ph).altRounds = s.altRounds := rfl
@[simp] theorem State.setPhase_setPhase (s : State) (p q : Phase) : (s.setPhase p).setPhase q = s.setPhase q := rfl
@[simp] theorem State.setPhase_self (s : State) : s.setPhase s.phase = s := rfl
@[simp] theorem State.toIdle_setPhase (s : State) (ph : Phase) : (s.setPhase ph).toIdle = s.toIdle := rfl

theorem State.advance_eq (s : State) {code : Word16} {k : Nat} (h : s.phase = .run code k) :
    s.advance = s.setPhase (.run code (k + 1)) := by
  simp [State.advance, h, State.setPhase]

@[simp] theorem State.toIdle_advance (s : State) : s.advance.toIdle = s.toIdle := by
  unfold State.advance; split <;> rfl

theorem State.advance_cases (s : State) : ∃ ph, s.advance = s.setPhase ph := by
  unfold State.advance; split
  · exact ⟨_, rfl⟩
  · exact ⟨s.phase, rfl⟩

theorem State.enter_cases (s : State) (code : Word16) : ∃ ph, s.enter code = s.setPhase ph := by
  unfold State.enter; split
  · split
    · exact ⟨s.phase, rfl⟩
    · exact ⟨_, rfl⟩
  · exact ⟨_, rfl⟩

theorem State.enter_of_run (s : State) {code : Word16} {k : Nat} (h : s.phase = .run code k) : s.enter code = s := by
  simp [State.enter, h]

theorem State.stepIndex_of_run (s : State) {code : Word16} {k : Nat} (h : s.phase = .run code k) :
    s.stepIndex = k := by
  simp [State.stepIndex, h]

/-- A result with the phase changed. -/
def PrimResult.setPhase (r : PrimResult) (ph : Phase) : PrimResult :=
  match r with
  | .done s => .done (s.setPhase ph)
  | .blocked => .blocked
  | .raised f => .raised f

/-- No primitive reads or writes the phase. -/
theorem Prim.perform_setPhase (c : Config) (p : Prim) (s : State) (ph : Phase) :
    p.perform c (s.setPhase ph) = (p.perform c s).setPhase ph := by
  cases p with
  | readBuf i => unfold Prim.perform State.readThen State.chRead; cases h : s.rx <;> simp [h] <;> rfl
  | readHeld => unfold Prim.perform State.readThen State.chRead; cases h : s.rx <;> simp [h] <;> rfl
  | discard => unfold Prim.perform State.readThen State.chRead; cases h : s.rx <;> simp [h] <;> rfl
  | write w => rfl
  | writeHeld => rfl
  | rbPop => by_cases h : s.len = 0 <;> simp only [Prim.perform, State.rbPop, State.setPhase_len, h, if_true, if_false] <;> rfl
  | setMode m => rfl
  | setAtr b => rfl
  | nvUpdate item i b => rfl
  | scratch x => cases x <;> rfl
  | rbReset => rfl
  | rbPush w => by_cases h : s.rbFull = true <;> simp only [Prim.perform, h, if_true, show (s.setPhase ph).rbFull = s.rbFull from rfl] <;> rfl
  | rbFrame => by_cases h : 1 ≤ s.len <;> simp only [Prim.perform, State.rbFrame, State.setPhase_len, h, if_true, if_false] <;> rfl

theorem Prim.perform_phase {c : Config} {p : Prim} {s s' : State} (h : p.perform c s = .done s') :
    s'.phase = s.phase := by
  have hs := Prim.perform_setPhase c p s s.phase
  rw [State.setPhase_self, h] at hs
  simp only [PrimResult.setPhase, PrimResult.done.injEq] at hs
  rw [hs]; rfl

/-! ## Sequences of primitives that finish -/

/-- The effect of performing primitives in order, the steps not counted; none if one blocks or raises a fault. -/
def effect (c : Config) : List Prim → State → Option State
  | [], s => some s
  | p :: ps, s =>
    match p.perform c s with
    | .done s' => effect c ps s'
    | .blocked => none
    | .raised _ => none

@[simp] theorem effect_nil (c : Config) (s : State) : effect c [] s = some s := rfl

theorem effect_cons {c : Config} {p : Prim} {s s' : State} (h : p.perform c s = .done s') (ps : List Prim) :
    effect c (p :: ps) s = effect c ps s' := by
  simp [effect, h]

theorem effect_append (c : Config) (a b : List Prim) (s : State) :
    effect c (a ++ b) s = (effect c a s).bind (effect c b) := by
  induction a generalizing s with
  | nil => rfl
  | cons p a ih => simp only [List.cons_append, effect]; split <;> simp [ih]

theorem effect_setPhase (c : Config) (ps : List Prim) (s : State) (ph : Phase) :
    effect c ps (s.setPhase ph) = (effect c ps s).map (·.setPhase ph) := by
  induction ps generalizing s with
  | nil => rfl
  | cons p ps ih =>
    simp only [effect, Prim.perform_setPhase]
    cases p.perform c s <;> simp [PrimResult.setPhase, ih]

theorem effect_phase {c : Config} {ps : List Prim} {s s' : State} (h : effect c ps s = some s') :
    s'.phase = s.phase := by
  have hs := effect_setPhase c ps s s.phase
  rw [State.setPhase_self, h] at hs
  simp only [Option.map_some, Option.some.injEq] at hs
  rw [hs]; rfl

/-- A sequence that finishes counts its steps and has its effect. -/
theorem runPrims_of_effect {c : Config} {ps : List Prim} {s s' : State} {code : Word16} {k : Nat}
    (hp : s.phase = .run code k) (h : effect c ps s = some s') :
    runPrims c ps s = .finished (s'.setPhase (.run code (k + ps.length))) := by
  induction ps generalizing s s' k with
  | nil =>
    simp only [effect_nil, Option.some.injEq] at h
    subst h
    simp [runPrims, ← hp]
  | cons p ps ih =>
    simp only [effect] at h
    split at h
    · next s1 h1 =>
      have hp1 : s1.phase = .run code k := (Prim.perform_phase h1).trans hp
      have hadv := State.advance_eq s1 hp1
      have he : effect c ps (s1.setPhase (.run code (k + 1))) = some (s'.setPhase (.run code (k + 1))) := by
        rw [effect_setPhase, h]; rfl
      simp only [runPrims, h1, hadv]
      rw [ih (k := k + 1) rfl he]
      simp [Nat.add_assoc, Nat.add_comm 1]
    · simp at h
    · simp at h

/-- A primitive that is performed and is a read found a word. -/
theorem Prim.rx_ne_nil_of_done {c : Config} {p : Prim} {s s' : State} (hr : p.isRead = true)
    (h : p.perform c s = .done s') : s.rx ≠ [] := by
  intro hrx
  cases p <;> simp [Prim.isRead] at hr <;> simp [Prim.perform, State.readThen, State.chRead, hrx] at h

/-! ## Parts that finish -/

/-- The effect of performing parts in order. -/
def effectParts (c : Config) : List (State → List Prim) → State → Option State
  | [], s => some s
  | p :: ps, s => (effect c (p s) s).bind (effectParts c ps)

@[simp] theorem effectParts_nil (c : Config) (s : State) : effectParts c [] s = some s := rfl

theorem effectParts_cons {c : Config} {p : State → List Prim} {s s' : State} (h : effect c (p s) s = some s')
    (ps : List (State → List Prim)) : effectParts c (p :: ps) s = effectParts c ps s' := by
  simp [effectParts, h]

/-- The part does not depend on the phase. -/
def PhaseFree (p : State → List Prim) : Prop := ∀ s ph, p (s.setPhase ph) = p s

theorem effectParts_setPhase (c : Config) (ps : List (State → List Prim)) (hps : ∀ p ∈ ps, PhaseFree p) (s : State)
    (ph : Phase) : effectParts c ps (s.setPhase ph) = (effectParts c ps s).map (·.setPhase ph) := by
  induction ps generalizing s with
  | nil => rfl
  | cons p ps ih =>
    simp only [effectParts, hps p (by simp) s ph, effect_setPhase]
    cases effect c (p s) s with
    | none => rfl
    | some s1 => exact ih (fun q hq => hps q (by simp [hq])) s1

/-- Parts that finish from their start count their steps and have their effect. -/
theorem runParts_of_effect {c : Config} {ps : List (State → List Prim)} (hps : ∀ p ∈ ps, PhaseFree p) {s s' : State}
    {code : Word16} {k : Nat} (hp : s.phase = .run code k) (h : effectParts c ps s = some s') :
    ∃ ph, runParts c ps 0 s = .finished (s'.setPhase ph) := by
  induction ps generalizing s s' k with
  | nil =>
    simp only [effectParts_nil, Option.some.injEq] at h
    subst h
    exact ⟨s.phase, rfl⟩
  | cons p ps ih =>
    simp only [effectParts, Option.bind_eq_some_iff] at h
    obtain ⟨s1, h1, h2⟩ := h
    have hps' : ∀ q ∈ ps, PhaseFree q := fun q hq => hps q (by simp [hq])
    obtain ⟨ph, h3⟩ := ih hps' (s := s1.setPhase (.run code (k + (p s).length)))
      (s' := s'.setPhase (.run code (k + (p s).length))) rfl (by rw [effectParts_setPhase c ps hps', h2]; rfl)
    refine ⟨ph, ?_⟩
    simp only [runParts, List.drop_zero, runPrims_of_effect hp h1, Nat.zero_sub]
    exact h3

/-- Parts that finish begin with a read only if there is a word. -/
theorem effectParts_not_blocked {c : Config} {ps : List (State → List Prim)} {s s' : State}
    (h : effectParts c ps s = some s') (hrx : s.rx = []) {p : Prim} (hp : (partPrims ps s)[0]? = some p) :
    p.isRead = false := by
  induction ps with
  | nil => simp [partPrims] at hp
  | cons q ps ih =>
    simp only [effectParts, Option.bind_eq_some_iff] at h
    obtain ⟨s1, h1, h2⟩ := h
    cases hq : q s with
    | nil =>
      rw [hq, effect_nil, Option.some.injEq] at h1
      subst h1
      exact ih h2 (by simpa [partPrims, hq] using hp)
    | cons x xs =>
      have hx : x = p := by simpa [partPrims, hq] using hp
      subst hx
      rw [hq] at h1
      simp only [effect] at h1
      split at h1
      · next s3 h3 =>
        by_contra hr
        exact Prim.rx_ne_nil_of_done (by simpa using hr) h3 hrx
      · cases h1
      · cases h1

/-- A handler that finishes from its start has the effect of its parts and ends in `Idle`. -/
theorem runHandler_of_effect {c : Config} {code : Word16} {h : Handler} {s s2 : State}
    (hp : s.phase = .run code 0) (hps : ∀ p ∈ h.parts, PhaseFree p) (he : effectParts c h.parts s = some s2) :
    runHandler c code h s = .next s2.toIdle := by
  have hk := State.stepIndex_of_run s hp
  have hblk : (s.rx.isEmpty && h.atRead s) = false := by
    rw [Bool.and_eq_false_iff]
    by_cases hrx : s.rx = []
    · right
      rw [Handler.atRead, hk, Handler.primAt]
      split
      · next p hq => exact effectParts_not_blocked he hrx hq
      · rfl
    · left; simpa using hrx
  obtain ⟨ph, hrun⟩ := runParts_of_effect hps hp he
  rw [runHandler, State.enter_of_run s hp, hblk]
  simp only [Bool.false_eq_true, if_false, Handler.run, hk, hrun, State.toIdle_setPhase]

/-! ## The sequences handlers are made of -/

theorem effect_writes (c : Config) (ws : List Word9) (s : State) :
    effect c (ws.map .write) s = some (s.withSent ws) := by
  induction ws generalizing s with
  | nil => simp [State.withSent]
  | cons w ws ih =>
    rw [List.map_cons, effect_cons (s' := s.chWrite w) rfl, ih]
    simp [State.withSent, State.chWrite]

theorem effect_discards (c : Config) {s : State} (ws rest : List Word9) (h : s.rx = ws ++ rest) :
    effect c (List.replicate ws.length .discard) s = some (s.withRead ws rest) := by
  induction ws generalizing s with
  | nil =>
    cases s
    simp_all [State.withRead]
  | cons w ws ih =>
    have hp : Prim.perform c .discard s = .done { s with rx := ws ++ rest, ioLog := s.ioLog ++ [.rx w] } := by
      simp [Prim.perform, State.readThen, State.chRead, h]
    rw [List.length_cons, List.replicate_succ, effect_cons hp, ih rfl]
    simp [State.withRead]

/-- A place in the handler's bytes. -/
abbrev bufAt (i : Nat) (h : i < bufLen := by decide) : Fin bufLen := ⟨i, h⟩

/-- The one payload byte of ENT before its sub-selector is known. -/
theorem payloadReads_one : payloadReads 1 (by decide) = [.readBuf (bufAt 0)] := rfl

/-- The eight payload bytes of CHTAB_LOAD and KEYLOAD. -/
theorem effect_readBufs (c : Config) {s : State} (w : Fin 8 → Word9) (rest : List Word9)
    (h : s.rx = List.ofFn w ++ rest) :
    effect c (payloadReads 8 (by decide)) s =
      some { s.withRead (List.ofFn w) rest with buf := vecOf fun i => dataByte (w i) } := by
  simp only [List.ofFn_succ, List.ofFn_zero, List.cons_append, List.nil_append] at h
  have hps : payloadReads 8 (by decide) =
      [.readBuf (bufAt 0), .readBuf (bufAt 1), .readBuf (bufAt 2), .readBuf (bufAt 3), .readBuf (bufAt 4), .readBuf (bufAt 5), .readBuf (bufAt 6), .readBuf (bufAt 7)] := rfl
  rw [hps, vecOf_eight]
  simp [effect, Prim.perform, State.readThen, State.chRead, h, State.withRead, List.ofFn_succ]
  refine Array.ext (by simp) fun i h1 h2 => ?_
  have hi : i < 8 := by simpa using h2
  interval_cases i <;> simp

/-- The sixteen message bytes of DECRYPT; the word held at the end is the last one. -/
theorem effect_messageReads (c : Config) {s : State} (w : Fin 16 → Word9) (rest : List Word9)
    (h : s.rx = List.ofFn w ++ rest) :
    effect c messageReads s =
      some { s.withRead (List.ofFn w) rest with msg := vecOf fun i => dataByte (w i), held := w 15 } := by
  simp only [List.ofFn_succ, List.ofFn_zero, List.cons_append, List.nil_append] at h
  rw [vecOf_sixteen]
  simp [messageReads, List.finRange_succ, effect, Prim.perform, State.readThen, State.chRead, State.hold,
    State.writeScratch, h, State.withRead, List.ofFn_succ]
  refine Array.ext (by simp) fun i h1 h2 => ?_
  have hi : i < 16 := by simpa using h2
  interval_cases i <;> simp

/-! ## The writes of a CipherEngine call (R262) -/

theorem effect_wks (c : Config) (ks : List K56) (s : State) :
    effect c ((ks.map Scratch.wk).map .scratch) s = some { s with wk := ks.getLastD s.wk } := by
  induction ks generalizing s with
  | nil => rfl
  | cons k ks ih =>
    rw [List.map_cons, List.map_cons, effect_cons (s' := { s with wk := k }) rfl, ih, List.getLastD_cons]

/-- What `DecryptPrimary` writes (R120). -/
theorem effect_primaryWrites (c : Config) (key : Bytes keyLen) (m : Bytes ecmLen) (s : State) :
    effect c ((primaryWrites c key m).map .scratch) s =
      let o := decryptPrimary c key m
      some { s with wk := o.wk, aux := o.aux, date := o.date, cw := o.cw } := by
  simp only [primaryWrites, List.map_append]
  rw [effect_append, effect_wks, Option.bind_some, wkWrites_last]
  rfl

/-- What `DecryptAlternate` writes (R160), and the locals it leaves. -/
theorem effect_alternateWrites (c : Config) (code : Word16) (verify : Bool) (s : State) :
    effect c ((alternateWrites code verify).map .scratch) s =
      let x := altOutcome c verify (alternateKey c code s) s.msg
      let o := decryptAlternate c verify (alternateKey c code s) s.msg
      some { s with msg := o.msg, cw := o.cw, chk := o.chk, altRounds := o.rounds, v0 := x.v0, v1 := x.v1 } := rfl

/-! ## Bursts -/

/-- Pushes onto an unwrapped queue fill the slots behind it. -/
theorem effect_pushes (c : Config) (ws : List SlotWord) (s : State) (hrd : s.rd = 0) (hlen : s.len + ws.length ≤ rbCap) :
    effect c (ws.map .rbPush) s =
      some { s with
        len := s.len + ws.length
        slot := Vector.ofFn fun i : Fin rbCap => if s.len ≤ i.val then ws[i.val - s.len]?.getD s.slot[i] else s.slot[i] } := by
  induction ws generalizing s with
  | nil =>
    simp only [List.map_nil, effect_nil, Option.some.injEq, List.length_nil, Nat.add_zero]
    cases s
    simp only [State.mk.injEq, true_and, and_true]
    refine Vector.ext fun i hi => ?_
    simp
  | cons w ws ih =>
    simp only [List.length_cons, rbCap] at hlen
    have hp : Prim.perform c (.rbPush w) s = .done (s.rbStore w) := by
      have hfull : s.rbFull = false := decide_eq_false (by simp only [rbCap]; omega)
      simp [Prim.perform, hfull]
    rw [List.map_cons, effect_cons hp, ih (s.rbStore w) (by simp [State.rbStore, hrd])
      (by simp [State.rbStore, rbCap]; omega)]
    simp only [State.rbStore, Option.some.injEq, State.mk.injEq, true_and, and_true, List.length_cons]
    refine ⟨?_, by omega⟩
    refine Vector.ext fun i hi => ?_
    have hix : (slotIndex (s.rd.val + s.len)).val = s.len := by
      simp only [slotIndex, hrd, Fin.val_zero, Nat.zero_add]
      exact Nat.mod_eq_of_lt (by simp only [rbCap]; omega)
    simp only [Vector.getElem_ofFn, Fin.getElem_fin, Vector.getElem_set, hix]
    by_cases h1 : s.len = i
    · subst h1
      simp
    · by_cases h2 : s.len + 1 ≤ i
      · have h3 : i - s.len = (i - (s.len + 1)) + 1 := by omega
        rw [if_pos h2, if_neg h1, if_pos (by omega), h3, List.getElem?_cons_succ]
      · rw [if_neg h2, if_neg h1, if_neg (by omega)]

theorem frameEnds_length (ws : List SlotWord) : (frameEnds ws).length = ws.length := by simp [frameEnds]

/-- Reset, push, frame leave the burst (R286). -/
theorem effect_burst (c : Config) (ws : List SlotWord) (s : State) (hlen : ws.length ≤ rbCap) :
    effect c (burstPrims ws) s = some (s.withBurst ws) := by
  have hr : Prim.perform c .rbReset s = .done s.rbReset := rfl
  rw [burstPrims, List.cons_append, effect_cons hr, effect_append, effect_pushes c ws s.rbReset rfl (by simpa using hlen)]
  simp only [Option.bind_some, effect, Prim.perform]
  simp only [State.rbFrame, State.withBurst, State.rbReset, Nat.zero_add, Nat.zero_le, if_true, Nat.sub_zero,
    Option.some.injEq]
  cases hw : ws with
  | nil => simp [frameEnds]
  | cons w t =>
    rw [← hw]
    have hpos : 1 ≤ ws.length := by simp [hw]
    rw [if_pos hpos]
    simp only [State.frameSlot, State.mk.injEq, true_and, and_true]
    simp only [rbCap] at hlen
    refine Vector.ext fun i hi => ?_
    have hlast : (slotIndex (0 + ws.length - 1)).val = ws.length - 1 := by
      simp only [slotIndex, Nat.zero_add]
      exact Nat.mod_eq_of_lt (by simp only [rbCap]; omega)
    simp only [Vector.getElem_set, Fin.getElem_fin, Vector.getElem_ofFn, Fin.val_zero, hlast]
    have hfe : (frameEnds ws)[i]? = ws[i]?.map fun w => if i = 0 ∨ i + 1 = ws.length then w ||| frameMask else w := by
      simp [frameEnds]
    conv_rhs => rw [hfe]
    by_cases hin : i < ws.length
    · simp only [List.getElem?_eq_getElem hin, Option.map_some, Option.getD_some]
      by_cases h1 : ws.length - 1 = i
      · have h2 : i + 1 = ws.length := by omega
        subst h1
        simp only [if_true, h2, or_true]
        by_cases h0 : 0 = ws.length - 1
        · simp only [← h0, if_true]
          simp [List.getElem?_eq_getElem (show 0 < ws.length by omega), BitVec.or_assoc]
        · rw [if_neg h0, List.getElem?_eq_getElem (by omega)]
          rfl
      · by_cases h0 : 0 = i
        · subst h0
          simp [h1, List.getElem?_eq_getElem hin]
        · have h2 : ¬ (i = 0 ∨ i + 1 = ws.length) := by omega
          rw [if_neg h1, if_neg h0, if_neg h2]
    · have hnone : ws[i]? = none := List.getElem?_eq_none (by omega)
      simp only [hnone, Option.map_none, Option.getD_none]
      rw [if_neg (by omega), if_neg (by omega)]

/-! ## Persisting -/

/-- Updates of distinct bytes of one item cost one write for each byte that differs from what the store held before. -/
theorem effect_updates (c : Config) (item : NvItem) (l : List (Byte × Nat)) (s : State) (hw : Memory.wf s.nv)
    (hin : ∀ p ∈ l, p.2 < c.size item) (hd : (l.map (·.2)).Nodup) :
    effect c (l.map fun (b, i) => .nvUpdate item i b) s =
      some { s with
        nv := Memory.updateAll s.nv (l.map fun (b, i) => (c.nvCell item i, b))
        nvWrites := s.nvWrites + (l.filter fun (b, i) => itemByte c s.nv item i != b).length } := by
  induction l generalizing s with
  | nil => simp
  | cons p l ih =>
    obtain ⟨b, i⟩ := p
    have hp : Prim.perform c (.nvUpdate item i b) s = .done (s.updateCell (c.nvCell item i) b) := rfl
    simp only [List.map_cons, List.nodup_cons] at hd
    have hin' : ∀ p ∈ l, p.2 < c.size item := fun p hp => hin p (List.mem_cons_of_mem _ hp)
    have hi : i < c.size item := hin (b, i) (by simp)
    rw [List.map_cons, effect_cons hp, ih _ (Memory.wf_update _ hw _ _) hin' hd.2]
    simp only [State.updateCell, List.map_cons, Memory.updateAll_cons, Option.some.injEq, State.mk.injEq, true_and,
      and_true]
    have hfilter : l.filter (fun (b', j) => itemByte c (Memory.update s.nv (c.nvCell item i) b) item j != b') =
        l.filter (fun (b', j) => itemByte c s.nv item j != b') := by
      refine List.filter_congr fun q hq => ?_
      have hne : c.nvCell item q.2 ≠ c.nvCell item i := by
        intro he
        have := (c.nvCell_ok item item q.2 i (hin' q hq) hi he).2
        exact hd.1 (this ▸ List.mem_map_of_mem hq)
      simp only [itemByte, Memory.read_update _ hw, hne, if_false]
    rw [hfilter, List.filter_cons]
    unfold Memory.updateCost
    by_cases hb : Memory.read s.nv (c.nvCell item i) = b
    · simp [itemByte, hb]
    · have hb' : (itemByte c s.nv item i != b) = true := by simpa [itemByte] using hb
      simp only [hb, if_false, hb', if_true, List.length_cons]
      omega

/-- `Persist` (R68): the cells updated, one physical write for each byte that differed (R66). -/
theorem effect_persist (c : Config) (item : NvItem) (v : List Byte) (s : State) (hw : Memory.wf s.nv)
    (hv : v.length ≤ c.size item) : effect c (persistPrims item v) s = some (s.withItem c item v) := by
  have hl : ∀ p ∈ v.zipIdx, p.2 < c.size item := by
    intro p hp
    have := List.snd_lt_of_mem_zipIdx hp
    omega
  have hn : (v.zipIdx.map (·.2)).Nodup := by
    have : v.zipIdx.map (·.2) = List.range' 0 v.length := by simp
    rw [this]
    exact List.nodup_range'
  exact effect_updates c item v.zipIdx s hw hl hn

end Sys2Proof.Machine
end

