-- ==== Sys2Proof/Laws/Buffer.lean ====
section
/-! SUPPORT. The queue the ResponseBuffer holds, under push and pop (R280, R282, R285). -/

namespace Sys2Proof.Machine

theorem queue_getElem? (s : State) (i : Nat) :
    s.queue[i]? = if i < s.len then some s.slot[slotIndex (s.rd.val + i)] else none := by
  unfold State.queue
  by_cases h : i < s.len <;> simp [h]

theorem queue_length (s : State) : s.queue.length = s.len := by simp [State.queue]

theorem slotIndex_inj {a b : Nat} (h : slotIndex a = slotIndex b) : a % 16 = b % 16 := congrArg Fin.val h

/-- A push appends to the queue, wherever the cursor stands (R282). -/
theorem queue_store (s : State) (w : SlotWord) (h : s.len < 16) : (s.rbStore w).queue = s.queue ++ [w] := by
  apply List.ext_getElem?
  intro i
  rw [List.getElem?_append, queue_length, queue_getElem?, queue_getElem?]
  simp only [State.rbStore, Fin.getElem_fin, Vector.getElem_set]
  by_cases h1 : i < s.len
  · have : slotIndex (s.rd.val + s.len) ≠ slotIndex (s.rd.val + i) := by
      intro e; have := slotIndex_inj e; omega
    have h2 : (slotIndex (s.rd.val + s.len)).val ≠ (slotIndex (s.rd.val + i)).val := fun e => this (Fin.ext e)
    simp [h1, h2, show i < s.len + 1 by omega]
  · by_cases h2 : i = s.len
    · subst h2; simp
    · simp [h1, show ¬ i < s.len + 1 by omega, show ¬ (i - s.len = 0) by omega]

/-- A pop takes the queue's head (R285). -/
theorem queue_pop (s : State) (h : s.len ≠ 0) :
    s.queue = s.slot[s.rd] :: s.rbPop.2.queue ∧ s.rbPop.1 = s.slot[s.rd].extractLsb' 0 9 ∧
      s.rbPop.2.len = s.len - 1 := by
  have hp : s.rbPop = (s.slot[s.rd].extractLsb' 0 9, { s with rd := s.rd + 1, len := s.len - 1 }) := by
    unfold State.rbPop; rw [if_neg h]
  rw [hp]
  refine ⟨?_, rfl, rfl⟩
  apply List.ext_getElem?
  intro i
  cases i with
  | zero =>
    rw [queue_getElem?, if_pos (by omega)]
    have : slotIndex (s.rd.val + 0) = s.rd := by apply Fin.ext; simp [slotIndex]
    simp only [this]; rfl
  | succ i =>
    rw [List.getElem?_cons_succ, queue_getElem?, queue_getElem?]
    have : slotIndex ((s.rd + 1).val + i) = slotIndex (s.rd.val + (i + 1)) := by
      apply Fin.ext; simp [slotIndex, Fin.val_add]; omega
    simp only [this]
    by_cases hi : i + 1 < s.len
    · rw [if_pos hi, if_pos (by omega)]
    · rw [if_neg hi, if_neg (by omega)]

/-- Pushes append. -/
theorem pushAll_queue (c : Config) (ws : List SlotWord) (s : State) (h : s.len + ws.length ≤ 16) :
    ∃ t, pushAll c ws s = .done t ∧ t.queue = s.queue ++ ws ∧ t.len = s.len + ws.length := by
  induction ws generalizing s with
  | nil => exact ⟨s, rfl, by simp, rfl⟩
  | cons w ws ih =>
    simp at h
    have hfull : s.rbFull = false := decide_eq_false (by simp only [rbCap]; omega)
    have hp : Prim.perform c (.rbPush w) s = .done (s.rbStore w) := by simp [Prim.perform, hfull]
    obtain ⟨t, h1, h2, h3⟩ := ih (s.rbStore w) (by simp [State.rbStore]; omega)
    refine ⟨t, by simp [pushAll, hp, h1], ?_, ?_⟩
    · rw [h2, queue_store s w (by omega)]; simp
    · rw [h3]; simp [State.rbStore]; omega

/-- Pops drain the queue, then give the idle word. -/
theorem popAll_queue (n : Nat) (s : State) : popAll (s.len + n) s = s.queue.map (·.extractLsb' 0 9) ++ List.replicate
    n 0x100 := by
  obtain ⟨k, hk⟩ : ∃ k, s.len = k := ⟨_, rfl⟩
  induction k generalizing s with
  | zero =>
    have hq : s.queue = [] := List.length_eq_zero_iff.mp (by rw [queue_length, hk])
    rw [hq, hk]
    clear hq
    rw [Nat.zero_add]
    induction n with
    | zero => rfl
    | succ n ih =>
      simp only [popAll, List.replicate_succ, List.map_nil, List.nil_append] at ih ⊢
      have : s.rbPop = (wIdle, s) := by unfold State.rbPop; rw [if_pos hk]
      rw [this, ih]; rfl
  | succ k ih =>
    obtain ⟨h1, h2, h3⟩ := queue_pop s (by omega)
    rw [hk, Nat.succ_add]
    simp only [popAll]
    rw [h1, h2]
    have h4 : s.rbPop.2.len = k := by omega
    have := ih s.rbPop.2 h4
    rw [h4] at this
    rw [this]; rfl

theorem rbPop_fields (s : State) : s.rbPop.2.fault = s.fault ∧ s.rbPop.2.nv = s.nv ∧ s.rbPop.2.ioLog = s.ioLog ∧
    s.rbPop.2.rx = s.rx := by
  unfold State.rbPop; split <;> exact ⟨rfl, rfl, rfl, rfl⟩

theorem rbPop_len (s : State) : s.rbPop.2.len = s.len - 1 := by
  unfold State.rbPop; split
  · next h => simp [h]
  · rfl

/-- Pops depend on the buffer alone. -/
theorem popAll_congr : ∀ (n : Nat) (s t : State), s.slot = t.slot → s.rd = t.rd → s.len = t.len → popAll n s =
    popAll n t := by
  intro n
  induction n with
  | zero => intros; rfl
  | succ n ih =>
    intro s t h1 h2 h3
    have e1 : s.rbPop.1 = t.rbPop.1 := by unfold State.rbPop; rw [h3]; split <;> simp [h1, h2]
    simp only [popAll, e1]
    rw [ih s.rbPop.2 t.rbPop.2]
    all_goals (unfold State.rbPop; rw [h3]; split <;> simp [h1, h2, h3])

/-- The queue of a burst is the burst. -/
theorem withBurst_queue (s : State) (ws : List SlotWord) (h : ws.length ≤ 16) : (s.withBurst ws).queue = frameEnds ws :=
    by
  apply List.ext_getElem?
  intro i
  rw [queue_getElem?]
  by_cases hi : i < ws.length
  · have hsl : slotIndex ((s.withBurst ws).rd.val + i) = ⟨i, by simp only [rbCap]; omega⟩ := by
      apply Fin.ext; simp [slotIndex, State.withBurst]; omega
    have hfe : i < (frameEnds ws).length := by rw [frameEnds_length]; exact hi
    simp only [hsl]
    simp [State.withBurst, hi, List.getElem?_eq_getElem hfe]
  · rw [if_neg (by simpa [State.withBurst] using hi), List.getElem?_eq_none (by rw [frameEnds_length]; omega)]

end Sys2Proof.Machine
end

