-- ==== Sys2Proof/Laws/Runs.lean ====
section
/-! SUPPORT. Every run of a handler: which primitives a command may perform, the relations a run keeps, and how its
dependence on the state behaves (a part of a handler is not changed by performing it or a later one). -/

namespace Sys2Proof.Machine

/-! ## Which primitives a command may perform (R37) -/

/-- The primitives of a burst. -/
def Prim.isBurst : Prim → Prop
  | .rbReset => True
  | .rbPush w => w.toNat < 2 ^ wordBits
  | .rbFrame => True
  | _ => False

/-- The primitives the handler of a command is made of, from the access matrix R37. -/
def allows : Instr → Prim → Prop
  | .chtabLoad _, p =>
    (∃ i, p = .readBuf i) ∨ (∃ w, p = .write w) ∨ ∃ i b, i < chTabLen ∧ p = .nvUpdate .chTab i b
  | .atr, p => p.isBurst
  | .chtabRead, p => p.isBurst
  | .setmode0, p => p = .setMode .primary ∨ p = .nvUpdate .cryptMode 0 0
  | .setmode1, p => p = .setMode .alternate ∨ p = .nvUpdate .cryptMode 0 1
  | .setmode2, p => p = .setMode .alternateVerified ∨ p = .nvUpdate .cryptMode 0 2
  | .hs05 _, p => p = .discard
  | .decrypt _, p => p = .readHeld ∨ (∃ x, p = .scratch x) ∨ p.isBurst
  | .setatr b, p => p = .setAtr b ∨ p = .nvUpdate .atrIndex 0 b
  | .keyload n, p =>
    (∃ i, p = .readBuf i) ∨ (∃ w, p = .write w) ∨ ∃ i b, i < keyLen ∧ p = .nvUpdate (.key n.toFin) i b
  | .ident0, p => p.isBurst
  | .ident1, p => p.isBurst
  | .ident2, p => p.isBurst
  | .hs5e0, p => p = .discard ∨ ∃ w, p = .write w
  | .hs5e1, p => p = .discard ∨ ∃ w, p = .write w
  | .hs5e2, p => p = .discard ∨ ∃ w, p = .write w
  | .ent, p => (∃ i, p = .readBuf i) ∨ p.isBurst ∨ p = .discard ∨ ∃ w, p = .write w
  | .hs5f1, p => p = .discard ∨ ∃ w, p = .write w
  | .hs5f2, p => p = .discard ∨ ∃ w, p = .write w
  | .pop, p => p = .rbPop ∨ p = .writeHeld
  | .notready _, p => ∃ w, p = .write w

theorem isBurst_of_mem {ws : List SlotWord} (hw : ∀ w ∈ ws, w.toNat < 2 ^ wordBits) {p : Prim} (h : p ∈ burstPrims ws) :
    p.isBurst := by
  simp only [burstPrims, List.cons_append, List.mem_cons, List.mem_append, List.mem_map, List.not_mem_nil,
    or_false] at h
  rcases h with rfl | ⟨w, hm, rfl⟩ | rfl
  · trivial
  · exact hw w hm
  · trivial

theorem byteWord_lt {b : Byte} : (b.setWidth rbSlotBits).toNat < 2 ^ wordBits := by
  have := b.isLt
  simp only [BitVec.toNat_setWidth, wordBits, rbSlotBits] at *
  omega

theorem word_lt {w : Word9} : (w.setWidth rbSlotBits).toNat < 2 ^ wordBits := by
  have := w.isLt
  simp only [BitVec.toNat_setWidth, wordBits, rbSlotBits] at *
  omega

theorem byteBurst_isBurst {bs : List Byte} {p : Prim} (h : p ∈ byteBurst bs) : p.isBurst := by
  refine isBurst_of_mem ?_ h
  intro w hw
  obtain ⟨b, -, rfl⟩ := List.mem_map.mp hw
  exact byteWord_lt

theorem decryptWords_lt (c : Config) (code : Word16) (s : State) : ∀ w ∈ decryptWords c code s, w.toNat < 2 ^ wordBits := by
  intro w hw
  unfold decryptWords at hw
  split at hw
  · obtain ⟨x, -, rfl⟩ := List.mem_map.mp hw
    exact word_lt
  · simp only [List.mem_cons, List.not_mem_nil, or_false] at hw
    subst hw
    exact word_lt

theorem mem_persistPrims {item : NvItem} {v : List Byte} {p : Prim} (h : p ∈ persistPrims item v) :
    ∃ i b, i < v.length ∧ p = .nvUpdate item i b := by
  simp only [persistPrims, List.mem_map, Prod.exists] at h
  obtain ⟨b, i, hm, rfl⟩ := h
  have := List.snd_lt_of_mem_zipIdx hm
  exact ⟨i, b, by simpa using this, rfl⟩

theorem mem_handshakePrims {c : Config} {site : HsSite} {p : Prim} (h : p ∈ handshakePrims c site) :
    p = .discard ∨ ∃ w, p = .write w := by
  simp only [handshakePrims, List.mem_append, List.mem_replicate, List.mem_map] at h
  rcases h with ⟨-, rfl⟩ | ⟨a, -, rfl⟩
  · exact .inl rfl
  · exact .inr ⟨_, rfl⟩

/-- A handler is made of the primitives its command may perform. -/
theorem parts_allowed (c : Config) (i : Instr) : ∀ q ∈ (handlerOf c i).parts, ∀ s, ∀ p ∈ q s, allows i p := by
  intro q hq s p hp
  cases i
  case chtabLoad v =>
    simp only [handlerOf, chtabLoadHandler, Handler.seq, List.mem_cons, List.not_mem_nil, or_false] at hq
    rcases hq with rfl | rfl
    · simp only [payloadReads, List.mem_cons, List.mem_map] at hp
      rcases hp with rfl | ⟨i, -, rfl⟩
      · exact .inr (.inl ⟨_, rfl⟩)
      · exact .inl ⟨i, rfl⟩
    · simp only [List.mem_append, List.mem_cons, List.not_mem_nil, or_false] at hp
      rcases hp with hp | rfl
      · obtain ⟨i, b, hi, rfl⟩ := mem_persistPrims hp
        exact .inr (.inr ⟨i, b, by simpa using hi, rfl⟩)
      · exact .inr (.inl ⟨_, rfl⟩)
  case keyload n =>
    simp only [handlerOf, keyloadHandler, Handler.seq, List.mem_cons, List.not_mem_nil, or_false] at hq
    rcases hq with rfl | rfl
    · simp only [keyPair, List.mem_cons, List.mem_flatMap, List.not_mem_nil, or_false] at hp
      rcases hp with rfl | ⟨q, -, rfl | rfl | rfl⟩
      · exact .inr (.inl ⟨_, rfl⟩)
      · exact .inl ⟨_, rfl⟩
      · exact .inl ⟨_, rfl⟩
      · exact .inr (.inl ⟨_, rfl⟩)
    · obtain ⟨i, b, hi, rfl⟩ := mem_persistPrims hp
      exact .inr (.inr ⟨i, b, by simpa using hi, rfl⟩)
  case decrypt b =>
    simp only [handlerOf, decryptHandler, List.mem_cons, List.not_mem_nil, or_false] at hq
    rcases hq with rfl | rfl | rfl
    · simp only [messageReads, List.mem_flatMap, List.mem_cons, List.not_mem_nil, or_false] at hp
      rcases hp with ⟨i, -, rfl | rfl⟩
      · exact .inl rfl
      · exact .inr (.inl ⟨_, rfl⟩)
    · obtain ⟨x, -, rfl⟩ := List.mem_map.mp hp
      exact .inr (.inl ⟨x, rfl⟩)
    · exact .inr (.inr (isBurst_of_mem (decryptWords_lt c _ s) hp))
  case ent =>
    simp only [handlerOf, entHandler, Handler.seq, List.mem_cons, List.not_mem_nil, or_false] at hq
    rcases hq with rfl | rfl
    · rw [payloadReads_one] at hp
      exact .inl ⟨_, List.mem_singleton.mp hp⟩
    · change p ∈ entPrims c s.buf[0] s.nv at hp
      unfold entPrims at hp
      split_ifs at hp
      · exact .inr (.inl (byteBurst_isBurst hp))
      · exact .inr (.inl (byteBurst_isBurst hp))
      · exact .inr (.inr (mem_handshakePrims hp))
      · exact .inr (.inr (mem_handshakePrims hp))
      · simp only [List.mem_cons, List.not_mem_nil, or_false] at hp
        exact .inr (.inr (.inr ⟨_, hp⟩))
  all_goals
    simp only [handlerOf, atrHandler, chtabReadHandler, setmodeHandler, setatrHandler, hs05Handler, identHandler,
      handshakeHandler, popHandler, notreadyHandler, Handler.fixed, List.mem_cons, List.not_mem_nil, or_false] at hq
    subst hq
    simp only [allows]
    first
    | exact byteBurst_isBurst hp
    | exact mem_handshakePrims hp
    | exact List.eq_of_mem_replicate hp
    | exact ⟨_, by simpa using hp⟩
    | simpa [persistPrims, CryptMode.toByte] using hp

/-! ## Relations a run keeps -/

/-- A relation between states that survives phase changes, raised faults and the primitives in `ok`. -/
structure Kept (c : Config) (ok : Prim → Prop) (R : State → State → Prop) : Prop where
  refl : ∀ s, R s s
  trans : ∀ {s t u}, R s t → R t u → R s u
  phase : ∀ s ph, R s (s.setPhase ph)
  raise : ∀ s f, R s (s.raise f)
  prim : ∀ p s s', ok p → p.perform c s = .done s' → R s s'

/-- The state a run has come to. -/
def Ran.state : Ran → State
  | .finished s => s
  | .stopped s => s

theorem Kept.runPrims {c : Config} {ok : Prim → Prop} {R : State → State → Prop} (K : Kept c ok R) (ps : List Prim)
    (hps : ∀ p ∈ ps, ok p) (s : State) : R s (runPrims c ps s).state := by
  induction ps generalizing s with
  | nil => exact K.refl s
  | cons p ps ih =>
    simp only [Machine.runPrims]
    cases h : p.perform c s with
    | blocked => exact K.refl s
    | raised f => exact K.raise s f
    | done s' =>
      obtain ⟨ph, hph⟩ := State.advance_cases s'
      have h1 : R s s'.advance :=
        K.trans (K.prim p s s' (hps p (by simp)) h) (hph ▸ K.phase s' ph)
      exact K.trans h1 (ih (fun p hp => hps p (by simp [hp])) s'.advance)

theorem Kept.runParts {c : Config} {ok : Prim → Prop} {R : State → State → Prop} (K : Kept c ok R) {s₀ : State}
    (ps : List (State → List Prim)) (hps : ∀ q ∈ ps, ∀ s, R s₀ s → ∀ p ∈ q s, ok p) (k : Nat) (s : State)
    (hs : R s₀ s) : R s₀ (runParts c ps k s).state := by
  induction ps generalizing k s with
  | nil => exact hs
  | cons q ps ih =>
    have h1 := K.trans hs (K.runPrims ((q s).drop k)
      (fun p hp => hps q (by simp) s hs p (List.mem_of_mem_drop hp)) s)
    simp only [Machine.runParts]
    split
    · next s' h' =>
      rw [h'] at h1
      exact ih (fun r hr => hps r (by simp [hr])) _ s' h1
    · next s' h' =>
      rw [h'] at h1
      exact h1

/-- A relation kept by the primitives a handler is made of in the states the relation reaches is kept by the handler. -/
theorem Kept.runHandler {c : Config} {ok : Prim → Prop} {R : State → State → Prop} (K : Kept c ok R) {code : Word16}
    {h : Handler} {s t : State} (hok : ∀ q ∈ h.parts, ∀ u, R s u → ∀ p ∈ q u, ok p)
    (he : runHandler c code h s = .next t) : R s t := by
  unfold Machine.runHandler at he
  split at he
  · cases he
  · simp only [Host.Outcome.next.injEq] at he
    subst he
    obtain ⟨ph, hph⟩ := State.enter_cases s code
    rw [hph]
    have h1 := K.runParts h.parts hok (s.setPhase ph).stepIndex (s.setPhase ph) (K.phase s ph)
    unfold Handler.run
    split
    · next s' h' =>
      rw [h'] at h1
      exact K.trans h1 (K.phase s' .idle)
    · next s' h' =>
      rw [h'] at h1
      exact h1

/-- A relation kept by the primitives of a command is kept by the command. -/
theorem Kept.execWith {c : Config} {i : Instr} {R : State → State → Prop} (K : Kept c (allows i) R) {s t : State}
    (he : execWith c i s = .next t) : R s t :=
  K.runHandler (fun q hq u _ => parts_allowed c i q hq u) he

/-! ## What each primitive changes -/

/-- A burst changes nothing but the ResponseBuffer. -/
theorem burst_perform {c : Config} {p : Prim} {s s' : State} (hp : p.isBurst) (h : p.perform c s = .done s') :
    s' = { s with slot := s'.slot, rd := s'.rd, len := s'.len } := by
  cases p
  case readBuf i => exact hp.elim
  case readHeld => exact hp.elim
  case discard => exact hp.elim
  case write w => exact hp.elim
  case rbPop => exact hp.elim
  case writeHeld => exact hp.elim
  case setMode m => exact hp.elim
  case setAtr b => exact hp.elim
  case nvUpdate item i b => exact hp.elim
  case scratch x => exact hp.elim
  case rbReset =>
    simp only [Prim.perform, PrimResult.done.injEq] at h
    simp only [← h, State.rbReset]
  case rbPush w =>
    simp only [Prim.perform] at h
    by_cases hf : s.rbFull = true
    · simp [hf] at h
    · simp only [hf, Bool.false_eq_true, if_false, PrimResult.done.injEq] at h
      simp only [← h, State.rbStore]
  case rbFrame =>
    simp only [Prim.perform, PrimResult.done.injEq] at h
    by_cases hl : 1 ≤ s.len
    · simp only [← h, State.rbFrame, if_pos hl, State.frameSlot]
    · simp only [← h, State.rbFrame, if_neg hl]

/-- A discarding read changes nothing but the channel. -/
theorem discard_perform {c : Config} {s s' : State} (h : Prim.perform c .discard s = .done s') :
    s' = { s with rx := s'.rx, ioLog := s'.ioLog } := by
  simp only [Prim.perform, State.readThen, State.chRead] at h
  cases hr : s.rx with
  | nil => simp [hr] at h
  | cons w rest =>
    simp only [hr, PrimResult.done.injEq] at h
    subst h; rfl

/-- A payload read changes the channel and the handler-local bytes. -/
theorem readBuf_perform {c : Config} {i : Fin bufLen} {s s' : State} (h : Prim.perform c (.readBuf i) s = .done s') :
    s' = { s with rx := s'.rx, ioLog := s'.ioLog, buf := s'.buf } := by
  simp only [Prim.perform, State.readThen, State.chRead] at h
  cases hr : s.rx with
  | nil => simp [hr] at h
  | cons w rest =>
    simp only [hr, PrimResult.done.injEq] at h
    subst h; rfl

/-- A held read changes the channel and the word held. -/
theorem readHeld_perform {c : Config} {s s' : State} (h : Prim.perform c .readHeld s = .done s') :
    s' = { s with rx := s'.rx, ioLog := s'.ioLog, held := s'.held } ∧ s.rx = s'.held :: s'.rx := by
  simp only [Prim.perform, State.readThen, State.chRead] at h
  cases hr : s.rx with
  | nil => simp [hr] at h
  | cons w rest =>
    simp only [hr, PrimResult.done.injEq] at h
    subst h; exact ⟨rfl, rfl⟩

/-- A write changes the log. -/
theorem write_perform {c : Config} {w : Word9} {s s' : State} (h : Prim.perform c (.write w) s = .done s') :
    s' = { s with ioLog := s.ioLog ++ [.tx w] } := by
  simp only [Prim.perform, PrimResult.done.injEq] at h
  subst h; rfl

/-- POP's first primitive changes the cursor, the length and the word held. -/
theorem rbPop_perform {c : Config} {s s' : State} (h : Prim.perform c .rbPop s = .done s') :
    s' = { s with rd := s'.rd, len := s'.len, held := s'.held } := by
  simp only [Prim.perform, PrimResult.done.injEq] at h
  subst h
  by_cases hl : s.len = 0
  · simp only [State.rbPop, if_pos hl, State.hold]
  · simp only [State.rbPop, if_neg hl, State.hold]

/-- POP's second primitive changes the log. -/
theorem writeHeld_perform {c : Config} {s s' : State} (h : Prim.perform c .writeHeld s = .done s') :
    s' = { s with ioLog := s.ioLog ++ [.tx s.held] } := by
  simp only [Prim.perform, PrimResult.done.injEq] at h
  subst h; rfl

/-- A byte update changes the store and its count. -/
theorem nvUpdate_perform {c : Config} {item : NvItem} {i : Nat} {b : Byte} {s s' : State}
    (h : Prim.perform c (.nvUpdate item i b) s = .done s') :
    s' = { s with nv := Memory.update s.nv (c.nvCell item i) b, nvWrites := s'.nvWrites } := by
  simp only [Prim.perform, PrimResult.done.injEq] at h
  subst h; rfl

/-- A scratch write changes the scratch elements, `chk`, and the model's locals of the alternate cipher. -/
theorem scratch_perform {c : Config} {x : Scratch} {s s' : State} (h : Prim.perform c (.scratch x) s = .done s') :
    s' = { s with
      msg := s'.msg
      wk := s'.wk
      cw := s'.cw
      aux := s'.aux
      date := s'.date
      chk := s'.chk
      v0 := s'.v0
      v1 := s'.v1
      altRounds := s'.altRounds } := by
  simp only [Prim.perform, PrimResult.done.injEq] at h
  subst h
  cases x <;> rfl

/-- The element a write changes is one the call of that mode writes (R37, R262). -/
def Scratch.writtenIn : CryptMode → Scratch → Bool
  | .primary, .msg _ => true
  | .primary, .wk _ => true
  | .primary, .aux _ => true
  | .primary, .date _ => true
  | .primary, .cw _ => true
  | .primary, _ => false
  | _, .wk _ => false
  | _, .aux _ => false
  | _, .date _ => false
  | _, .cw _ => false
  | _, _ => true

theorem engineWrites_in {c : Config} {code : Word16} {s : State} {x : Scratch} (hx : x ∈ engineWrites c code s) :
    x.writtenIn s.cryptMode = true := by
  obtain ⟨m, hm⟩ : ∃ m, s.cryptMode = m := ⟨_, rfl⟩
  rw [hm]
  cases m <;> simp only [engineWrites, hm] at hx <;> cases x <;>
    first | rfl | (simp [primaryWrites] at hx; done) | (simp [alternateWrites] at hx; done)

/-! ## The parts of a handler -/

/-- Performing a primitive of the part `r` does not change the part `q`. -/
def KeepsPart (c : Config) (q r : State → List Prim) : Prop :=
  ∀ s p s', p ∈ r s → p.perform c s = .done s' → q s' = q s

/-- What the parts of a handler depend on: nothing a primitive of the same part or a later one changes, not the phase, not
the words the host has still to be heard of. -/
structure Stable (c : Config) (h : Handler) : Prop where
  phase : ∀ q ∈ h.parts, PhaseFree q
  send : ∀ q ∈ h.parts, ∀ s ws, q (s.hostSend ws) = q s
  self : ∀ q ∈ h.parts, KeepsPart c q q
  later : h.parts.Pairwise (KeepsPart c)

/-- A handler of one part. -/
theorem one_stable (c : Config) (q : State → List Prim) (h1 : PhaseFree q) (h2 : ∀ s ws, q (s.hostSend ws) = q s)
    (h3 : KeepsPart c q q) : Stable c ⟨[q]⟩ := by
  refine ⟨?_, ?_, ?_, by simp⟩ <;>
    (intro r hr; simp only [List.mem_cons, List.not_mem_nil, or_false] at hr; subst hr; assumption)

theorem fixed_stable (c : Config) (ps : List Prim) : Stable c (.fixed ps) := by
  refine one_stable c (fun _ => ps) (fun _ _ => rfl) (fun _ _ => rfl) fun _ _ _ _ _ => rfl

/-- A handler of a fixed part and another. -/
theorem seq_stable (c : Config) (front : List Prim) (q : State → List Prim) (h1 : PhaseFree q)
    (h2 : ∀ s ws, q (s.hostSend ws) = q s) (h3 : KeepsPart c q q) : Stable c (.seq front q) := by
  refine ⟨?_, ?_, ?_, by simp [Handler.seq, KeepsPart]⟩ <;>
    (intro r hr; simp only [Handler.seq, List.mem_cons, List.not_mem_nil, or_false] at hr; rcases hr with rfl | rfl)
  · exact fun _ _ => rfl
  · exact h1
  · exact fun _ _ => rfl
  · exact h2
  · exact fun _ _ _ _ _ => rfl
  · exact h3

/-- No write of a CipherEngine call changes which writes it has. -/
theorem engineWrites_kept {c : Config} {code : Word16} {s : State} {x : Scratch} (hx : x ∈ engineWrites c code s) :
    engineWrites c code (s.writeScratch c x) = engineWrites c code s := by
  have hmode : s.cryptMode = .primary ∨ s.cryptMode = .alternate ∨ s.cryptMode = .alternateVerified := by
    cases s.cryptMode <;> simp
  have hc : (s.writeScratch c x).cryptMode = s.cryptMode := by simp
  rcases hmode with hm | hm | hm
  · simp only [engineWrites, hm] at hx
    simp only [engineWrites, hc, hm]
    cases x <;> first | rfl | (simp [primaryWrites] at hx)
  · simp only [engineWrites, hc, hm]
  · simp only [engineWrites, hc, hm]

theorem handler_stable (c : Config) (i : Instr) : Stable c (handlerOf c i) := by
  cases i
  case setmode0 => exact fixed_stable c _
  case setmode1 => exact fixed_stable c _
  case setmode2 => exact fixed_stable c _
  case hs05 v => exact fixed_stable c _
  case setatr b => exact fixed_stable c _
  case ident0 => exact fixed_stable c _
  case ident1 => exact fixed_stable c _
  case ident2 => exact fixed_stable c _
  case hs5e0 => exact fixed_stable c _
  case hs5e1 => exact fixed_stable c _
  case hs5e2 => exact fixed_stable c _
  case hs5f1 => exact fixed_stable c _
  case hs5f2 => exact fixed_stable c _
  case pop => exact fixed_stable c _
  case notready code => exact fixed_stable c _
  case chtabLoad v =>
    refine seq_stable c _ _ (fun _ _ => rfl) (fun _ _ => rfl) fun s p s' hp h => ?_
    simp only [List.mem_append, List.mem_cons, List.not_mem_nil, or_false] at hp
    rcases hp with hp | rfl
    · obtain ⟨i, b, -, rfl⟩ := mem_persistPrims hp
      rw [nvUpdate_perform h]
    · rw [write_perform h]
  case atr =>
    refine one_stable c _ (fun _ _ => rfl) (fun _ _ => rfl) fun s p s' hp h => ?_
    rw [burst_perform (byteBurst_isBurst hp) h]
  case chtabRead =>
    refine one_stable c _ (fun _ _ => rfl) (fun _ _ => rfl) fun s p s' hp h => ?_
    rw [burst_perform (byteBurst_isBurst hp) h]
  case keyload n =>
    refine seq_stable c _ _ (fun _ _ => rfl) (fun _ _ => rfl) fun s p s' hp h => ?_
    obtain ⟨i, b, -, rfl⟩ := mem_persistPrims hp
    rw [nvUpdate_perform h]
  case decrypt b =>
    have burst : ∀ (q : State → List Prim), (∀ s slot rd len, q { s with slot := slot, rd := rd, len := len } = q s) →
        KeepsPart c q fun s => burstPrims (decryptWords c (encode (.decrypt b)) s) := by
      intro q hq s p s' hp h
      rw [burst_perform (isBurst_of_mem (decryptWords_lt c _ s) hp) h]
      exact hq _ _ _ _
    have hE : KeepsPart c (fun s => (engineWrites c (encode (.decrypt b)) s).map .scratch)
        fun s => (engineWrites c (encode (.decrypt b)) s).map .scratch := by
      intro s p s' hp h
      obtain ⟨x, hx, rfl⟩ := List.mem_map.mp hp
      simp only [Prim.perform, PrimResult.done.injEq] at h
      subst h
      exact congrArg _ (engineWrites_kept hx)
    have hEB := burst (fun s => (engineWrites c (encode (.decrypt b)) s).map .scratch) (fun _ _ _ _ => rfl)
    have hBB := burst (fun s => burstPrims (decryptWords c (encode (.decrypt b)) s)) (fun _ _ _ _ => rfl)
    refine ⟨?_, ?_, ?_, ?_⟩
    · intro q hq
      simp only [handlerOf, decryptHandler, List.mem_cons, List.not_mem_nil, or_false] at hq
      rcases hq with rfl | rfl | rfl <;> exact fun _ _ => rfl
    · intro q hq
      simp only [handlerOf, decryptHandler, List.mem_cons, List.not_mem_nil, or_false] at hq
      rcases hq with rfl | rfl | rfl <;> exact fun _ _ => rfl
    · intro q hq
      simp only [handlerOf, decryptHandler, List.mem_cons, List.not_mem_nil, or_false] at hq
      rcases hq with rfl | rfl | rfl
      · exact fun _ _ _ _ _ => rfl
      · exact hE
      · exact hBB
    · simp only [handlerOf, decryptHandler, List.pairwise_cons, List.mem_cons, List.not_mem_nil, or_false]
      refine ⟨fun _ _ _ _ _ _ _ => rfl, ?_, by simp⟩
      rintro q rfl
      exact hEB
  case ent =>
    refine seq_stable c _ _ (fun _ _ => rfl) (fun _ _ => rfl) fun s p s' hp h => ?_
    have hp' : p.isBurst ∨ p = .discard ∨ ∃ w, p = .write w := by
      change p ∈ entPrims c s.buf[0] s.nv at hp
      unfold entPrims at hp
      split_ifs at hp
      · exact .inl (byteBurst_isBurst hp)
      · exact .inl (byteBurst_isBurst hp)
      · exact .inr (mem_handshakePrims hp)
      · exact .inr (mem_handshakePrims hp)
      · exact .inr (.inr ⟨_, by simpa using hp⟩)
    rcases hp' with hb | rfl | ⟨w, rfl⟩
    · rw [burst_perform hb h]
    · rw [discard_perform h]
    · rw [write_perform h]

end Sys2Proof.Machine
end

