-- ==== Sys2Proof/Laws/Effects.lean ====
section
/-! SUPPORT. The next state of a command from the effects of its parts, and the effects the commands share. -/

namespace Sys2Proof.Machine

/-! ## Commands from effects -/

/-- A command that finishes, from the effect of its parts. -/
theorem parts_next {c : Config} {i : Instr} {s s1 : State} (hp : s.atStart i)
    (h : effectParts c (handlerOf c i).parts s = some s1) : execWith c i s = .next s1.toIdle :=
  runHandler_of_effect hp (handler_stable c i).phase h

/-- A command whose primitives are fixed. -/
theorem fixed_next {c : Config} {i : Instr} {ps : List Prim} {s s1 : State} (hh : handlerOf c i = .fixed ps)
    (hp : s.atStart i) (h : effect c ps s = some s1) : execWith c i s = .next s1.toIdle :=
  parts_next hp (by rw [hh, Handler.fixed, effectParts_cons h]; rfl)

/-- A command of one part. -/
theorem one_next {c : Config} {i : Instr} {q : State → List Prim} {s s1 : State} (hh : handlerOf c i = ⟨[q]⟩)
    (hp : s.atStart i) (h : effect c (q s) s = some s1) : execWith c i s = .next s1.toIdle :=
  parts_next hp (by rw [hh, effectParts_cons h]; rfl)

/-- A command of a fixed part and one that depends on the state. -/
theorem seq_next {c : Config} {i : Instr} {front : List Prim} {back : State → List Prim} {s s1 s2 : State}
    (hh : handlerOf c i = .seq front back) (hp : s.atStart i) (h1 : effect c front s = some s1)
    (h2 : effect c (back s1) s1 = some s2) : execWith c i s = .next s2.toIdle :=
  parts_next hp (by rw [hh, Handler.seq, effectParts_cons h1, effectParts_cons h2]; rfl)

theorem pop_next (c : Config) {s : State} (hp : s.atStart .pop) : execWith c .pop s = .next
    ((s.rbPop.2.hold s.rbPop.1).chWrite s.rbPop.1).toIdle := by
  refine fixed_next (ps := [.rbPop, .writeHeld]) rfl hp ?_
  simp [effect, Prim.perform]

/-! ## Shared effects -/

/-- `HANDSHAKE(c)` (R241). -/
theorem effect_handshake (c : Config) (site : HsSite) {s : State} (ws rest : List Word9)
    (hl : ws.length = c.hsLen site) (hrx : s.rx = ws ++ rest) :
    effect c (handshakePrims c site) s = some ((s.withRead ws rest).withSent ((c.hsAck site).map AckWord.word)) := by
  rw [handshakePrims, effect_append, ← hl, effect_discards c ws rest hrx, Option.bind_some]
  have := effect_writes c ((c.hsAck site).map AckWord.word) (s.withRead ws rest)
  rw [List.map_map] at this
  exact this

theorem effect_readBuf0 (c : Config) {s : State} {w : Word9} {rest : List Word9} (h : s.rx = w :: rest) :
    effect c [.readBuf (bufAt 0)] s = some { s.withRead [w] rest with buf := s.buf.set 0 (dataByte w) } := by
  simp [effect, Prim.perform, State.readThen, State.chRead, h, State.withRead]

/-- A one-byte item persisted, whatever the store. -/
theorem persist_one (c : Config) (item : NvItem) (b : Byte) (s : State) :
    effect c (persistPrims item [b]) s = some (s.withItem c item [b]) := by
  simp [persistPrims, effect, Prim.perform, State.withItem, persistWrites, State.updateCell, differing,
      Memory.updateCost, itemByte, List.filter_cons]
  split <;> simp_all

theorem effect_updates_any (c : Config) (l : List Prim) (hl : ∀ p ∈ l, ∃ item i b, p = .nvUpdate item i b)
    (s : State) :
    ∃ s', effect c l s = some s' ∧ s'.rx = s.rx ∧ s'.fault = s.fault := by
  induction l generalizing s with
  | nil => exact ⟨s, rfl, rfl, rfl⟩
  | cons p l ih =>
    obtain ⟨item, i, b, rfl⟩ := hl p (by simp)
    obtain ⟨s', h1, h2, h3⟩ := ih (fun p hp => hl p (by simp [hp])) (s.updateCell (c.nvCell item i) b)
    exact ⟨s', by rw [effect_cons (s' := s.updateCell (c.nvCell item i) b) rfl, h1], h2, h3⟩

/-- The primitives of `Persist` have the effect of the one operation (R68). -/
theorem effect_persist_eq (c : Config) (item : NvItem) (v : List Byte) (s : State) :
    effect c (persistPrims item v) s = some (s.persist c item v) := by
  have key : ∀ (l : List (Byte × Nat)) (s : State), effect c (l.map fun (b, i) => .nvUpdate item i b) s =
      some (s.updateCells (l.map fun (b, i) => (c.nvCell item i, b))) := by
    intro l
    induction l with
    | nil => intro s; rfl
    | cons p l ih =>
      intro s
      rw [List.map_cons, effect_cons (s' := s.updateCell (c.nvCell item p.2) p.1) rfl, ih]
      rfl
  exact key v.zipIdx s

/-- Persisting reads no word and raises nothing. -/
theorem persist_any (c : Config) (item : NvItem) (v : List Byte) (s : State) :
    ∃ s', effect c (persistPrims item v) s = some s' ∧ s'.rx = s.rx ∧ s'.fault = s.fault :=
  effect_updates_any c _ (fun p hp => by obtain ⟨i, b, -, h⟩ := mem_persistPrims hp; exact ⟨_, _, _, h⟩) s

/-- The fixed primitives of KEYLOAD, written out (R209). -/
theorem keyload_front (c : Config) (n : BitVec 4) : keyloadHandler c n = .seq
    [.write c.ackKeyStart.word, .readBuf (bufAt 0), .readBuf (bufAt 1), .write c.ackKeyPair.word, .readBuf (bufAt 2), .readBuf (bufAt 3),
      .write c.ackKeyPair.word, .readBuf (bufAt 4), .readBuf (bufAt 5), .write c.ackKeyPair.word, .readBuf (bufAt 6), .readBuf (bufAt 7),
      .write c.ackKeyPair.word] fun s => persistPrims (.key n.toFin) (s.buf.toList.take keyLen) := rfl

theorem set_all8 (v : Bytes 8) (a0 a1 a2 a3 a4 a5 a6 a7 : Byte) :
    (((((((v.set 0 a0).set 1 a1).set 2 a2).set 3 a3).set 4 a4).set 5 a5).set 6 a6).set 7 a7 =
        #v[a0, a1, a2, a3, a4, a5, a6, a7] := by
  refine Vector.ext fun i hi => ?_
  interval_cases i <;> simp

theorem chTab_toList (c : Config) (m : Memory) : (chTabOf c m).toList = (List.range 8).map fun i => Memory.read m
    (c.nvCell .chTab i) := by
  rw [chTabOf, vecOf_eight]
  simp [itemByte, List.range_succ]

/-- The kept bytes are a whole channel table, and a whole key. -/
@[simp] theorem buf_take_chTab (b : Bytes bufLen) : b.toList.take chTabLen = b.toList :=
  List.take_of_length_le (by simp)

@[simp] theorem buf_take_key (b : Bytes bufLen) : b.toList.take keyLen = b.toList :=
  List.take_of_length_le (by simp)

/-! ## DECRYPT -/

/-- The words of the outcome fit the buffer (R10). -/
theorem decryptWords_length (c : Config) (code : Word16) (s : State) : (decryptWords c code s).length ≤ rbCap := by
  unfold decryptWords
  split
  · simpa using (c.decOkBurst_ok s.cw (keyIndexOf c code)).1
  · simp [rbCap]

/-- What the CipherEngine call of a DECRYPT leaves in mode 0 (R120). -/
def State.afterPrimary (s : State) (c : Config) (code : Word16) : State :=
  let o := decryptPrimary c (primaryKey c code s) s.msg
  { s with wk := o.wk, aux := o.aux, date := o.date, cw := o.cw }

/-- What it leaves in modes 1 and 2 (R160). -/
def State.afterAlternate (s : State) (c : Config) (code : Word16) (verify : Bool) : State :=
  let x := altOutcome c verify (alternateKey c code s) s.msg
  let o := decryptAlternate c verify (alternateKey c code s) s.msg
  { s with msg := o.msg, cw := o.cw, chk := o.chk, altRounds := o.rounds, v0 := x.v0, v1 := x.v1 }

/-- What it leaves, by the mode (R262). -/
def State.afterEngine (s : State) (c : Config) (code : Word16) : State :=
  match s.cryptMode with
  | .primary => s.afterPrimary c code
  | .alternate => s.afterAlternate c code false
  | .alternateVerified => s.afterAlternate c code true

/-- The writes of the call, all of them. -/
theorem effect_engineWrites (c : Config) (code : Word16) (s : State) :
    effect c ((engineWrites c code s).map .scratch) s = some (s.afterEngine c code) := by
  obtain ⟨m, hm⟩ : ∃ m, s.cryptMode = m := ⟨_, rfl⟩
  cases m <;> simp only [engineWrites, State.afterEngine, hm]
  · exact effect_primaryWrites c _ _ s
  · exact effect_alternateWrites c code false s
  · exact effect_alternateWrites c code true s

/-- The call in mode 0. -/
theorem engine_primary {c : Config} {code : Word16} {S : State} (hm : S.cryptMode = .primary) :
    S.afterEngine c code = S.afterPrimary c code := by
  unfold State.afterEngine; rw [hm]

/-- The call in modes 1 and 2. -/
theorem engine_alt {c : Config} {code : Word16} {S : State} {v : Bool}
    (hm : S.cryptMode = if v then .alternateVerified else .alternate) :
    S.afterEngine c code = S.afterAlternate c code v := by
  unfold State.afterEngine; rw [hm]; cases v <;> rfl

/-- The state DECRYPT calls the CipherEngine in: its sixteen words read. -/
def State.withMessage (s : State) (w : Fin 16 → Word9) (rest : List Word9) : State :=
  { s.withRead (List.ofFn w) rest with msg := vecOf fun i => dataByte (w i), held := w 15 }

/-- DECRYPT with its sixteen words: the call, then the burst of its outcome. -/
theorem decrypt_next (c : Config) {b : Byte} {s : State} (w : Fin 16 → Word9) (rest : List Word9)
    (hp : s.atStart (.decrypt b)) (hrx : s.rx = List.ofFn w ++ rest) :
    let s2 := (s.withMessage w rest).afterEngine c (encode (.decrypt b))
    execWith c (.decrypt b) s = .next (s2.withBurst (decryptWords c (encode (.decrypt b)) s2)).toIdle := by
  intro s2
  refine parts_next hp ?_
  change effectParts c (decryptHandler c (encode (.decrypt b))).parts s = _
  rw [decryptHandler, effectParts_cons (effect_messageReads c w rest hrx),
    effectParts_cons (effect_engineWrites c _ _), effectParts_cons (effect_burst c _ s2 (decryptWords_length _ _ _))]
  rfl

theorem words_ok {c : Config} {code : Word16} {S : State} (h : decryptOk c code S = true) :
    decryptWords c code S = (c.decOkBurst S.cw (keyIndexOf c code)).map (·.setWidth 16) := by
  unfold decryptWords; rw [if_pos h]

theorem words_fail {c : Config} {code : Word16} {S : State} (h : ¬ decryptOk c code S = true) :
    decryptWords c code S = [0x010A] := by
  unfold decryptWords; rw [if_neg h]; rfl

/-- The outcome in modes 1 and 2 is `chk` (R267). -/
theorem ok_alt {c : Config} {code : Word16} {S : State} (hm : S.cryptMode ≠ .primary) : decryptOk c code S =
    (S.chk == 1) := by
  unfold decryptOk; split <;> simp_all

theorem validates_iff (c : Config) (code : Word16) (S : State) : validates c code S = true ↔ c.validatingPolicy
    (S.atrIndex.extractLsb' 4 4) = true ∧ c.audienceOf code S.msg (nvViewOf c S.nv) ≠ c.audSpecial := by
  simp only [validates, Bool.and_eq_true, bne_iff_ne]; exact Iff.rfl

end Sys2Proof.Machine
end

