-- ==== Sys2Proof/Laws/Steps.lean ====
section
/-! SUPPORT. Steps and runs of steps: sampling, the shape of a step, a run of a handler as it goes on or stops, and a run
with more words. -/

namespace Sys2Proof.Machine

/-! ## Steps -/

/-- A sampling state samples. -/
theorem stepWith_sampling {c : Config} {s : State} (hf : s.fault = none) (hs : s.sampling = true) :
    stepWith c s = sample s := by
  cases hp : s.phase <;> simp [stepWith, stepBy, hf, hp, State.sampling] at hs ⊢

/-- Sampling with a word is one read and detection. -/
theorem sample_cons {s : State} {w : Word9} {rest : List Word9} (h : s.rx = w :: rest) :
    sample s = .next ((s.withRead [w] rest).detect w) := by
  simp [sample, State.chRead, h, State.withRead]

theorem stepsWith_succ {c : Config} {n : Nat} {s t : State} (h : stepWith c s = .next t) :
    stepsWith c (n + 1) s = stepsWith c n t := by
  simp [stepsWith, h, nextState]

/-- A run of steps splits. -/
theorem stepsWith_add (c : Config) (m n : Nat) (s : State) :
    stepsWith c (m + n) s = (stepsWith c m s).bind (stepsWith c n) := by
  induction m generalizing s with
  | zero => simp [stepsWith]
  | succ m ih =>
    rw [Nat.succ_add]
    simp only [stepsWith]
    cases nextState (stepWith c s) <;> simp [ih]

theorem primStepsWith_one {c : Config} {s t : State} (h : primStepWith c s = .next t) (n : Nat) : primStepsWith c
    (n + 1) s = primStepsWith c n t := by
  simp [primStepsWith, h, nextState]

/-- Detection changes the phase only, and dispatches at primitive step 0. -/
theorem detect_eq (s : State) (w : Word9) : ∃ ph, s.detect w = s.setPhase ph ∧ ∀ code k, ph = .run code k → k = 0 := by
  unfold State.detect
  split
  · split
    · exact ⟨_, rfl, by simp⟩
    · exact ⟨_, rfl, by simp⟩
  · split
    · exact ⟨_, rfl, by simp⟩
    · exact ⟨_, rfl, by simp⟩

/-- All a step with a next state can be: detection on a word, or the run of a command. -/
theorem step_cases {c : Config} {s t : State} (h : stepWith c s = .next t) :
    s.fault = none ∧ ((∃ w rest, s.sampling = true ∧ s.rx = w :: rest ∧ t = (s.withRead [w] rest).detect w) ∨
      (∃ code k, s.phase = .run code k ∧ execWith c (decodeWith c code) s = .next t)) := by
  cases hf : s.fault with
  | some g => simp [stepWith, stepBy, hf] at h
  | none =>
    refine ⟨rfl, ?_⟩
    cases hp : s.phase with
    | run code k => right; exact ⟨code, k, rfl, by simpa [stepWith, stepBy, hf, hp] using h⟩
    | idle =>
      left
      have hs : s.sampling = true := by simp [State.sampling, hp]
      rw [stepWith_sampling hf hs] at h
      cases hrx : s.rx with
      | nil => simp [sample, State.chRead, hrx] at h
      | cons w rest => rw [sample_cons hrx] at h; simp at h; exact ⟨w, rest, hs, rfl, h.symm⟩
    | cand x =>
      left
      have hs : s.sampling = true := by simp [State.sampling, hp]
      rw [stepWith_sampling hf hs] at h
      cases hrx : s.rx with
      | nil => simp [sample, State.chRead, hrx] at h
      | cons w rest => rw [sample_cons hrx] at h; simp at h; exact ⟨w, rest, hs, rfl, h.symm⟩

/-! ## Handlers -/

/-- A command is stuck exactly before a `ChRead()` with no word, and it has no other stop. -/
theorem runHandler_fault {c : Config} {code : Word16} {h : Handler} {s : State} {k} (hp : s.phase = .run code k) :
   (runHandler c code h s = .fault .hostSilent ↔ s.rx = [] ∧ h.atRead s = true) ∧
       (∀ f, runHandler c code h s ≠ .fault (.recorded f)) ∧ ∀ r, runHandler c code h s ≠ .refused r := by
  unfold runHandler
  rw [State.enter_of_run s hp]
  split
  · next h1 => simp at h1; simp [h1]
  · next h1 => simp at h1; simpa using h1

/-- No primitive that is performed records a fault. -/
theorem perform_fault {c : Config} {p : Prim} {s s' : State} (h : p.perform c s = .done s') : s'.fault = s.fault := by
  cases p
  case readBuf i => rw [readBuf_perform h]
  case readHeld => rw [(readHeld_perform h).1]
  case discard => rw [discard_perform h]
  case write w => rw [write_perform h]
  case rbPop => rw [rbPop_perform h]
  case writeHeld => rw [writeHeld_perform h]
  case setMode m => simp only [Prim.perform, PrimResult.done.injEq] at h; subst h; rfl
  case setAtr m => simp only [Prim.perform, PrimResult.done.injEq] at h; subst h; rfl
  case nvUpdate a b d => rw [nvUpdate_perform h]
  case scratch x => rw [scratch_perform h]
  case rbReset => rw [burst_perform (p := .rbReset) trivial h]
  case rbFrame => rw [burst_perform (p := .rbFrame) trivial h]
  case rbPush w =>
    simp only [Prim.perform] at h
    split at h
    · cases h
    · simp only [PrimResult.done.injEq] at h; subst h; rfl

/-- A primitive is blocked exactly if it is a `ChRead()` and there is no word (R294). -/
theorem blocked_iff {c : Config} {p : Prim} {s : State} : p.perform c s = .blocked ↔ p.isRead = true ∧ s.rx = [] := by
  cases p <;> simp [Prim.isRead, Prim.perform, State.readThen, State.chRead]
  all_goals first
    | (cases h : s.rx <;> simp; done)
    | (split <;> simp)

theorem primStep_blocked_iff {c : Config} {h : Handler} {s : State} : h.primStep c s = .fault .hostSilent ↔ s.rx =
    [] ∧ h.atRead s = true := by
  unfold Handler.primStep Handler.atRead
  cases hp : h.primAt s.stepIndex s with
  | none => simp
  | some p =>
    dsimp only
    cases hq : p.perform c s with
    | blocked => simp [and_comm] at *; exact (blocked_iff.mp hq).symm.imp id id
    | raised f =>
      have : ¬ (p.isRead = true ∧ s.rx = []) := fun x => by rw [blocked_iff.mpr x] at hq; cases hq
      simp only [reduceCtorEq, false_iff]; exact fun x => this ⟨x.2, x.1⟩
    | done s' =>
      have : ¬ (p.isRead = true ∧ s.rx = []) := fun x => by rw [blocked_iff.mpr x] at hq; cases hq
      dsimp only
      split <;> simp only [reduceCtorEq, false_iff] <;> exact fun x => this ⟨x.2, x.1⟩

/-- Both sizes of step in a dispatched state. -/
theorem stepWith_run {c : Config} {s : State} {code : Word16} {k : Nat} (hf : s.fault = none)
    (hp : s.phase = .run code k)
    (he : encode (decodeWith c code) = code) :
    stepWith c s = runHandler c code (handlerOf c (decodeWith c code)) s ∧
    primStepWith c s = (handlerOf c (decodeWith c code)).primStep c s := by
  constructor
  · simp [stepWith, stepBy, hf, hp, execWith, he]
  · simp [primStepWith, stepBy, hf, hp, he, State.enter_of_run s hp]

/-- With a word to read, a command runs. -/
theorem runHandler_next {c : Config} {code : Word16} {k : Nat} {h : Handler} {s : State} (hp : s.phase = .run code k)
    (hx : s.rx ≠ []) :
    runHandler c code h s = .next (h.run c s) := by
  unfold runHandler
  rw [State.enter_of_run s hp]
  have : s.rx.isEmpty = false := by cases hr : s.rx <;> simp_all
  simp [this]

/-! ## More words -/

/-- The same with more words supplied. -/
def PrimResult.send (r : PrimResult) (ws : List Word9) : PrimResult :=
  match r with
  | .done s => .done (s.hostSend ws)
  | .blocked => .blocked
  | .raised f => .raised f

/-- A primitive that is not blocked does the same with more words to come. -/
theorem perform_send {c : Config} {p : Prim} {s : State} (ws : List Word9) (h : p.perform c s ≠ .blocked) :
    p.perform c (s.hostSend ws) = (p.perform c s).send ws := by
  have rd : ∀ use : Word9 → State → State, (∀ w s, use w (s.hostSend ws) = (use w s).hostSend ws) →
      s.readThen use ≠ .blocked → (s.hostSend ws).readThen use = (s.readThen use).send ws := by
    intro use hu hb
    cases hrx : s.rx with
    | nil => simp [State.readThen, State.chRead, hrx] at hb
    | cons w rest =>
      have e : (s.hostSend ws).rx = w :: (rest ++ ws) := by simp [State.hostSend, hrx]
      simp only [PrimResult.send, State.readThen, State.chRead, hrx, e]
      congr 1
      exact hu w { s with rx := rest, ioLog := s.ioLog ++ [.rx w] }
  cases p with
  | readBuf i => exact rd _ (fun _ _ => rfl) h
  | readHeld => exact rd _ (fun _ _ => rfl) h
  | discard => exact rd _ (fun _ _ => rfl) h
  | write w => rfl
  | writeHeld => rfl
  | rbPop => by_cases hl : s.len = 0 <;> simp only [PrimResult.send, Prim.perform, State.rbPop,
      show (s.hostSend ws).len = s.len from rfl, hl, if_true, if_false] <;> rfl
  | setMode m => rfl
  | setAtr b => rfl
  | nvUpdate item i b => rfl
  | scratch x => cases x <;> rfl
  | rbReset => rfl
  | rbPush w => by_cases hl : s.rbFull = true <;> simp only [PrimResult.send, Prim.perform,
      show (s.hostSend ws).rbFull = s.rbFull from rfl, hl, if_true] <;> rfl
  | rbFrame => by_cases hl : 1 ≤ s.len <;> simp only [PrimResult.send, Prim.perform, State.rbFrame,
      show (s.hostSend ws).len = s.len from rfl, hl, if_true, if_false] <;> rfl

theorem advance_send (s : State) (ws : List Word9) : (s.hostSend ws).advance = s.advance.hostSend ws := by
  have : (s.hostSend ws).phase = s.phase := rfl
  cases hp : s.phase <;> simp [State.advance, this, hp] <;> rfl

/-- A run finishes, stops at a fault, or stops at a read; and what the same run does with more words. -/
theorem runPrims_send (c : Config) (ws : List Word9) (ps : List Prim) : ∀ (s : State) (code : Word16) (k : Nat),
    s.phase = .run code k → s.fault = none →
    (∃ s', runPrims c ps s = .finished s' ∧ s'.fault = none ∧ s'.phase = .run code (k + ps.length) ∧ runPrims c ps
        (s.hostSend ws) = .finished (s'.hostSend ws)) ∨
    (∃ s', runPrims c ps s = .stopped s' ∧ s'.fault ≠ none ∧ runPrims c ps (s.hostSend ws) = .stopped
        (s'.hostSend ws)) ∨
    (∃ s' i p, runPrims c ps s = .stopped s' ∧ s'.fault = none ∧ s'.rx = [] ∧ s'.phase = .run code (k + i) ∧ ps[i]? =
        some p ∧ p.isRead = true ∧
      runPrims c ps (s.hostSend ws) = runPrims c (ps.drop i) (s'.hostSend ws)) := by
  induction ps with
  | nil => intro s code k hp hf; exact .inl ⟨s, rfl, hf, hp, rfl⟩
  | cons p ps ih =>
    intro s code k hp hf
    cases hq : p.perform c s with
    | blocked =>
      obtain ⟨hr, hx⟩ := blocked_iff.mp hq
      exact .inr (.inr ⟨s, 0, p, by simp only [runPrims, hq], hf, hx, hp, rfl, hr, rfl⟩)
    | raised f =>
      have hs := perform_send (c := c) (p := p) (s := s) ws (by rw [hq]; simp)
      rw [hq] at hs
      refine .inr (.inl ⟨s.raise f, by simp only [runPrims, hq], by simp [State.raise, hf], ?_⟩)
      simp only [runPrims, hs, PrimResult.send]; rfl
    | done s1 =>
      have hs := perform_send (c := c) (p := p) (s := s) ws (by rw [hq]; simp)
      rw [hq] at hs
      have hp1 : s1.phase = .run code k := (Prim.perform_phase hq).trans hp
      have hadv := State.advance_eq s1 hp1
      have e1 : runPrims c (p :: ps) s = runPrims c ps s1.advance := by simp only [runPrims, hq]
      have e2 : runPrims c (p :: ps) (s.hostSend ws) = runPrims c ps (s1.advance.hostSend ws) := by
        simp only [runPrims, hs, PrimResult.send, advance_send]
      rcases ih s1.advance code (k + 1) (by rw [hadv]; rfl) (by rw [hadv]; exact (perform_fault hq).trans hf) with
        ⟨s', a, b, d, e⟩ | ⟨s', a, b, d⟩ | ⟨s', i, p', a, b, d, e, f, g, h⟩
      · exact .inl ⟨s', by rw [e1, a], b, by rw [d, List.length_cons, Nat.add_assoc, Nat.add_comm 1], by rw [e2, e]⟩
      · exact .inr (.inl ⟨s', by rw [e1, a], b, by rw [e2, d]⟩)
      · exact .inr (.inr ⟨s', i + 1, p', by rw [e1, a], b, d, by rw [e, Nat.add_assoc, Nat.add_comm 1],
            by simpa using f, g, by rw [e2, h]; rfl⟩)

/-- Performing primitives of the part `r` keeps `r`, and each part `q` that a primitive of `r` keeps. -/
theorem runPrims_keeps {c : Config} {q r : State → List Prim} (hq : PhaseFree q) (hr : PhaseFree r)
    (hqr : KeepsPart c q r) (hrr : KeepsPart c r r) (ps : List Prim) : ∀ s : State, (∀ p ∈ ps, p ∈ r s) →
    s.fault = none → (runPrims c ps s).state.fault = none → q (runPrims c ps s).state = q s := by
  induction ps with
  | nil => intro s _ _ _; rfl
  | cons p ps ih =>
    intro s hps hf
    simp only [runPrims]
    cases h : p.perform c s with
    | blocked => intro _; rfl
    | raised f => intro hx; simp [Ran.state, State.raise, hf] at hx
    | done s1 =>
      obtain ⟨ph, hph⟩ := State.advance_cases s1
      have h1 : q s1.advance = q s := by rw [hph, hq, hqr s p s1 (hps p (by simp)) h]
      have h2 : r s1.advance = r s := by rw [hph, hr, hrr s p s1 (hps p (by simp)) h]
      intro hx
      exact (ih s1.advance (fun x hx => by rw [h2]; exact hps x (by simp [hx]))
        (by rw [hph]; exact (perform_fault h).trans hf) hx).trans h1

/-- Primitives that finish record no fault. -/
theorem finished_fault {c : Config} {ps : List Prim} {s s' : State} (h : runPrims c ps s = .finished s') :
    s'.fault = s.fault := by
  induction ps generalizing s with
  | nil => simp only [runPrims, Ran.finished.injEq] at h; rw [h]
  | cons p ps ih =>
    simp only [runPrims] at h
    split at h
    · cases h
    · cases h
    · next s1 h1 =>
      obtain ⟨ph, hph⟩ := State.advance_cases s1
      rw [ih h, hph]
      exact perform_fault (s' := s1) h1

/-- Performing parts keeps an earlier part. -/
theorem runParts_keeps {c : Config} {q : State → List Prim} (hq : PhaseFree q) (ps : List (State → List Prim))
    (hps : ∀ r ∈ ps, PhaseFree r ∧ KeepsPart c q r ∧ KeepsPart c r r) (k : Nat) (s : State) (hf : s.fault = none)
    (hx : (runParts c ps k s).state.fault = none) : q (runParts c ps k s).state = q s := by
  induction ps generalizing k s with
  | nil => rfl
  | cons r ps ih =>
    obtain ⟨h1, h2, h3⟩ := hps r (by simp)
    have h4 := runPrims_keeps hq h1 h2 h3 ((r s).drop k) s (fun p hp => List.mem_of_mem_drop hp) hf
    simp only [runParts] at hx ⊢
    split at hx
    · next s1 e1 =>
      have hf1 : s1.fault = none := (finished_fault e1).trans hf
      rw [e1] at h4
      exact (ih (fun r hr => hps r (by simp [hr])) _ s1 hf1 hx).trans (h4 hf1)
    · next s1 e1 => rw [e1] at h4; exact h4 hx

theorem Stable.tail {c : Config} {p : State → List Prim} {ps : List (State → List Prim)} (h : Stable c ⟨p :: ps⟩) :
    Stable c ⟨ps⟩ :=
  ⟨fun q hq => h.phase q (by simp [hq]), fun q hq => h.send q (by simp [hq]), fun q hq => h.self q (by simp [hq]),
    (List.pairwise_cons.mp h.later).2⟩

/-- A run of parts finishes, stops at a fault, or stops at a read, where it stands at the primitive its index says; and
what the same run does with more words. -/
theorem runParts_send (c : Config) (ws : List Word9) (ps : List (State → List Prim)) (hst : Stable c ⟨ps⟩) :
    ∀ (s : State) (code : Word16) (off k : Nat), s.phase = .run code (off + k) → s.fault = none →
    (∃ s', runParts c ps k s = .finished s' ∧ s'.fault = none ∧
      runParts c ps k (s.hostSend ws) = .finished (s'.hostSend ws)) ∨
    (∃ s', runParts c ps k s = .stopped s' ∧ s'.fault ≠ none ∧
      runParts c ps k (s.hostSend ws) = .stopped (s'.hostSend ws)) ∨
    (∃ s' j p, runParts c ps k s = .stopped s' ∧ s'.fault = none ∧ s'.rx = [] ∧ s'.phase = .run code (off + j) ∧
      (partPrims ps s')[j]? = some p ∧ p.isRead = true ∧
      runParts c ps k (s.hostSend ws) = runParts c ps j (s'.hostSend ws)) := by
  induction ps with
  | nil => intro s code off k hp hf; exact .inl ⟨s, rfl, hf, rfl⟩
  | cons q ps ih =>
    intro s code off k hp hf
    have hqs := hst.send q (by simp)
    have hq := hst.phase q (by simp)
    have hqq := hst.self q (by simp)
    simp only [runParts, hqs]
    rcases runPrims_send c ws ((q s).drop k) s code (off + k) hp hf with
      ⟨s1, a, b, d, e⟩ | ⟨s1, a, b, d⟩ | ⟨s1, i, p, a, b, d, e, f, g, h⟩
    · rw [a, e]
      simp only
      have hidx : off + k + ((q s).drop k).length = off + (q s).length + (k - (q s).length) := by
        rw [List.length_drop]; omega
      have hq1 : q s1 = q s := by
        have := runPrims_keeps hq hq hqq hqq ((q s).drop k) s (fun p hp => List.mem_of_mem_drop hp) hf
        rw [a] at this
        exact this b
      rcases ih hst.tail s1 code (off + (q s).length) (k - (q s).length) (hidx ▸ d) b with
        ⟨s2, a2, b2, e2⟩ | ⟨s2, a2, b2, d2⟩ | ⟨s2, j, p, a2, b2, d2, e2, f2, g2, h2⟩
      · exact .inl ⟨s2, a2, b2, e2⟩
      · exact .inr (.inl ⟨s2, a2, b2, d2⟩)
      · have hq2 : q s2 = q s := by
          have := runParts_keeps (q := q) hq ps (fun r hr => ⟨hst.phase r (by simp [hr]),
            (List.pairwise_cons.mp hst.later).1 r hr, hst.self r (by simp [hr])⟩) (k - (q s).length) s1 b
          rw [a2] at this
          exact (this b2).trans hq1
        refine .inr (.inr ⟨s2, (q s).length + j, p, a2, b2, d2, by rw [e2, Nat.add_assoc], ?_, g2, ?_⟩)
        · rw [partPrims, List.flatMap_cons, hq2, List.getElem?_append_right (by omega), Nat.add_sub_cancel_left]
          exact f2
        · rw [h2, hq2, List.drop_eq_nil_of_le (by omega), Nat.add_sub_cancel_left]
          rfl
    · rw [a, d]
      exact .inr (.inl ⟨s1, rfl, b, rfl⟩)
    · rw [a, h]
      have hq1 : q s1 = q s := by
        have := runPrims_keeps hq hq hqq hqq ((q s).drop k) s (fun p hp => List.mem_of_mem_drop hp) hf
        rw [a] at this
        exact this b
      have hki : (q s)[k + i]? = some p := by rw [← f, List.getElem?_drop]
      refine .inr (.inr ⟨s1, k + i, p, rfl, b, d, by rw [e, Nat.add_assoc], ?_, g, ?_⟩)
      · rw [partPrims, List.flatMap_cons, hq1]
        rw [List.getElem?_append_left (List.getElem?_eq_some_iff.mp hki).1, hki]
      · have hlt := (List.getElem?_eq_some_iff.mp hki).1
        rw [hq1, List.drop_drop]
        have e1 : k - (q s).length = 0 := by omega
        have e2 : k + i - (q s).length = 0 := by omega
        rw [e1, e2]

end Sys2Proof.Machine
end

