-- ==== Sys2Proof/Laws/Frames.lean ====
section
/-! SUPPORT. Relations every run of a command keeps: the frame of provisioning, the access matrix, the channel log, the queued
words. -/

namespace Sys2Proof.Machine

/-! ## Provisioning -/

/-- What a provisioning command of an item leaves alone (R37, R200). -/
structure ProvRel (c : Config) (item : NvItem) (s t : State) : Prop where
  nv : Memory.wf s.nv → Memory.wf t.nv ∧ ∀ a, ¬ ownsAddress c item a → Memory.read t.nv a = Memory.read s.nv a
  rest : t.slot = s.slot ∧ t.rd = s.rd ∧ t.len = s.len ∧ t.chk = s.chk ∧ t.msg = s.msg ∧ t.wk = s.wk ∧ t.cw = s.cw ∧
    t.aux = s.aux ∧ t.date = s.date ∧ t.minDate = s.minDate ∧ t.maxDate = s.maxDate ∧ t.altRounds = s.altRounds ∧
    (item ≠ .cryptMode → t.cryptMode = s.cryptMode) ∧ (item ≠ .atrIndex → t.atrIndex = s.atrIndex)

/-- The primitives of a provisioning command. -/
theorem provPrim {c : Config} {i : Instr} {item : NvItem} (hi : writtenItem i = some item) {p : Prim}
    (ha : allows i p) :
    (∃ j, p = .readBuf j) ∨ (∃ w, p = .write w) ∨ (∃ j b, j < c.size item ∧ p = .nvUpdate item j b) ∨
      (∃ m, item = .cryptMode ∧ p = .setMode m) ∨ (∃ b, item = .atrIndex ∧ p = .setAtr b) := by
  cases i <;> simp only [writtenItem, Option.some.injEq, reduceCtorEq] at hi <;> subst hi
  case chtabLoad v =>
    rcases ha with h | h | ⟨j, b, hj, h⟩
    · exact .inl h
    · exact .inr (.inl h)
    · exact .inr (.inr (.inl ⟨j, b, hj, h⟩))
  case keyload n =>
    rcases ha with h | h | ⟨j, b, hj, h⟩
    · exact .inl h
    · exact .inr (.inl h)
    · exact .inr (.inr (.inl ⟨j, b, hj, h⟩))
  case setatr x =>
    rcases ha with h | h
    · exact .inr (.inr (.inr (.inr ⟨_, rfl, h⟩)))
    · exact .inr (.inr (.inl ⟨_, _, by simp, h⟩))
  all_goals
    rcases ha with h | h
    · exact .inr (.inr (.inr (.inl ⟨_, rfl, h⟩)))
    · exact .inr (.inr (.inl ⟨_, _, by simp, h⟩))

theorem provKept (c : Config) (i : Instr) (item : NvItem) (hi : writtenItem i = some item) :
    Kept c (allows i) (ProvRel c item) where
  refl s := ⟨fun h => ⟨h, fun _ _ => rfl⟩, by simp⟩
  trans h1 h2 := by
    refine ⟨fun hw => ?_, ?_⟩
    · obtain ⟨a1, a2⟩ := h1.nv hw
      obtain ⟨b1, b2⟩ := h2.nv a1
      exact ⟨b1, fun a ha => (b2 a ha).trans (a2 a ha)⟩
    · obtain ⟨a1,a2,a3,a4,a5,a6,a7,a8,a9,a10,a11,a12,a13,a14⟩ := h1.rest
      obtain ⟨b1,b2,b3,b4,b5,b6,b7,b8,b9,b10,b11,b12,b13,b14⟩ := h2.rest
      exact ⟨b1.trans a1,b2.trans a2,b3.trans a3,b4.trans a4,b5.trans a5,b6.trans a6,b7.trans a7,b8.trans a8,b9.trans
          a9,
        b10.trans a10,b11.trans a11,b12.trans a12, fun h => (b13 h).trans (a13 h), fun h => (b14 h).trans (a14 h)⟩
  phase s ph := ⟨fun h => ⟨h, fun _ _ => rfl⟩, by simp⟩
  raise s f := ⟨fun h => ⟨h, fun _ _ => rfl⟩, by simp⟩
  prim p s s' ha h := by
    rcases provPrim (c := c) hi ha with ⟨j, rfl⟩ | ⟨w, rfl⟩ | ⟨j, b, hj, rfl⟩ | ⟨m, rfl, rfl⟩ | ⟨b, rfl, rfl⟩
    · rw [readBuf_perform h]; exact ⟨fun h => ⟨h, fun _ _ => rfl⟩, by simp⟩
    · rw [write_perform h]; exact ⟨fun h => ⟨h, fun _ _ => rfl⟩, by simp⟩
    · rw [nvUpdate_perform h]
      refine ⟨fun hw => ⟨Memory.wf_update _ hw _ _, fun a ha => ?_⟩, by simp⟩
      rw [Memory.read_update _ hw, if_neg]
      rintro rfl
      exact ha ⟨j, hj, rfl⟩
    · simp only [Prim.perform, PrimResult.done.injEq] at h
      subst h
      exact ⟨fun h => ⟨h, fun _ _ => rfl⟩, by simp⟩
    · simp only [Prim.perform, PrimResult.done.injEq] at h
      subst h
      exact ⟨fun h => ⟨h, fun _ _ => rfl⟩, by simp⟩

/-! ## The access matrix -/

/-- The blanks of R37, as a relation. -/
structure AccRel (i : Instr) (s t : State) : Prop where
  nv : writtenItem i = none → t.nv = s.nv ∧ t.nvWrites = s.nvWrites ∧ t.cryptMode = s.cryptMode ∧ t.atrIndex =
      s.atrIndex
  rb : usesBuffer i = false → t.slot = s.slot ∧ t.rd = s.rd ∧ t.len = s.len
  scr : isDecrypt i = false → t.chk = s.chk ∧ t.msg = s.msg ∧ t.wk = s.wk ∧ t.cw = s.cw ∧ t.aux = s.aux ∧ t.date =
      s.date ∧ t.altRounds = s.altRounds
  win : t.minDate = s.minDate ∧ t.maxDate = s.maxDate

theorem AccRel.trans {i : Instr} {s t u : State} (h1 : AccRel i s t) (h2 : AccRel i t u) : AccRel i s u := by
  constructor
  · intro h; obtain ⟨a, b, c, d⟩ := h1.nv h; obtain ⟨a', b', c', d'⟩ := h2.nv h
    exact ⟨a'.trans a, b'.trans b, c'.trans c, d'.trans d⟩
  · intro h; obtain ⟨a, b, c⟩ := h1.rb h; obtain ⟨a', b', c'⟩ := h2.rb h
    exact ⟨a'.trans a, b'.trans b, c'.trans c⟩
  · intro h; obtain ⟨a, b, c, d, e, f, g⟩ := h1.scr h; obtain ⟨a', b', c', d', e', f', g'⟩ := h2.scr h
    exact ⟨a'.trans a, b'.trans b, c'.trans c, d'.trans d, e'.trans e, f'.trans f, g'.trans g⟩
  · exact ⟨h2.win.1.trans h1.win.1, h2.win.2.trans h1.win.2⟩

theorem acc_same {i : Instr} {s : State} (ph : Phase) (f : Option ModelFault) (log : List ChEvent) (rx : List Word9)
    (buf : Bytes 8) :
   AccRel i s { s with phase := ph, fault := f, ioLog := log, rx := rx, buf := buf } := by
  constructor <;> simp

theorem acc_prim (c : Config) (i : Instr) (p : Prim) (s s' : State) (ha : allows i p) (h : p.perform c s = .done s') :
    AccRel i s s' := by
  have burst : usesBuffer i = true → p.isBurst → AccRel i s s' := by
    intro hu hb
    rw [burst_perform hb h]
    constructor <;> simp [hu]
  have wr : (∃ w, p = .write w) → AccRel i s s' := by
    rintro ⟨w, rfl⟩; rw [write_perform h]; exact acc_same _ _ _ _ _
  have rbuf : (∃ j, p = .readBuf j) → AccRel i s s' := by
    rintro ⟨w, rfl⟩; rw [readBuf_perform h]; exact acc_same _ _ _ _ _
  have disc : p = .discard → AccRel i s s' := by
    rintro rfl; rw [discard_perform h]; exact acc_same _ _ _ _ _
  have upd : ∀ item j b, writtenItem i ≠ none → p = .nvUpdate item j b → AccRel i s s' := by
    rintro item j b hn rfl; rw [nvUpdate_perform h]
    constructor <;> simp [hn]
  have setm : ∀ m, writtenItem i ≠ none → p = .setMode m → AccRel i s s' := by
    rintro m hn rfl
    simp only [Prim.perform, PrimResult.done.injEq] at h
    subst h
    constructor <;> simp [hn]
  have seta : ∀ m, writtenItem i ≠ none → p = .setAtr m → AccRel i s s' := by
    rintro m hn rfl
    simp only [Prim.perform, PrimResult.done.injEq] at h
    subst h
    constructor <;> simp [hn]
  cases i
  case chtabLoad v =>
    rcases ha with h | h | ⟨j, b, -, h⟩
    · exact rbuf h
    · exact wr h
    · exact upd _ _ _ (by simp [writtenItem]) h
  case keyload v =>
    rcases ha with h | h | ⟨j, b, -, h⟩
    · exact rbuf h
    · exact wr h
    · exact upd _ _ _ (by simp [writtenItem]) h
  case atr => exact burst rfl ha
  case chtabRead => exact burst rfl ha
  case ident0 => exact burst rfl ha
  case ident1 => exact burst rfl ha
  case ident2 => exact burst rfl ha
  case setmode0 => rcases ha with h | h; exacts [setm _ (by simp [writtenItem]) h, upd _ _ _ (by simp [writtenItem]) h]
  case setmode1 => rcases ha with h | h; exacts [setm _ (by simp [writtenItem]) h, upd _ _ _ (by simp [writtenItem]) h]
  case setmode2 => rcases ha with h | h; exacts [setm _ (by simp [writtenItem]) h, upd _ _ _ (by simp [writtenItem]) h]
  case setatr b => rcases ha with h | h; exacts [seta _ (by simp [writtenItem]) h, upd _ _ _ (by simp [writtenItem]) h]
  case hs05 v => exact disc ha
  case hs5e0 => rcases ha with h | h; exacts [disc h, wr h]
  case hs5e1 => rcases ha with h | h; exacts [disc h, wr h]
  case hs5e2 => rcases ha with h | h; exacts [disc h, wr h]
  case hs5f1 => rcases ha with h | h; exacts [disc h, wr h]
  case hs5f2 => rcases ha with h | h; exacts [disc h, wr h]
  case ent =>
    rcases ha with h | h | h | h
    · exact rbuf h
    · exact burst rfl h
    · exact disc h
    · exact wr h
  case pop =>
    rcases ha with rfl | rfl
    · rw [rbPop_perform h]; constructor <;> simp [usesBuffer, isDecrypt]
    · rw [writeHeld_perform h]; exact acc_same _ _ _ _ _
  case notready code => exact wr ha
  case decrypt b =>
    rcases ha with rfl | ⟨x, rfl⟩ | hb
    · rw [(readHeld_perform h).1]; constructor <;> simp [isDecrypt]
    · rw [scratch_perform h]; constructor <;> simp [isDecrypt]
    · exact burst rfl hb

theorem accKept (c : Config) (i : Instr) : Kept c (allows i) (AccRel i) where
  refl s := acc_same s.phase s.fault s.ioLog s.rx s.buf
  trans := AccRel.trans
  phase s ph := acc_same ph s.fault s.ioLog s.rx s.buf
  raise s f := acc_same s.phase (s.fault <|> some f) s.ioLog s.rx s.buf
  prim := acc_prim c i

/-- What a DECRYPT in mode `m` leaves alone (R37, R262): in mode 0, each message byte is as it was or the data byte of a
word read (R120, R271). -/
structure DecRel (m : CryptMode) (s t : State) : Prop where
  mode : t.cryptMode = s.cryptMode
  m0 : m = .primary → t.chk = s.chk ∧ t.altRounds = s.altRounds
  m12 : m ≠ .primary → t.wk = s.wk ∧ t.aux = s.aux ∧ t.date = s.date
  msg : m = .primary → ∃ ws, s.rx = ws ++ t.rx ∧ t.held ∈ s.held :: ws ∧
    ∀ (j : Nat) (h : j < ecmLen), t.msg[j] = s.msg[j] ∨ ∃ w ∈ s.held :: ws, t.msg[j] = dataByte w

/-- A write of the call's mode, or no scratch write. -/
def decOk (m : CryptMode) (p : Prim) : Prop :=
  p = .readHeld ∨ (∃ x : Scratch, x.writtenIn m = true ∧ p = .scratch x) ∨ p.isBurst

theorem DecRel.trans {m : CryptMode} {s t u : State} (h1 : DecRel m s t) (h2 : DecRel m t u) : DecRel m s u := by
  refine ⟨h2.mode.trans h1.mode, fun hm => ?_, fun hm => ?_, fun hm => ?_⟩
  · exact ⟨(h2.m0 hm).1.trans (h1.m0 hm).1, (h2.m0 hm).2.trans (h1.m0 hm).2⟩
  · obtain ⟨a, b, d⟩ := h1.m12 hm
    obtain ⟨a', b', d'⟩ := h2.m12 hm
    exact ⟨a'.trans a, b'.trans b, d'.trans d⟩
  · obtain ⟨ws, e1, g1, k1⟩ := h1.msg hm
    obtain ⟨vs, e2, g2, k2⟩ := h2.msg hm
    have sub : ∀ w ∈ t.held :: vs, w ∈ s.held :: (ws ++ vs) := by
      intro w hw
      simp only [List.mem_cons, List.mem_append] at hw g1 ⊢
      rcases hw with rfl | hw
      · rcases g1 with g1 | g1
        · exact .inl g1
        · exact .inr (.inl g1)
      · exact .inr (.inr hw)
    refine ⟨ws ++ vs, by rw [e1, e2, List.append_assoc], sub _ g2, fun j hj => ?_⟩
    rcases k2 j hj with k | ⟨w, hw, k⟩
    · rcases k1 j hj with k' | ⟨w, hw, k'⟩
      · exact .inl (k.trans k')
      · refine .inr ⟨w, ?_, k.trans k'⟩
        simp only [List.mem_cons, List.mem_append] at hw ⊢
        exact hw.imp id .inl
    · exact .inr ⟨w, sub w hw, k⟩

theorem decSame {m : CryptMode} {s : State} (ph : Phase) (f : Option ModelFault) (slot : Vector SlotWord rbCap)
    (rd : Fin rbCap) (len : Nat) :
    DecRel m s { s with phase := ph, fault := f, slot := slot, rd := rd, len := len } :=
  ⟨rfl, fun _ => ⟨rfl, rfl⟩, fun _ => ⟨rfl, rfl, rfl⟩, fun _ => ⟨[], rfl, by simp, fun _ _ => .inl rfl⟩⟩

theorem decKept (c : Config) (m : CryptMode) : Kept c (decOk m) (DecRel m) where
  refl s := decSame s.phase s.fault s.slot s.rd s.len
  trans := DecRel.trans
  phase s ph := decSame ph s.fault s.slot s.rd s.len
  raise s f := decSame s.phase (s.fault <|> some f) s.slot s.rd s.len
  prim p s s' ha h := by
    rcases ha with rfl | ⟨x, hx, rfl⟩ | hb
    · obtain ⟨e, hr⟩ := readHeld_perform h
      rw [e]
      exact ⟨rfl, fun _ => ⟨rfl, rfl⟩, fun _ => ⟨rfl, rfl, rfl⟩,
        fun _ => ⟨[s'.held], hr, by simp, fun _ _ => .inl rfl⟩⟩
    · simp only [Prim.perform, PrimResult.done.injEq] at h
      subst h
      have base : DecRel m s s := decSame s.phase s.fault s.slot s.rd s.len
      cases m <;> cases x <;> simp only [Scratch.writtenIn, Bool.false_eq_true] at hx
      case primary.msg i =>
        refine ⟨rfl, fun _ => ⟨rfl, rfl⟩, fun _ => ⟨rfl, rfl, rfl⟩, fun _ => ⟨[], rfl, by simp [State.writeScratch],
          fun j hj => ?_⟩⟩
        by_cases e : i.val = j
        · exact .inr ⟨s.held, by simp, by simp [State.writeScratch, e]⟩
        · exact .inl (by simp [State.writeScratch, Vector.getElem_set, e])
      all_goals first
        | exact ⟨rfl, fun _ => ⟨rfl, rfl⟩, fun h => absurd rfl h,
            fun _ => ⟨[], rfl, by simp [State.writeScratch], fun _ _ => .inl rfl⟩⟩
        | exact ⟨rfl, nofun, fun _ => ⟨rfl, rfl, rfl⟩, nofun⟩
    · rw [burst_perform hb h]
      exact decSame s.phase s.fault s'.slot s'.rd s'.len

/-- Every run of a DECRYPT keeps the relation of its mode. -/
theorem decrypt_rel {c : Config} {b : Byte} {s t : State} (he : execWith c (.decrypt b) s = .next t) :
    DecRel s.cryptMode s t := by
  refine (decKept c s.cryptMode).runHandler (fun q hq u hu p hp => ?_) he
  simp only [handlerOf, decryptHandler, List.mem_cons, List.not_mem_nil, or_false] at hq
  rcases hq with rfl | rfl | rfl
  · simp only [messageReads, List.mem_flatMap, List.mem_cons, List.not_mem_nil, or_false] at hp
    obtain ⟨i, -, rfl | rfl⟩ := hp
    · exact .inl rfl
    · exact .inr (.inl ⟨_, by cases s.cryptMode <;> rfl, rfl⟩)
  · obtain ⟨x, hx, rfl⟩ := List.mem_map.mp hp
    exact .inr (.inl ⟨x, hu.mode ▸ engineWrites_in hx, rfl⟩)
  · exact .inr (.inr (isBurst_of_mem (decryptWords_lt c _ u) hp))

/-- The ResponseBuffer is left alone. -/
def BufferSame (s t : State) : Prop := t.slot = s.slot ∧ t.rd = s.rd ∧ t.len = s.len

theorem bufferKept (c : Config) : Kept c (fun p => (∃ i, p = .readBuf i) ∨ p = .discard ∨ ∃ w, p = .write w)
    BufferSame where
  refl _ := ⟨rfl, rfl, rfl⟩
  trans h1 h2 := ⟨h2.1.trans h1.1, h2.2.1.trans h1.2.1, h2.2.2.trans h1.2.2⟩
  phase _ _ := ⟨rfl, rfl, rfl⟩
  raise _ _ := ⟨rfl, rfl, rfl⟩
  prim := by
    rintro p s s' (⟨i, rfl⟩ | rfl | ⟨w, rfl⟩) h
    · rw [readBuf_perform h]; exact ⟨rfl, rfl, rfl⟩
    · rw [discard_perform h]; exact ⟨rfl, rfl, rfl⟩
    · rw [write_perform h]; exact ⟨rfl, rfl, rfl⟩

/-- ENT on any sub-selector but 0 and 1 leaves the ResponseBuffer alone (R227, R243). -/
theorem ent_buffer {c : Config} {s t : State} (h : execWith c .ent s = .next t) (hb : 2 ≤ t.buf[0].toNat) :
    BufferSame s t := by
  have keep : Kept c (fun p => p.isBurst) (fun s t => t.buf = s.buf) :=
    { refl := fun _ => rfl
      trans := fun h1 h2 => h2.trans h1
      phase := fun _ _ => rfl
      raise := fun _ _ => rfl
      prim := fun p s s' hp h => by rw [burst_perform hp h] }
  unfold execWith runHandler at h
  split at h
  · cases h
  simp only [Host.Outcome.next.injEq] at h
  obtain ⟨ph, hph⟩ := State.enter_cases s (encode .ent)
  rw [hph] at h
  generalize hk : (s.setPhase ph).stepIndex = k at h
  simp only [Handler.run, handlerOf, entHandler, Handler.seq, runParts, hk, payloadReads_one] at h
  have hf := (bufferKept c).runPrims (([Prim.readBuf (bufAt 0)] : List Prim).drop k)
    (fun p hp => .inl ⟨bufAt 0, by simpa using List.mem_of_mem_drop hp⟩) (s.setPhase ph)
  cases h1 : runPrims c (([Prim.readBuf (bufAt 0)] : List Prim).drop k) (s.setPhase ph) with
  | stopped s1 =>
    rw [h1] at hf h
    simp only at h
    subst h
    exact hf
  | finished s1 =>
    rw [h1] at hf h
    simp only at h
    have hf : BufferSame s s1 := hf
    have back : ∀ P R, Kept c P R → (∀ p ∈ entPrims c s1.buf[0] s1.nv, P p) → R s1 t := by
      intro P R K hP
      have hk := K.runPrims ((entPrims c s1.buf[0] s1.nv).drop (k - [Prim.readBuf (bufAt 0)].length))
        (fun p hp => hP p (List.mem_of_mem_drop hp)) s1
      split at h
      · next s2 h2 =>
        split at h2
        · next s3 h3 =>
          simp only [Ran.finished.injEq] at h2
          subst h2
          subst h
          rw [h3] at hk
          exact K.trans hk (K.phase s3 .idle)
        · cases h2
      · next s2 h2 =>
        split at h2
        · cases h2
        · next s3 h3 =>
          simp only [Ran.stopped.injEq] at h2
          subst h2
          subst h
          rw [h3] at hk
          exact hk
    by_cases hlt : s1.buf[0].toNat < 2
    · exfalso
      have hb1 : t.buf = s1.buf := by
        refine back _ _ keep fun p hp => ?_
        unfold entPrims at hp
        have : s1.buf[0] = 0 ∨ s1.buf[0] = 1 := by
          rcases Nat.lt_or_ge s1.buf[0].toNat 1 with h | h
          · exact .inl (BitVec.eq_of_toNat_eq (by simp; omega))
          · exact .inr (BitVec.eq_of_toNat_eq (by simp; omega))
        rcases this with e | e <;> simp only [e] at hp <;> exact byteBurst_isBurst hp
      rw [hb1] at hb
      omega
    · refine (bufferKept c).trans hf (back _ _ (bufferKept c) fun p hp => ?_)
      unfold entPrims at hp
      have h0 : s1.buf[0] ≠ 0 := by intro e; rw [e] at hlt; exact hlt (by decide)
      have h1 : s1.buf[0] ≠ 1 := by intro e; rw [e] at hlt; exact hlt (by decide)
      rw [if_neg h0, if_neg h1] at hp
      split_ifs at hp
      · exact .inr (mem_handshakePrims hp)
      · exact .inr (mem_handshakePrims hp)
      · exact .inr (.inr ⟨_, by simpa using hp⟩)

/-- A command leaves every item it does not write as it was. -/
theorem other_item {c : Config} {i : Instr} {s t : State} (hw : Memory.wf s.nv) (he : execWith c i s = .next t)
    (other : NvItem) (ho : writtenItem i ≠ some other) : ∀ j < c.size other, itemByte c t.nv other j =
        itemByte c s.nv other j := by
  intro j hj
  cases hi : writtenItem i with
  | none =>
    have := ((accKept c i).execWith he).nv hi
    rw [this.1]
  | some item =>
    refine (((provKept c i item hi).execWith he).nv hw).2 _ ?_
    rintro ⟨j', hj', e⟩
    have := (c.nvCell_ok item other j' j hj' hj e).1
    exact ho (by rw [hi, this])

/-! ## The channel -/

/-- The log grows by what is read and written (R70, R71). -/
structure LogRel (s t : State) : Prop where
  ex : ∃ es, t.ioLog = s.ioLog ++ es ∧ s.rx = readWords es ++ t.rx

theorem logSame {s t : State} (h1 : t.ioLog = s.ioLog) (h2 : t.rx = s.rx) :
    LogRel s t := ⟨[], by simp [h1], by simp [readWords, h2]⟩

theorem logKept (c : Config) : Kept c (fun _ => True) LogRel where
  refl s := logSame rfl rfl
  trans := by
    rintro s t u ⟨a, ha, hb⟩ ⟨a', ha', hb'⟩
    exact ⟨a ++ a', by rw [ha', ha, List.append_assoc], by rw [hb, hb']; simp [readWords]⟩
  phase s ph := logSame rfl rfl
  raise s f := logSame rfl rfl
  prim p s s' _ h := by
    have rd : ∀ use : Word9 → State → State, (∀ w s, (use w s).ioLog = s.ioLog ∧ (use w s).rx = s.rx) →
        s.readThen use = .done s' → LogRel s s' := by
      intro use hu h
      simp only [State.readThen, State.chRead] at h
      cases hr : s.rx with
      | nil => simp [hr] at h
      | cons w rest =>
        simp only [hr, PrimResult.done.injEq] at h
        subst h
        refine ⟨[.rx w], ?_, ?_⟩
        · exact (hu _ _).1
        · rw [(hu _ _).2, hr]; rfl
    cases p
    case readBuf i => exact rd _ (by intros; exact ⟨rfl, rfl⟩) h
    case readHeld => exact rd _ (by intros; exact ⟨rfl, rfl⟩) h
    case discard => exact rd _ (by intros; exact ⟨rfl, rfl⟩) h
    case write w => rw [write_perform h]; exact ⟨[.tx w], rfl, rfl⟩
    case rbPop => rw [rbPop_perform h]; exact logSame rfl rfl
    case writeHeld => rw [writeHeld_perform h]; exact ⟨[.tx s.held], rfl, rfl⟩
    case setMode m => simp only [Prim.perform, PrimResult.done.injEq] at h; subst h; exact logSame rfl rfl
    case setAtr m => simp only [Prim.perform, PrimResult.done.injEq] at h; subst h; exact logSame rfl rfl
    case nvUpdate a b d => rw [nvUpdate_perform h]; exact logSame rfl rfl
    case scratch x => rw [scratch_perform h]; exact logSame rfl rfl
    case rbReset => rw [burst_perform (p := .rbReset) trivial h]; exact logSame rfl rfl
    case rbFrame => rw [burst_perform (p := .rbFrame) trivial h]; exact logSame rfl rfl
    case rbPush w =>
      simp only [Prim.perform] at h
      split at h
      · cases h
      · simp only [PrimResult.done.injEq] at h; subst h; exact logSame rfl rfl

/-! ## Queued words -/

/-- Queued words stay 9-bit words (R33). -/
structure QRel (s t : State) : Prop where
  q : (∀ w ∈ s.queue, w.toNat < 2 ^ wordBits) → ∀ w ∈ t.queue, w.toNat < 2 ^ wordBits

theorem queue_same {s t : State} (h1 : t.slot = s.slot) (h2 : t.rd = s.rd) (h3 : t.len = s.len) : QRel s t :=
  ⟨fun h => by have : t.queue = s.queue := by unfold State.queue; simp only [h1, h2, h3]
               rw [this]; exact h⟩

/-- A push of a 9-bit word. -/
def PushOk (p : Prim) : Prop := ∀ w, p = .rbPush w → w.toNat < 2 ^ wordBits

theorem or_lt (w : SlotWord) (h : w.toNat < 2 ^ wordBits) : (w ||| frameMask).toNat < 512 := by
  rw [BitVec.toNat_or]
  exact Nat.or_lt_two_pow (n := 9) h (by decide)

theorem qKept (c : Config) : Kept c PushOk QRel where
  refl s := ⟨id⟩
  trans h1 h2 := ⟨fun h => h2.q (h1.q h)⟩
  phase s ph := ⟨id⟩
  raise s f := ⟨id⟩
  prim p s s' ha h := by
    cases p
    case readBuf i => rw [readBuf_perform h]; exact queue_same rfl rfl rfl
    case readHeld => rw [(readHeld_perform h).1]; exact queue_same rfl rfl rfl
    case discard => rw [discard_perform h]; exact queue_same rfl rfl rfl
    case write w => rw [write_perform h]; exact queue_same rfl rfl rfl
    case writeHeld => rw [writeHeld_perform h]; exact queue_same rfl rfl rfl
    case rbPop =>
      simp only [Prim.perform, PrimResult.done.injEq] at h; subst h
      by_cases hl : s.len = 0
      · have : s.rbPop = (wIdle, s) := by unfold State.rbPop; rw [if_pos hl]
        rw [this]; exact queue_same rfl rfl rfl
      · obtain ⟨e, -, -⟩ := queue_pop s hl
        refine ⟨fun hq w hw => hq w ?_⟩
        rw [e]; exact List.mem_cons_of_mem _ hw
    case setMode m => simp only [Prim.perform, PrimResult.done.injEq] at h; subst h; exact queue_same rfl rfl rfl
    case setAtr m => simp only [Prim.perform, PrimResult.done.injEq] at h; subst h; exact queue_same rfl rfl rfl
    case nvUpdate a b d => rw [nvUpdate_perform h]; exact queue_same rfl rfl rfl
    case scratch x => rw [scratch_perform h]; exact queue_same rfl rfl rfl
    case rbReset =>
      simp only [Prim.perform, PrimResult.done.injEq] at h; subst h
      exact ⟨fun _ w hw => by simp [State.queue, State.rbReset] at hw⟩
    case rbFrame =>
      simp only [Prim.perform, PrimResult.done.injEq] at h; subst h
      by_cases hl : 1 ≤ s.len
      · have e : s.rbFrame = (s.frameSlot s.rd).frameSlot (slotIndex (s.rd.val + s.len - 1)) :=
            by unfold State.rbFrame; rw [if_pos hl]
        rw [e]
        have step : ∀ (u : State) (x : Fin rbCap), QRel u (u.frameSlot x) := by
          intro u x
          refine ⟨fun hq w hw => ?_⟩
          simp only [State.queue, List.mem_map, List.mem_range] at hw
          obtain ⟨j, hj, rfl⟩ := hw
          have hm : u.slot[slotIndex (u.rd.val + j)] ∈ u.queue := List.mem_map.mpr ⟨j, List.mem_range.mpr hj, rfl⟩
          have := hq _ hm
          simp only [State.frameSlot, Fin.getElem_fin, Vector.getElem_set] at *
          split
          · next hx =>
            simp only [hx]
            exact or_lt _ this
          · exact this
        exact ⟨fun h => (step _ _).q ((step _ _).q h)⟩
      · have e : s.rbFrame = s := by unfold State.rbFrame; rw [if_neg hl]
        rw [e]; exact ⟨id⟩
    case rbPush w =>
      simp only [Prim.perform] at h
      split at h
      · cases h
      · next hfull =>
        simp only [PrimResult.done.injEq] at h; subst h
        have hl : s.len < 16 := by
          have : ¬ (rbCap ≤ s.len) := fun x => hfull (decide_eq_true x)
          exact Nat.lt_of_not_le this
        refine ⟨fun hq x hx => ?_⟩
        rw [queue_store s w hl, List.mem_append] at hx
        rcases hx with hx | hx
        · exact hq x hx
        · simp only [List.mem_cons, List.not_mem_nil, or_false] at hx; subst hx; exact ha x rfl

theorem pushOk_allowed (i : Instr) (p : Prim) (h : allows i p) : PushOk p := by
  cases p
  case rbPush x =>
    rintro w ⟨⟩
    cases i
    case atr => exact h
    case chtabRead => exact h
    case ident0 => exact h
    case ident1 => exact h
    case ident2 => exact h
    case decrypt b => rcases h with h | ⟨_, h⟩ | h <;> first | exact h | cases h
    case ent => rcases h with ⟨_, h⟩ | h | h | ⟨_, h⟩ <;> first | exact h | cases h
    case chtabLoad v => rcases h with ⟨_, h⟩ | ⟨_, h⟩ | ⟨_, _, _, h⟩ <;> cases h
    case keyload v => rcases h with ⟨_, h⟩ | ⟨_, h⟩ | ⟨_, _, _, h⟩ <;> cases h
    case hs05 v => cases h
    case pop => rcases h with h | h <;> cases h
    case notready => obtain ⟨_, h⟩ := h; cases h
    all_goals rcases h with h | h <;> first | (obtain ⟨_, h⟩ := h; cases h; done) | (cases h; done)
  all_goals (intro w hw; cases hw)

theorem qAll {c : Config} {i : Instr} {s t : State} (he : execWith c i s = .next t) : QRel s t := by
  have := (qKept c)
  exact (Kept.execWith (i := i) ⟨this.refl, this.trans, this.phase, this.raise, fun p s s' ha h => this.prim p s s'
      (pushOk_allowed i p ha) h⟩ he)

/-! ## Working copies -/

theorem mode_same {c : Config} {i : Instr} {s t : State} (hw : Memory.wf s.nv) (he : execWith c i s = .next t)
    (hi : writtenItem i ≠ some .cryptMode) :
    t.cryptMode = s.cryptMode ∧ nvCryptModeOf c t.nv = nvCryptModeOf c s.nv := by
  refine ⟨?_, other_item hw he .cryptMode hi 0 Nat.one_pos⟩
  cases h : writtenItem i with
  | none => exact (((accKept c i).execWith he).nv h).2.2.1
  | some item => exact ((provKept c i item h).execWith he).rest.2.2.2.2.2.2.2.2.2.2.2.2.1 (by rintro rfl; exact hi h)

theorem atr_same {c : Config} {i : Instr} {s t : State} (hw : Memory.wf s.nv) (he : execWith c i s = .next t)
    (hi : writtenItem i ≠ some .atrIndex) :
    t.atrIndex = s.atrIndex ∧ nvAtrIndexOf c t.nv = nvAtrIndexOf c s.nv := by
  refine ⟨?_, other_item hw he .atrIndex hi 0 Nat.one_pos⟩
  cases h : writtenItem i with
  | none => exact (((accKept c i).execWith he).nv h).2.2.2
  | some item => exact ((provKept c i item h).execWith he).rest.2.2.2.2.2.2.2.2.2.2.2.2.2 (by rintro rfl; exact hi h)

/-- A parked handler that reads nothing stands at its start. -/
theorem fixed_k0 {c : Config} {i : Instr} {s : State} {code : Word16} {k : Nat} {ps : List Prim}
    (hh : handlerOf c i = .fixed ps) (hps : ∀ p ∈ ps, p.isRead = false) (hp : s.phase = .run code k)
    (hk : k = 0 ∨ (handlerOf c i).atRead s = true) : k = 0 := by
  rcases hk with h | h
  · exact h
  · exfalso
    rw [hh] at h
    unfold Handler.atRead Handler.primAt at h
    split at h
    · next p hq =>
      have hm : p ∈ ps := by simpa [partPrims, Handler.fixed] using List.mem_of_getElem? hq
      rw [hps p hm] at h
      cases h
    · cases h

end Sys2Proof.Machine
end

