-- ==== Sys2Proof/Laws/PerInstr.lean ====
section
/-! SUPPORT. Facts about each instruction as syntax, one lemma per constructor: its code matches its row of
`opcode_table.json` (family `RowMatch`). -/

namespace Sys2Proof.Laws.RowMatch

/-- Match and mask of the instruction's row of `opcode_table.json`. -/
def row : Instr → Word16 × Word16
  | .chtabLoad _ => (0x0100, 0xFFFE)
  | .atr => (0x0200, 0xFFFF)
  | .chtabRead => (0x0201, 0xFFFF)
  | .setmode0 => (0x0400, 0xFFFF)
  | .setmode1 => (0x0401, 0xFFFF)
  | .setmode2 => (0x0402, 0xFFFF)
  | .hs05 _ => (0x0500, 0xFFFE)
  | .decrypt _ => (0x0600, 0xFF00)
  | .setatr _ => (0x1400, 0xFF00)
  | .keyload _ => (0x2400, 0xFFF0)
  | .ident0 => (0x5700, 0xFFFF)
  | .ident1 => (0x5701, 0xFFFF)
  | .ident2 => (0x5702, 0xFFFF)
  | .hs5e0 => (0x5E00, 0xFFFF)
  | .hs5e1 => (0x5E01, 0xFFFF)
  | .hs5e2 => (0x5E02, 0xFFFF)
  | .ent => (0x5F00, 0xFFFF)
  | .hs5f1 => (0x5F01, 0xFFFF)
  | .hs5f2 => (0x5F02, 0xFFFF)
  | .pop => (0xFFFF, 0xFFFF)
  | .notready _ => (0x0000, 0x0000)

/-- The code of the instruction has the fixed bits of its row (R100). -/
def Statement (i : Instr) : Prop := encode i &&& (row i).2 = (row i).1

theorem chtabLoad (v : BitVec 1) : Statement (.chtabLoad v) := by
  rcases bit_cases v with rfl | rfl <;> rfl

theorem atr : Statement .atr := rfl

theorem chtabRead : Statement .chtabRead := rfl

theorem setmode0 : Statement .setmode0 := rfl

theorem setmode1 : Statement .setmode1 := rfl

theorem setmode2 : Statement .setmode2 := rfl

theorem hs05 (v : BitVec 1) : Statement (.hs05 v) := by
  rcases bit_cases v with rfl | rfl <;> rfl

theorem decrypt (b : Byte) : Statement (.decrypt b) := by
  show (0x06#8 ++ b) &&& (0xFF#8 ++ 0x00#8) = 0x06#8 ++ 0x00#8
  rw [and_append, BitVec.and_zero]
  rfl

theorem setatr (b : Byte) : Statement (.setatr b) := by
  show (0x14#8 ++ b) &&& (0xFF#8 ++ 0x00#8) = 0x14#8 ++ 0x00#8
  rw [and_append, BitVec.and_zero]
  rfl

theorem keyload (n : BitVec 4) : Statement (.keyload n) := by
  revert n
  unfold Statement
  decide

theorem ident0 : Statement .ident0 := rfl

theorem ident1 : Statement .ident1 := rfl

theorem ident2 : Statement .ident2 := rfl

theorem hs5e0 : Statement .hs5e0 := rfl

theorem hs5e1 : Statement .hs5e1 := rfl

theorem hs5e2 : Statement .hs5e2 := rfl

theorem ent : Statement .ent := rfl

theorem hs5f1 : Statement .hs5f1 := rfl

theorem hs5f2 : Statement .hs5f2 := rfl

theorem pop : Statement .pop := rfl

theorem notready (code : Word16) : Statement (.notready code) := BitVec.and_zero

end Sys2Proof.Laws.RowMatch
end

