-- ==== Sys2Proof/Laws/Room.lean ====
section
/-! SUPPORT. No command fills the ResponseBuffer (R284): every push of a handler comes after a reset and not more than sixteen
follow it. -/

namespace Sys2Proof.Machine

/-! ## Room in a list of primitives -/

/-- The primitive is `RbPush`. -/
def Prim.isPush : Prim → Bool
  | .rbPush _ => true
  | _ => false

/-- From a length of at most `n`, no push of the list meets a full buffer. -/
def Roomy : Nat → List Prim → Prop
  | _, [] => True
  | _, .rbReset :: ps => Roomy 0 ps
  | n, .rbPush _ :: ps => n < 16 ∧ Roomy (n + 1) ps
  | n, _ :: ps => Roomy n ps

theorem roomy_of_noPush (ps : List Prim) (h : ∀ p ∈ ps, Prim.isPush p = false) : ∀ n, Roomy n ps := by
  induction ps with
  | nil => intro n; trivial
  | cons p ps ih =>
    intro n
    have h1 := h p (by simp)
    have h2 := ih (fun q hq => h q (by simp [hq]))
    cases p <;> first | exact h2 _ | (simp [Prim.isPush] at h1)

theorem roomy_pushes (ws : List Word16) : ∀ n, n + ws.length ≤ 16 → Roomy n (ws.map .rbPush ++ [.rbFrame]) := by
  induction ws with
  | nil => intro n _; trivial
  | cons w ws ih => intro n h; simp only [List.length_cons] at h; exact ⟨by omega, ih (n + 1) (by omega)⟩

theorem roomy_burst (ws : List Word16) (h : ws.length ≤ 16) (n : Nat) : Roomy n (burstPrims ws) :=
  roomy_pushes ws 0 (by omega)

/-- What one primitive does to the length. -/
theorem perform_len {c : Config} {p : Prim} {s s' : State} (h : p.perform c s = .done s') :
    s'.len ≤ (match p with | .rbReset => 0 | .rbPush _ => s.len + 1 | _ => s.len) := by
  cases p <;> dsimp only
  case readBuf i => rw [readBuf_perform h]
  case readHeld => rw [(readHeld_perform h).1]
  case discard => rw [discard_perform h]
  case write w => rw [write_perform h]
  case writeHeld => rw [writeHeld_perform h]
  case rbPop =>
    simp only [Prim.perform, PrimResult.done.injEq] at h; subst h
    show s.rbPop.2.len ≤ _
    unfold State.rbPop; split
    · exact le_rfl
    · exact Nat.sub_le _ _
  case setMode m => simp only [Prim.perform, PrimResult.done.injEq] at h; subst h; exact le_rfl
  case setAtr m => simp only [Prim.perform, PrimResult.done.injEq] at h; subst h; exact le_rfl
  case nvUpdate a b d => rw [nvUpdate_perform h]
  case scratch x => rw [scratch_perform h]
  case rbReset => simp only [Prim.perform, PrimResult.done.injEq] at h; subst h; exact le_rfl
  case rbFrame =>
    simp only [Prim.perform, PrimResult.done.injEq] at h; subst h
    unfold State.rbFrame; split <;> exact le_rfl
  case rbPush w =>
    simp only [Prim.perform] at h
    split at h
    · cases h
    · simp only [PrimResult.done.injEq] at h; subst h; exact le_rfl

/-- Only a push onto a full buffer raises. -/
theorem raised_only {c : Config} {p : Prim} {s : State} {f} (h : p.perform c s = .raised f) : ∃ w, p = .rbPush w ∧
    16 ≤ s.len := by
  cases p
  case rbPush w =>
    refine ⟨w, rfl, ?_⟩
    simp only [Prim.perform] at h
    split at h
    · next hf => exact of_decide_eq_true hf
    · cases h
  case readBuf i => exfalso; simp only [Prim.perform, State.readThen] at h; split at h <;> cases h
  case readHeld => exfalso; simp only [Prim.perform, State.readThen] at h; split at h <;> cases h
  case discard => exfalso; simp only [Prim.perform, State.readThen] at h; split at h <;> cases h
  all_goals (simp [Prim.perform] at h)

/-- A run of such a list raises nothing. -/
theorem roomy_run (c : Config) (ps : List Prim) : ∀ n (s : State), n ≤ 16 → s.len ≤ n → s.fault = none → Roomy n ps →
    (runPrims c ps s).state.fault = none ∧ (runPrims c ps s).state.len ≤ 16 := by
  induction ps with
  | nil => intro n s hn hs hf _; exact ⟨hf, hs.trans hn⟩
  | cons p ps ih =>
    intro n s hn hs hf hr
    simp only [runPrims]
    cases hq : p.perform c s with
    | blocked => exact ⟨hf, hs.trans hn⟩
    | raised f =>
      exfalso
      obtain ⟨w, rfl, hl⟩ := raised_only hq
      have := hr.1
      omega
    | done s' =>
      have hl := perform_len hq
      obtain ⟨ph, hph⟩ := State.advance_cases s'
      have hf' : s'.advance.fault = none := by rw [hph]; exact (perform_fault hq).trans hf
      have hlen : s'.advance.len = s'.len := by rw [hph]; rfl
      cases p
      case rbReset => exact ih 0 _ (by omega) (by rw [hlen]; exact hl) hf' hr
      case rbPush w => exact ih (n + 1) _ (by have := hr.1; omega) (by rw [hlen]; dsimp only at hl; omega) hf' hr.2
      all_goals exact ih n _ hn (by rw [hlen]; exact hl.trans hs) hf' hr

/-! ## Room in every handler -/

/-- A part of a handler either pushes nothing, or reads nothing and has room. -/
def GoodPrims (ps : List Prim) : Prop := (∀ p ∈ ps, Prim.isPush p = false) ∨
    ((∀ p ∈ ps, p.isRead = false) ∧ Roomy 16 ps)

theorem good_burst (ws : List Word16) (h : ws.length ≤ 16) : GoodPrims (burstPrims ws) := by
  refine .inr ⟨?_, roomy_burst ws h 16⟩
  intro p hp
  simp only [burstPrims, List.cons_append, List.mem_cons, List.mem_append, List.mem_map, List.not_mem_nil,
    or_false] at hp
  rcases hp with rfl | ⟨w, _, rfl⟩ | rfl <;> rfl

theorem good_byteBurst (bs : List Byte) (h : bs.length ≤ 16) : GoodPrims (byteBurst bs) :=
    good_burst _ (by simpa using h)

/-- Every part of every handler is good. -/
theorem parts_good (c : Config) (i : Instr) : ∀ q ∈ (handlerOf c i).parts, ∀ s, GoodPrims (q s) := by
  intro q hq s
  have H : ∀ p ∈ q s, allows i p := parts_allowed c i q hq s
  cases i
  case ident0 =>
    simp only [handlerOf, identHandler, Handler.fixed, List.mem_cons, List.not_mem_nil, or_false] at hq
    subst hq; exact good_byteBurst _ (c.idPayload_ok 0).2
  case ident1 =>
    simp only [handlerOf, identHandler, Handler.fixed, List.mem_cons, List.not_mem_nil, or_false] at hq
    subst hq; exact good_byteBurst _ (c.idPayload_ok 1).2
  case ident2 =>
    simp only [handlerOf, identHandler, Handler.fixed, List.mem_cons, List.not_mem_nil, or_false] at hq
    subst hq; exact good_byteBurst _ (c.idPayload_ok 2).2
  case atr =>
    simp only [handlerOf, atrHandler, List.mem_cons, List.not_mem_nil, or_false] at hq
    subst hq; exact good_byteBurst _ (c.atrPayload_ok _).2
  case chtabRead =>
    simp only [handlerOf, chtabReadHandler, List.mem_cons, List.not_mem_nil, or_false] at hq
    subst hq; exact good_byteBurst _ (by simp)
  case decrypt b =>
    simp only [handlerOf, decryptHandler, List.mem_cons, List.not_mem_nil, or_false] at hq
    rcases hq with rfl | rfl | rfl
    · left; intro p hp
      simp only [messageReads, List.mem_flatMap, List.mem_cons, List.not_mem_nil, or_false] at hp
      obtain ⟨i, -, rfl | rfl⟩ := hp <;> rfl
    · left; intro p hp
      obtain ⟨x, -, rfl⟩ := List.mem_map.mp hp
      rfl
    · exact good_burst _ (decryptWords_length _ _ _)
  case ent =>
    simp only [handlerOf, entHandler, Handler.seq, List.mem_cons, List.not_mem_nil, or_false] at hq
    rcases hq with rfl | rfl
    · exact .inl (by simp [payloadReads_one, Prim.isPush])
    · show GoodPrims (entPrims c s.buf[0] s.nv)
      unfold entPrims
      have h2 : ∀ site, GoodPrims (handshakePrims c site) := fun site => .inl (by
        intro p hp; rcases mem_handshakePrims hp with rfl | ⟨_, rfl⟩ <;> rfl)
      have h1 : ∀ r, GoodPrims (byteBurst (entOf c s.nv r)) := fun r => good_byteBurst _ (by
        have := c.entLen_ok.2
        simpa [entOf, itemBytes, Config.size, NvItem.sizeFor, rbCap] using this)
      split_ifs
      · exact h1 0
      · exact h1 1
      · exact h2 _
      · exact h2 _
      · exact .inl (by simp [Prim.isPush])
  all_goals
    left; intro p hp
    have := H p hp
    simp only [allows] at this
    first
    | (rcases this with ⟨_, rfl⟩ | ⟨_, rfl⟩ | ⟨_, _, _, rfl⟩ <;> rfl)
    | (rcases this with rfl | ⟨_, rfl⟩ <;> rfl)
    | (rcases this with rfl | rfl <;> rfl)
    | (subst this; rfl)
    | (obtain ⟨_, rfl⟩ := this; rfl)

theorem good_roomy {ps : List Prim} (h : GoodPrims ps) : Roomy 16 ps := h.elim (fun h => roomy_of_noPush _ h _) (·.2)

theorem good_drop {ps : List Prim} (h : GoodPrims ps) {k : Nat} {p : Prim} (hk : ps[k]? = some p)
    (hr : p.isRead = true) : Roomy 16 (ps.drop k) := by
  rcases h with h | h
  · exact roomy_of_noPush _ (fun q hq => h q (List.mem_of_mem_drop hq)) _
  · have := h.1 p (List.mem_of_getElem? hk)
    rw [this] at hr; cases hr

/-- A run of good parts from their start, or from a read of one of them, raises nothing. -/
theorem runParts_roomy (c : Config) (ps : List (State → List Prim)) (hps : ∀ q ∈ ps, ∀ s, GoodPrims (q s)) (k : Nat)
    (s : State) (hf : s.fault = none) (hl : s.len ≤ 16)
    (hk : k = 0 ∨ ∃ p, (partPrims ps s)[k]? = some p ∧ p.isRead = true) :
    (runParts c ps k s).state.fault = none ∧ (runParts c ps k s).state.len ≤ 16 := by
  induction ps generalizing k s with
  | nil => exact ⟨hf, hl⟩
  | cons q ps ih =>
    have gq := hps q (by simp)
    have ih' := ih fun r hr => hps r (by simp [hr])
    simp only [runParts]
    by_cases hlt : k < (q s).length
    · have hr : Roomy 16 ((q s).drop k) := by
        rcases hk with rfl | ⟨p, h1, h2⟩
        · exact good_roomy (gq s)
        · rw [partPrims, List.flatMap_cons, List.getElem?_append_left hlt] at h1
          exact good_drop (gq s) h1 h2
      have h := roomy_run c _ 16 s le_rfl hl hf hr
      split
      · next s1 e1 =>
        rw [e1] at h
        exact ih' _ s1 h.1 h.2 (.inl (by omega))
      · next s1 e1 =>
        rw [e1] at h
        exact h
    · rw [List.drop_eq_nil_of_le (by omega)]
      refine ih' _ s hf hl ?_
      rcases hk with rfl | ⟨p, h1, h2⟩
      · exact .inl (Nat.zero_sub _)
      · rw [partPrims, List.flatMap_cons, List.getElem?_append_right (by omega)] at h1
        exact .inr ⟨p, h1, h2⟩

end Sys2Proof.Machine
end

