-- ==== Sys2Proof/Laws/Seed.lean ====
section
/-! SUPPORT. The seeded store (R321, R325): every item reads as its default, and the store after reset has its canonical form. -/

namespace Sys2Proof.Machine

/-! ## Runs of items -/

/-- An item that is not in the list keeps its bytes. -/
theorem seed_other (c : Config) (L : List (NvItem × List Byte)) (hL : ∀ p ∈ L, p.2.length = c.size p.1) (m : Memory)
    (hw : Memory.wf m) (item : NvItem) (hn : ∀ p ∈ L, p.1 ≠ item) :
    ∀ j < c.size item, itemByte c (Memory.updateAll m (L.flatMap fun p => persistWrites c p.1 p.2)) item j =
        itemByte c m item j := by
  intro j hj
  refine Memory.read_updateAll_of_not_mem m hw _ _ ?_
  intro w hwm e
  obtain ⟨p, hp, hwp⟩ := List.mem_flatMap.mp hwm
  obtain ⟨i, hi, rfl⟩ := mem_persistWrites.mp hwp
  have := (c.nvCell_ok p.1 item i j (hL p hp ▸ hi : i < c.size p.1) hj e).1
  exact hn p hp this

/-- An item that is in the list has the bytes given. -/
theorem seed_same (c : Config) (L : List (NvItem × List Byte)) (hL : ∀ p ∈ L, p.2.length = c.size p.1)
    (hN : (L.map (·.1)).Nodup) (m : Memory) (hw : Memory.wf m) (item : NvItem) (v : List Byte) (hm : (item, v) ∈ L) :
    ∀ j (hj : j < v.length), itemByte c (Memory.updateAll m (L.flatMap fun p => persistWrites c p.1 p.2)) item j =
        v[j] := by
  intro j hj
  refine Memory.read_updateAll_of_mem m hw _ _ _ (List.mem_flatMap.mpr ⟨_, hm, mem_persistWrites.mpr ⟨j, hj, rfl⟩⟩) ?_
  intro w hwm e
  obtain ⟨p, hp, hwp⟩ := List.mem_flatMap.mp hwm
  obtain ⟨i, hi, rfl⟩ := mem_persistWrites.mp hwp
  have hji := c.nvCell_ok p.1 item i j (hL p hp ▸ hi : i < c.size p.1) (hL _ hm ▸ hj : j < c.size item) e
  have : p = (item, v) := List.inj_on_of_nodup_map hN hp hm hji.1
  subst this
  simp [hji.2]

/-! ## The defaults -/

/-- What `SeedDefaults` persists (R321). -/
theorem mem_seedItems {c : Config} {p : NvItem × List Byte} : p ∈ seedItems c ↔
    (∃ n, p = (.key n, (c.defKey n).toList)) ∨ p = (.spKey, c.defSpKey.toList) ∨
    (∃ q, p = (.altKey q, altKeyBytes (c.defAltKey q))) ∨ p = (.chTab, c.defChTab.toList) ∨
    (∃ r, p = (.ent r, (List.range c.entLen).map (c.defEnt r))) ∨ p = (.cryptMode, [c.defCryptMode.toByte]) ∨
    p = (.atrIndex, [c.defAtrIndex]) := by
  simp only [seedItems, List.mem_append, List.mem_map, List.mem_finRange, true_and, List.mem_cons, List.not_mem_nil,
    or_false, eq_comm (b := p), or_assoc]

theorem altKeyBytes_length (k : AltKey) : (altKeyBytes k).length = 16 := by
  simp [altKeyBytes]

theorem seedItems_len (c : Config) : ∀ p ∈ seedItems c, p.2.length = c.size p.1 := by
  intro p hp
  rcases mem_seedItems.mp hp with ⟨n, rfl⟩ | rfl | ⟨q, rfl⟩ | rfl | ⟨r, rfl⟩ | rfl | rfl
  case inr.inr.inl => exact altKeyBytes_length _
  all_goals simp

theorem seedItems_nodup (c : Config) : ((seedItems c).map (·.1)).Nodup := by
  have : (seedItems c).map (·.1) = (List.finRange nKey).map NvItem.key ++ [.spKey] ++
      (List.finRange nAltKey).map NvItem.altKey ++ [.chTab] ++ (List.finRange nEnt).map NvItem.ent ++
      [.cryptMode, .atrIndex] := by
    simp only [seedItems, List.map_append, List.map_map, List.map_cons, List.map_nil]
    rfl
  rw [this]
  decide

/-- After seeding, an item has its default bytes. -/
theorem seeded_item (c : Config) (m : Memory) (hw : Memory.wf m) (item : NvItem) (v : List Byte)
    (h : (item, v) ∈ seedItems c) (j : Nat) (hj : j < v.length) :
    itemByte c (seededFrom c m) item j = v[j] :=
  seed_same c _ (seedItems_len c) (seedItems_nodup c) m hw item v h j hj

theorem modeOfByte_toByte (c : Config) (m : CryptMode) : modeOfByte c m.toByte = m := by
  cases m <;> rfl

theorem vecOf_eq {n : Nat} {f : Fin n → Byte} {v : Bytes n} (h : ∀ i (hi : i < n), f ⟨i, hi⟩ = v[i]) : vecOf f = v :=
  Vector.ext fun i hi => by rw [getElem_vecOf]; exact h i hi

theorem altKeyBytes_get (k : AltKey) (j : Nat) (i : Nat) (hj : j < 4) (hi : i < 4)
    (h : 4 * j + i < (altKeyBytes k).length) : (altKeyBytes k)[4 * j + i] = byteOfWord k[j] i := by
  obtain ⟨⟨l⟩, hl⟩ := k
  match l, hl with
  | [a, b, c, d], _ => interval_cases j <;> interval_cases i <;> rfl

theorem altKey_get (c : Config) (m' : Memory) (p : Fin nAltKey) (i : Nat) (hi : i < 4) : (altKeyOf c m' p)[i] =
    le32 (itemByte c m' (.altKey p) (4 * i)) (itemByte c m' (.altKey p) (4 * i + 1))
    (itemByte c m' (.altKey p) (4 * i + 2)) (itemByte c m' (.altKey p) (4 * i + 3)) :=
  match i, hi with
  | 0, _ => rfl
  | 1, _ => rfl
  | 2, _ => rfl
  | 3, _ => rfl

/-! ## The canonical form -/

theorem seededFrom_wf (c : Config) (m : Memory) (hw : Memory.wf m) : Memory.wf (seededFrom c m) :=
  Memory.wf_updateAll m hw _

/-- The store after reset has the canonical form. -/
theorem reset_nv_wf : Memory.wf State.reset.nv := seededFrom_wf _ _ (by decide)

end Sys2Proof.Machine
end

