-- ==== Sys2Proof/Tests/Slice0.lean ====
section
/-! SUPPORT. Tests: what `WellFormed` refuses, words written out from R99, one step of each command with expected values
from `95_test_vectors.md` (reference set P0), and for every statement with hypotheses a state that meets them. -/

namespace Sys2Proof.Tests

open Sys2Proof.Machine

/-! ## Well-formedness -/

theorem test_wellFormed_accepts :
    [Instr.decrypt 0x00, .decrypt 0x22, .decrypt 0x13, .setatr 0x00, .setatr 0x12, .notready 0x0300, .notready 0x0608,
      .pop].all (Instr.wellFormedIn Config.p0) = true := by decide

/-- DECRYPT past `0x0622`: not a member under any parameter set. -/
theorem test_wellFormed_refuses_decrypt : (Instr.decrypt 0x23).wellFormed = false := by decide

/-- SETATR past `0x1412`, and with low nibble 3 or F: not a member under any parameter set. -/
theorem test_wellFormed_refuses_setatr :
    [Instr.setatr 0x13, .setatr 0x03, .setatr 0x0F].all (fun i => i.wellFormed = false) = true := by decide

/-- NOTREADY with a code of another row. -/
theorem test_wellFormed_refuses_notready :
    [Instr.notready 0x0200, .notready 0x0101, .notready 0x240F, .notready 0x0622, .notready 0x1400,
      .notready 0xFFFF].all (fun i => i.wellFormed = false) = true := by decide

/-! ## Words written out from R99 and R90 to R94: bit 8 framed, high byte, low byte -/

theorem test_decode_provisioning :
    decodeWords [0b100000001, 0b000000000] = .ok (.chtabLoad 0, []) ∧
      decodeWords [0b100000001, 0b000000001] = .ok (.chtabLoad 1, []) ∧
      decodeWords [0b100000100, 0b000000000] = .ok (.setmode0, []) ∧
      decodeWords [0b100000100, 0b000000001] = .ok (.setmode1, []) ∧
      decodeWords [0b100010100, 0b000000000] = .ok (.setatr 0x00, []) ∧
      decodeWords [0b100100100, 0b000001111] = .ok (.keyload 15, []) := by decide

theorem test_decode_query :
    decodeWords [0b100000010, 0b000000000] = .ok (.atr, []) ∧
      decodeWords [0b100000010, 0b000000001] = .ok (.chtabRead, []) ∧
      decodeWords [0b101010111, 0b000000000] = .ok (.ident0, []) ∧
      decodeWords [0b101010111, 0b000000010] = .ok (.ident2, []) ∧
      decodeWords [0b101011111, 0b000000000, 0b000000111] = .ok (.ent, [0b000000111]) := by decide

theorem test_decode_handshake :
    decodeWords [0b100000101, 0b000000001] = .ok (.hs05 1, []) ∧
      decodeWords [0b101011110, 0b000000001] = .ok (.hs5e1, []) ∧
      decodeWords [0b101011110, 0b000000010] = .ok (.hs5e2, []) ∧
      decodeWords [0b101011111, 0b000000001] = .ok (.hs5f1, []) := by decide

theorem test_decode_decrypt :
    decodeWords [0b100000110, 0b000000000] = .ok (.decrypt 0x00, []) ∧
      decodeWordsWith Config.p0 [0b100000110, 0b000010111] = .ok (.decrypt 0x17, []) ∧
      decodeWordsWith Config.p0 [0b100000110, 0b000001000] = .ok (.notready 0x0608, []) := by decide

theorem test_decode_fifo :
    decodeWords [0b111111111, 0b011111111] = .ok (.pop, []) ∧
      decodeWords [0b111111111, 0b000000000] = .ok (.notready 0xFF00, []) ∧
      decodeWords [0b100100100, 0b000010000] = .ok (.notready 0x2410, []) := by decide

/-- The form with the table's numbering: 16 bits, bit 0 the code's least significant. -/
theorem test_decodeTableWord :
    decodeTableWord 16 0x2403 = some (.keyload 3) ∧ decodeTableWord 16 0x0101 = some (.chtabLoad 1) := by decide

/-! ## One step of each command (P0) -/

/-- The start of a command under P0, with the words `rx` to come and the store `m`. -/
def start (i : Instr) (rx : List Word9) (m : Memory) : State :=
  { State.afterReset Config.p0 m rx with phase := .run (encode i) 0 }

/-- An address of P0's store (section 3.3). -/
def p0At (n : Fin 194) : Config.p0.Addr := n

/-- What a view of the next state shows. -/
def view {α : Type} (i : Instr) (s : State) (f : State → α) : Option α :=
  (nextState (execWith Config.p0 i s)).map f

/-- A store that holds one item. -/
def holding (item : NvItem) (v : List Byte) : Memory := Memory.updateAll [] (persistWrites Config.p0 item v)

/-- The source's scenario B, first part: the framing bits of payload words are ignored (V3). -/
theorem test_chtabLoad :
    view (.chtabLoad 1) (start (.chtabLoad 1) [0x101, 0x002, 0x103, 0x004, 0x005, 0x106, 0x007, 0x008] [])
      (fun t => (t.txLog, (chTabOf Config.p0 t.nv).toList, t.nvWrites)) =
      some ([0x124, 0x14A], [1, 2, 3, 4, 5, 6, 7, 8], 8) := by decide

/-- A table that differs in three bytes takes three physical writes (V17). -/
theorem test_chtabLoad_writes :
    view (.chtabLoad 0) (start (.chtabLoad 0) (payloadWords [0x11, 0xFF, 0x13, 0xFF, 0x15, 0x16, 0x17, 0xFF])
      (holding .chTab [0x11, 0x12, 0x13, 0x14, 0x15, 0x16, 0x17, 0x18])) State.nvWrites = some 3 := by decide

/-- V10: the sixteen-byte payload of low nibble 2. -/
theorem test_atr :
    view .atr { start .atr [] [] with atrIndex := 0x02 } (fun t => (t.queue, t.rd, t.len)) =
      some ([0x1C0, 0xC1, 0xC2, 0xC3, 0xC4, 0xC5, 0xC6, 0xC7, 0xC8, 0xC9, 0xCA, 0xCB, 0xCC, 0xCD, 0xCE, 0x1CF], 0,
        16) := by decide

/-- V15: the default table as a burst. -/
theorem test_chtabRead :
    view .chtabRead (start .chtabRead [] (holding .chTab [0x11, 0x12, 0x13, 0x14, 0x15, 0x16, 0x17, 0x18]))
      State.queue = some [0x111, 0x12, 0x13, 0x14, 0x15, 0x16, 0x17, 0x118] := by decide

/-- V18: mode 2 selected and persisted with one physical write, nothing sent. -/
theorem test_setmode2 :
    view .setmode2 (start .setmode2 [] []) (fun t => (t.cryptMode, nvCryptModeOf Config.p0 t.nv, t.nvWrites, t.txLog)) =
      some (.alternateVerified, 2, 1, []) := by decide

theorem test_setmode1 :
    view .setmode1 (start .setmode1 [] []) (fun t => (t.cryptMode, nvCryptModeOf Config.p0 t.nv)) =
      some (.alternate, 1) := by decide

/-- V18: the mode in force selected again takes no physical write. -/
theorem test_setmode0 :
    view .setmode0 (start .setmode0 [] []) (fun t => (t.cryptMode, t.nvWrites)) = some (.primary, 0) := by decide

/-- V19: `0x1411`. -/
theorem test_setatr :
    view (.setatr 0x11) (start (.setatr 0x11) [] []) (fun t => (t.atrIndex, nvAtrIndexOf Config.p0 t.nv, t.nvWrites)) =
      some (0x11, 0x11, 1) := by decide

/-- V19: the acknowledges of KEYLOAD and the key it stores. -/
theorem test_keyload :
    view (.keyload 3) (start (.keyload 3) (payloadWords [0xA0, 0xA1, 0xA2, 0xA3, 0xA4, 0xA5, 0xA6, 0xA7]) [])
      (fun t => (t.txLog, (keyOf Config.p0 t.nv 3).toList, (keyOf Config.p0 t.nv 2).toList)) =
      some ([0x1FF, 0x101, 0x101, 0x101, 0x101], [0xA0, 0xA1, 0xA2, 0xA3, 0xA4, 0xA5, 0xA6, 0xA7],
        [0, 0, 0, 0, 0, 0, 0, 0]) := by decide

/-- V16, V13, V14: the identification bursts; one byte is framed once. -/
theorem test_ident :
    view .ident0 (start .ident0 [] []) State.queue = some [0x149, 0x44, 0x130] ∧
      view .ident1 (start .ident1 [] []) State.queue = some [0x100] ∧
      view .ident2 (start .ident2 [] []) State.queue = some [0x149, 0x00, 0x132] := by decide

/-- V50: the acknowledges of the handshake sites, after their payload. -/
theorem test_handshake :
    view .hs5e0 (start .hs5e0 [] []) State.txLog = some [0x101] ∧
      view .hs5e1 (start .hs5e1 [0, 0, 7] []) (fun t => (t.txLog, t.rx)) = some ([0x14A], [7]) ∧
      view .hs5e2 (start .hs5e2 [1, 2, 3, 4] []) State.txLog = some [0x124, 0x1FF] ∧
      view .hs5f1 (start .hs5f1 [9] []) State.txLog = some [0x101] ∧
      view .hs5f2 (start .hs5f2 [9] []) State.txLog = some [0x101] := by decide

/-- V51: record 1 as a burst. -/
theorem test_ent_record :
    view .ent (start .ent [0x001] (holding (.ent 1) [0xFF, 0x2F, 0xF0, 0xF1, 0xF2, 0xF3, 0xF4, 0xF5])) State.queue =
      some [0x1FF, 0x2F, 0xF0, 0xF1, 0xF2, 0xF3, 0xF4, 0x1F5] := by decide

/-- V50: sub-selectors 2, 3 and 7. -/
theorem test_ent_other :
    view .ent (start .ent [0x002] []) State.txLog = some [0x101] ∧
      view .ent (start .ent [0x003, 7, 8, 9] []) State.txLog = some [0x1FF] ∧
      view .ent (start .ent [0x007] []) (fun t => (t.txLog, t.len)) = some ([0x101], 0) := by decide

/-- V5: all thirty-two words are read, framed or not, and nothing is sent. -/
theorem test_hs05 :
    view (.hs05 0) (start (.hs05 0) (List.replicate 31 0x055 ++ [0x1FF, 0x0FF]) []) (fun t => (t.rx, t.txLog)) =
      some ([0x0FF], []) := by decide

/-- The source's scenario A: the idle word from an empty buffer. -/
theorem test_pop_empty :
    view .pop (start .pop [] []) (fun t => (t.txLog, t.rd, t.len)) = some ([0x100], 0, 0) := by decide

/-- The cursor wraps from 15 to 0 (R287). -/
theorem test_pop_wraps :
    view .pop { start .pop [] [] with rd := 15, len := 2, slot := (Vector.replicate 16 0).set 15 0x0155 }
      (fun t => (t.txLog, t.rd, t.len)) = some ([0x155], 0, 1) := by decide

/-- One primitive of POP: the word is off the buffer and held, not yet written (R18, R288; log 23). -/
theorem test_pop_primitives :
    (nextState (primStepWith Config.p0 { start .pop [] [] with len := 1, slot := Vector.replicate 16 0x0142 })).map
      (fun t => (t.phase, t.held, t.len, t.txLog)) = some (.run 0xFFFF 1, 0x142, 0, []) := by decide

/-- Two primitives of DECRYPT: the word is read and held, then it goes to `msg` (R18, R271; log 23). -/
theorem test_decrypt_read :
    let s := start (.decrypt 0x03) (payloadWords [0xA5, 0x01]) []
    (nextState (primStepWith Config.p0 s)).map (fun t => (t.phase, t.held, t.msg[0], t.rx)) =
        some (.run 0x0603 1, 0x0A5, 0, [0x001]) ∧
      (primStepsWith Config.p0 2 s).map (fun t => (t.phase, t.msg[0], t.rx)) =
        some (.run 0x0603 2, 0xA5, [0x001]) := by decide

/-- The first write of an unverified call: `chk`, while `msg` and `cw` stand (R18, R162; log 25). -/
theorem test_decrypt_chk :
    (nextState (primStepWith Config.p0 { start (.decrypt 0x03) [] [] with
        phase := .run 0x0603 32, cryptMode := .alternate, msg := Vector.replicate 16 7 })).map
      (fun t => (t.phase, t.chk, t.msg[0], t.cw[0])) = some (.run 0x0603 33, 1, 7, 0) := by decide

/-- `MemWrite` of three bytes, one of them stored already: two physical writes (R13, R66). -/
theorem test_memWrite :
    let t := (start .pop [] [(7, 0x22)]).memWrite Config.p0 (p0At 6) #v[0x11, 0x22, 0x33]
    (t.memRead Config.p0 (p0At 5) 5, t.nvWrites) = ([0x00, 0x11, 0x22, 0x33, 0x00], 2) := by decide

/-- A framed word is the data byte with bit 8 set, an unframed one with bit 8 clear (R90). -/
theorem test_frame : framedWord 0xA5 = 0x1A5 ∧ plainWord 0xA5 = 0x0A5 := by decide

/-- Section 3.3: the first addresses of P0's store. -/
theorem test_p0Layout :
    [Config.p0.nvCell (.key 15) 7, Config.p0.nvCell .spKey 0, Config.p0.nvCell (.altKey 1) 15,
      Config.p0.nvCell .chTab 0, Config.p0.nvCell (.ent 1) 0, Config.p0.nvCell .cryptMode 0,
      Config.p0.nvCell .atrIndex 0] = [127, 128, 167, 168, 184, 192, 193] := by decide

/-- Section 3.1: P0's burst of eleven words. -/
theorem test_p0Burst :
    Config.p0.decOkBurst #v[1, 2, 3, 4, 5, 6, 7, 8] 5 = [0x106, 1, 2, 3, 4, 5, 6, 0x102, 7, 8, 5] := by decide

/-- V16: NOTREADY leaves a pending burst. -/
theorem test_notready :
    view (.notready 0x0300) { start (.notready 0x0300) [] [] with len := 3 } (fun t => (t.txLog, t.len)) =
      some ([0x101], 3) := by decide

/-- The message of V33 and V35: control word under key 3, auxiliary byte, date. -/
def message (aux : Byte) (date : Word16) : List Word9 :=
  payloadWords [0xF0, 0xE1, 0xD2, 0xC3, 0xB4, 0xA5, 0x96, 0x87, aux, date.extractLsb' 0 8, date.extractLsb' 8 8, 0, 0, 0,
    0, 0]

/-- V33: mode 0 without validation, key 3. -/
theorem test_decrypt_primary :
    view (.decrypt 0x03) (start (.decrypt 0x03) (message 0 0x1234)
      (holding (.key 3) [0x30, 0x31, 0x32, 0x33, 0x34, 0x35, 0x36, 0x37])) State.queue =
      some [0x106, 0x0C0, 0x0D0, 0x0E0, 0x0F0, 0x080, 0x090, 0x102, 0x0A0, 0x0B0, 0x103] := by decide

/-- V35: the bounds pass, one past a bound fails. -/
theorem test_decrypt_window :
    [0x1000, 0x2FFF, 0x0FFF, 0x3000].map (fun d : Word16 =>
      view (.decrypt 0x03) { start (.decrypt 0x03) (message 0 d) [] with
        atrIndex := 0x10, minDate := 0x1000, maxDate := 0x2FFF } State.len) = [some 11, some 11, some 1, some 1] := by
  decide

/-- The input of V30 to V32. -/
def signed : List Word9 :=
  payloadWords [0x11, 0x22, 0x33, 0x44, 0x55, 0x66, 0x77, 0x88, 0x43, 0x59, 0x1F, 0xDA, 0x9A, 0xE8, 0x2F, 0xE6]

/-- V32: mode 1 passes the message through. -/
theorem test_decrypt_unverified :
    view (.decrypt 0x03) { start (.decrypt 0x03) signed [] with cryptMode := .alternate } State.queue =
      some [0x106, 0x011, 0x022, 0x033, 0x044, 0x055, 0x066, 0x102, 0x077, 0x088, 0x103] := by decide

/-- V30 (key 0: match, 32 rounds) and V31 (key 1: mismatch, 8 rounds). -/
theorem test_decrypt_verified :
    view (.decrypt 0x00) { start (.decrypt 0x00) signed (holding (.altKey 0) (altKeyBytes (Config.p0.defAltKey 0))) with
        cryptMode := .alternateVerified } (fun t => (t.queue, t.chk, t.altRounds)) =
      some ([0x106, 0x26, 0x66, 0x1F, 0x83, 0xF9, 0xA7, 0x102, 0x27, 0x96, 0x100], 1, 32) ∧
    view (.decrypt 0x01) { start (.decrypt 0x01) signed (holding (.altKey 1) (altKeyBytes (Config.p0.defAltKey 1))) with
        cryptMode := .alternateVerified } (fun t => (t.queue, t.chk, t.altRounds)) = some ([0x10A], 0, 8) := by decide

/-- A withheld word leaves the handler where it waits (R185): KEYLOAD after its third payload word. -/
theorem test_withheld_word :
    view (.keyload 0) (start (.keyload 0) [0x001, 0x002, 0x003] []) (fun t => (t.phase, t.txLog)) =
      some (.run 0x2400 5, [0x1FF, 0x101]) := by decide

/-- No word while sampling: stuck (R306). -/
theorem test_stuck : step { start .pop [] [] with phase := .cand 0x02 } = .fault .hostSilent := rfl

/-! ## First initialisation under P0 (V60) -/

/-- The order of a seeded item's bytes and of the window's bounds. -/
theorem test_seeded :
    let t := State.resetTo Config.p0 .firstInit (start .pop [] [])
    (t.minDate, t.maxDate, itemByte Config.p0 t.nv (.key 5) 3, itemByte Config.p0 t.nv (.altKey 1) 4) =
      (0x1000, 0x2FFF, 0x53, 0x14) := by decide +kernel

/-! ## Witnesses: for every statement with hypotheses, values that meet all of them -/

/-- The device after a restart on an empty store, the words `rx` to come. -/
def waiting (rx : List Word9) : State := State.afterReset Config.device [] rx

/-- The same with a command dispatched. -/
def running (i : Instr) (rx : List Word9) : State := { waiting rx with phase := .run (encode i) 0 }

theorem witness_DecodeOfEncode :
    (Instr.decrypt 0x17).wellFormedIn Config.p0 = true ∧ (Instr.setatr 0x12).wellFormedIn Config.p0 = true ∧
      (Instr.notready 0xFFFE).wellFormedIn Config.p0 = true ∧ Instr.pop.wellFormedIn Config.p0 = true := by decide

theorem witness_DetectionStep :
    (∃ s : State, s.fault = none ∧ s.rx = 0x101 :: [] ∧ s.phase = .idle) ∧
      ∃ s : State, s.fault = none ∧ s.rx = 0x001 :: [] ∧ s.phase = .cand 0x02 :=
  ⟨⟨waiting [0x101], rfl, rfl, rfl⟩, ⟨{ waiting [0x001] with phase := .cand 0x02 }, rfl, rfl, rfl⟩⟩

theorem witness_BoundaryAfterNoise :
    ∃ s : State, s.fault = none ∧ s.phase = .idle ∧ s.rx = [0x0CC] ++ ([0x1AA] ++ 0x1BB :: 0x0CC :: []) ∧
      (∀ u ∈ [(0x0CC : Word9)], isFramed u = false) ∧ (∀ x ∈ [(0x1AA : Word9)], isFramed x = true) ∧
      isFramed 0x1BB = true ∧ isFramed 0x0CC = false :=
  ⟨waiting [0x0CC, 0x1AA, 0x1BB, 0x0CC], rfl, rfl, rfl, by decide, by decide, by decide, by decide⟩

theorem witness_StepRunsDecoded : ∃ s : State, s.fault = none ∧ s.phase = .run 0xFFFF 0 :=
  ⟨running .pop [], rfl, rfl⟩

theorem witness_CommandWordsRun :
    ∃ s : State, Instr.pop.wellFormed = true ∧ s.fault = none ∧ s.sampling = true ∧
      s.rx = encodeWords .pop ++ [] :=
  ⟨waiting (encodeWords .pop), rfl, rfl, rfl, rfl⟩

theorem witness_StepIsPrimitiveSteps :
    ∃ s t : State, s.fault = none ∧ s.phase = .run (encode .pop) 0 ∧ stepWith Config.p0 s = .next t :=
  ⟨running .pop [], _, rfl, rfl, rfl⟩

/-- A step that writes a byte of `msg`, and one that writes a byte of the store. -/
theorem witness_PrimitiveStepDoesOneThing :
    (∃ s t : State, primStepWith Config.p0 s = .next t ∧ s.phase = .run (encode (.decrypt 0x03)) 1) ∧
      ∃ s t : State, primStepWith Config.p0 s = .next t ∧ s.phase = .run (encode .setmode1) 1 :=
  ⟨⟨{ start (.decrypt 0x03) [] [] with phase := .run 0x0603 1 }, _, rfl, rfl⟩,
    ⟨{ start .setmode1 [] [] with phase := .run 0x0401 1 }, _, rfl, rfl⟩⟩

theorem witness_HostPaceIrrelevant :
    ∃ s t : State, s.fault = none ∧ s.phase = .run 0x2400 0 ∧ [(0x001 : Word9)] ≠ [] ∧
      stepWith Config.p0 s = .next t :=
  ⟨running (.keyload 0) [], _, rfl, rfl, by decide, rfl⟩

/-- Every command has a start with its payload supplied. -/
theorem witness_EveryCommandCompletes (i : Instr) :
    ∃ s : State, s.atStart i ∧ wordsRead Config.device i s ≤ s.rx.length := by
  refine ⟨running i (List.replicate (payloadCount Config.device i) 0), rfl, ?_⟩
  show _ ≤ (List.replicate (payloadCount Config.device i) 0).length
  rw [List.length_replicate]
  cases i <;> exact le_rfl

theorem witness_WordsReadInOrder : ∃ s t : State, step s = .next t := ⟨waiting [0x000], _, rfl⟩

theorem witness_ChtabLoadPersists :
    ∃ s : State, s.atStart (.chtabLoad 1) ∧ Memory.wf s.nv ∧ s.rx = List.ofFn (fun _ : Fin 8 => (0x1FF : Word9)) ++ [] :=
  ⟨running (.chtabLoad 1) (List.replicate 8 0x1FF), rfl, by decide, by decide⟩

theorem witness_SetmodeSelects :
    (running .setmode0 []).atStart .setmode0 ∧ (running .setmode1 []).atStart .setmode1 ∧
      (running .setmode2 []).atStart .setmode2 := ⟨rfl, rfl, rfl⟩

theorem witness_SetatrSelects : (running (.setatr 0x12) []).atStart (.setatr 0x12) := rfl

theorem witness_KeyloadPersists :
    ∃ s : State, s.atStart (.keyload 15) ∧ Memory.wf s.nv ∧ s.rx = List.ofFn (fun _ : Fin 8 => (0x1FF : Word9)) ++ [] :=
  ⟨running (.keyload 15) (List.replicate 8 0x1FF), rfl, by decide, by decide⟩

theorem witness_PersistStoresItem :
    Memory.wf [] ∧ (List.replicate 16 (0xFF : Byte)).length = Config.p0.size (.altKey 1) := by decide

theorem witness_ProvisioningFrame :
    ∃ s t : State, writtenItem .setmode0 = some .cryptMode ∧ Memory.wf s.nv ∧ exec .setmode0 s = .next t :=
  ⟨running .setmode0 [], _, rfl, by decide, rfl⟩

/-- One command for each clause of the matrix. -/
theorem witness_AccessMatrix :
    (∃ s t : State, exec .pop s = .next t ∧ writtenItem .pop = none ∧ isDecrypt .pop = false) ∧
      (∃ s t : State, exec .setmode1 s = .next t ∧ usesBuffer .setmode1 = false) ∧
      (∃ s t : State, exec (.decrypt 0) s = .next t ∧ isDecrypt (.decrypt 0) = true ∧ s.cryptMode = .primary) ∧
      ∃ s t : State, exec (.decrypt 0) s = .next t ∧ isDecrypt (.decrypt 0) = true ∧ s.cryptMode ≠ .primary :=
  ⟨⟨running .pop [], _, rfl, rfl, rfl⟩, ⟨running .setmode1 [], _, rfl, rfl⟩,
    ⟨{ running (.decrypt 0) [0] with cryptMode := .primary }, _, rfl, rfl, rfl⟩,
    ⟨{ running (.decrypt 0) [0] with cryptMode := .alternateVerified }, _, rfl, rfl, by decide⟩⟩

/-- The clause for ENT at the least sub-selector it covers, its site's payload supplied. -/
theorem witness_AccessMatrix_ent : ∃ s t : State, exec .ent s = .next t ∧ 2 ≤ t.buf[0].toNat :=
  let ws := List.replicate (Config.device.hsLen .h5F00s2) (0 : Word9)
  let s := running .ent (0x002 :: (ws ++ []))
  ⟨s, _, (exec_eq .ent s).trans (seq_next rfl rfl (effect_readBuf0 _ rfl)
    (effect_handshake Config.device .h5F00s2 ws [] List.length_replicate rfl)), le_refl 2⟩

theorem witness_NeverWritten : ∃ s t : State, Memory.wf s.nv ∧ step s = .next t :=
  ⟨running .pop [], _, by decide, rfl⟩

/-- KEYLOAD of key 3, then `0x0603`, under P0. -/
theorem witness_KeyReadAfterWrite :
    let c := Config.p0
    let p : Fin 8 → Byte := fun _ => 0xA0
    let m : Fin 16 → Byte := fun _ => 0
    ∃ s : State, s.fault = none ∧ s.phase = .idle ∧ Memory.wf s.nv ∧ s.cryptMode = .primary ∧
      c.decryptCode (encode (.decrypt 0x03)) = true ∧
      c.keySel (keyIndexOf c (encode (.decrypt 0x03))) s.atrIndex = (3 : BitVec 4).toFin ∧
      c.audienceOf (encode (.decrypt 0x03)) (vecOf m)
        (nvViewOf c (Memory.updateAll s.nv (persistWrites c (.key 3) (vecOf p).toList))) ≠ c.audSpecial ∧
      s.rx = encodeWords (.keyload 3) ++ payloadWords (List.ofFn p) ++
        (encodeWords (.decrypt 0x03) ++ payloadWords (List.ofFn m) ++ []) :=
  ⟨State.afterReset Config.p0 [] _, rfl, rfl, by decide, by decide, by decide, by decide, by decide, rfl⟩

theorem witness_query :
    (running .atr []).atStart .atr ∧ (running .chtabRead []).atStart .chtabRead ∧
      (running .ident0 []).atStart .ident0 ∧ (running .ident1 []).atStart .ident1 ∧
      (running .ident2 []).atStart .ident2 := ⟨rfl, rfl, rfl, rfl, rfl⟩

/-- Both records, the word framed or not. -/
theorem witness_EntRecordBurst :
    (running .ent [0x100]).atStart .ent ∧ ((0x100 : Word9).extractLsb' 0 8).toNat = (0 : Fin 2).val ∧
      ((0x001 : Word9).extractLsb' 0 8).toNat = (1 : Fin 2).val := ⟨rfl, by decide, by decide⟩

theorem witness_EntHandshake (site : HsSite) :
    ∃ (s : State) (ws : List Word9), s.atStart .ent ∧ ws.length = Config.device.hsLen site ∧
      s.rx = 0x003 :: ws ++ [] ∧ (0x003 : Word9).extractLsb' 0 8 = (3 : Byte) ∧
      (0x002 : Word9).extractLsb' 0 8 = (2 : Byte) :=
  ⟨running .ent (0x003 :: List.replicate (Config.device.hsLen site) 0 ++ []), _, rfl, List.length_replicate, rfl,
    by decide, by decide⟩

/-- The ends of the range 4 to 255. -/
theorem witness_EntOtherNotReady :
    ∃ s : State, s.atStart .ent ∧ s.rx = 0x004 :: [] ∧ 4 ≤ ((0x004 : Word9).extractLsb' 0 8).toNat ∧
      4 ≤ ((0x1FF : Word9).extractLsb' 0 8).toNat :=
  ⟨running .ent [0x004], rfl, rfl, by decide, by decide⟩

theorem witness_HandshakeAnswers (site : HsSite) :
    ∃ (s : State) (ws : List Word9), s.atStart .hs5e1 ∧ ws.length = Config.device.hsLen site ∧ s.rx = ws ++ [] :=
  ⟨running .hs5e1 (List.replicate (Config.device.hsLen site) 0 ++ []), _, rfl, List.length_replicate, rfl⟩

theorem witness_Hs05Discards :
    ∃ s : State, s.atStart (.hs05 1) ∧ (List.replicate 32 (0x1FF : Word9)).length = 32 ∧
      s.rx = List.replicate 32 0x1FF ++ [] :=
  ⟨running (.hs05 1) (List.replicate 32 0x1FF ++ []), rfl, List.length_replicate, rfl⟩

/-- The three modes of DECRYPT. -/
theorem witness_DecryptMode (m : CryptMode) :
    ∃ s : State, s.atStart (.decrypt 0x22) ∧ s.cryptMode = m ∧ s.rx = List.ofFn (fun _ : Fin 16 => (0 : Word9)) ++ [] :=
  ⟨{ running (.decrypt 0x22) (List.ofFn (fun _ : Fin 16 => (0 : Word9)) ++ []) with cryptMode := m }, rfl, rfl, rfl⟩

/-- A date below the window, and one above it, under P0 with `atrIndex` `0x10`. -/
theorem witness_DateOutsideWindowFails (hi : Byte) (h : hi = 0x00 ∨ hi = 0x30) :
    let c := Config.p0
    let m : Fin 16 → Byte := fun i => if i.val = 10 then hi else 0
    ∃ s : State, s.fault = none ∧ s.phase = .idle ∧ s.cryptMode = .primary ∧
      c.decryptCode (encode (.decrypt 0)) = true ∧ c.validatingPolicy (s.atrIndex.extractLsb' 4 4) = true ∧
      c.audienceOf (encode (.decrypt 0)) (vecOf m) (nvViewOf c s.nv) ≠ c.audSpecial ∧
      (let d := (decryptPrimary c (keyOf c s.nv (c.keySel (c.keyIndexOf (encode (.decrypt 0))) s.atrIndex))
          (vecOf m)).date;
        d.toNat < s.minDate.toNat ∨ s.maxDate.toNat < d.toNat) ∧
      s.rx = encodeWords (.decrypt 0) ++ payloadWords (List.ofFn m) ++ (popScript 2 ++ []) := by
  rcases h with rfl | rfl <;>
    exact ⟨{ State.afterReset Config.p0 [] _ with atrIndex := 0x10, minDate := 0x1000, maxDate := 0x2FFF }, rfl, rfl,
      by decide, by decide, by decide, by decide, by decide, rfl⟩

/-- Both clauses: an empty and a full buffer. -/
theorem witness_PopReturns :
    (running .pop []).atStart .pop ∧ (running .pop []).len = 0 ∧
      ({ running .pop [] with len := 16 } : State).atStart .pop ∧ ({ running .pop [] with len := 16 } : State).len ≠ 0 :=
  ⟨rfl, rfl, rfl, by decide⟩

theorem witness_NotReadyAnswers : (running (.notready 0x0300) []).atStart (.notready 0x0300) := rfl

/-- Sixteen words onto an empty queue whose cursor stands at 14. -/
theorem witness_FifoLaw :
    ({ waiting [] with rd := 14 } : State).len = 0 ∧ (List.replicate 16 (0xABCD : Word16)).length ≤ 16 :=
  ⟨rfl, by decide⟩

theorem witness_CapacityViolation : ({ waiting [] with len := 16 } : State).len = 16 := rfl

/-- The empty queue, one word, and sixteen. -/
theorem witness_FrameSetsEnds :
    (waiting []).len = 0 ∧ (1 ≤ ({ waiting [] with len := 1 } : State).len) ∧
      (1 ≤ ({ waiting [] with len := 16 } : State).len) ∧ ({ waiting [] with len := 16 } : State).len ≤ 16 :=
  ⟨rfl, le_rfl, by decide, le_rfl⟩

theorem witness_ChtabRoundTrip :
    let b : Fin 8 → Byte := fun _ => 0xFF
    ∃ s : State, s.fault = none ∧ s.phase = .idle ∧ Memory.wf s.nv ∧
      s.rx = encodeWords (.chtabLoad 0) ++ payloadWords (List.ofFn b) ++
        (encodeWords .chtabRead ++ (popScript 8 ++ [])) :=
  ⟨waiting _, rfl, rfl, by decide, rfl⟩

/-- Both cases of the counter, the byte stored already and another, and another address. -/
theorem witness_UpdateIfChanged :
    Memory.wf (waiting []).nv ∧ (waiting []).nvReadByte Config.p0 (p0At 193) = 0x00 ∧
      (waiting []).nvReadByte Config.p0 (p0At 193) ≠ 0x01 ∧ p0At 192 ≠ p0At 193 :=
  ⟨by decide, by decide, by decide, fun h => absurd (congrArg Fin.val h) (by decide)⟩

/-- A block of three bytes at the last address that has room for it, with three addresses, and a cell outside it. -/
theorem witness_BlockWrite :
    Memory.wf (waiting []).nv ∧
      (∀ i j, i < j → j < 3 → Config.p0.addrAdd (p0At 191) j ≠ Config.p0.addrAdd (p0At 191) i) ∧
      ∀ i, i < 3 → Config.p0.addrCell (Config.p0.addrAdd (p0At 191) i) ≠ 0 := by
  refine ⟨by decide, fun i j hij hj h => ?_, by decide⟩
  have hv : (191 + j) % 194 = (191 + i) % 194 := congrArg Fin.val h
  omega

/-- A block whose first byte another of its bytes follows at the same address, and the last one that stands. -/
theorem witness_BlockWrite_last :
    Config.p0.addrAdd (p0At 0) 194 = Config.p0.addrAdd (p0At 0) 0 ∧
      ∀ j, 194 < j → j < 195 → Config.p0.addrAdd (p0At 0) j ≠ Config.p0.addrAdd (p0At 0) 194 :=
  ⟨rfl, fun j h1 h2 => absurd h1 (by omega)⟩

theorem witness_LittleEndianWords : ∃ o, o ≤ 12 ∧ (∃ j, j < 4 ∧ o + j = 15) ∧ ∃ i, i < o ∨ o + 4 ≤ i :=
  ⟨12, le_rfl, ⟨3, by decide, rfl⟩, ⟨0, by decide⟩⟩

/-- The message of V30: it matches under key 0 of P0. -/
def signedBytes : Bytes 16 :=
  #v[0x11, 0x22, 0x33, 0x44, 0x55, 0x66, 0x77, 0x88, 0x43, 0x59, 0x1F, 0xDA, 0x9A, 0xE8, 0x2F, 0xE6]

theorem witness_AltMatch :
    let c := Config.p0
    let r8 := altRun c (c.defAltKey 0) 8 ⟨0, altField c signedBytes .v0, altField c signedBytes .v1⟩
    r8.v0 = altField c signedBytes .s0 ∧ r8.v1 = altField c signedBytes .s1 := by decide

/-- V31: the same message under key 1. -/
theorem witness_AltMismatch :
    let c := Config.p0
    let r := altRun c (c.defAltKey 1) 8 ⟨0, altField c signedBytes .v0, altField c signedBytes .v1⟩
    ¬ (r.v0 = altField c signedBytes .s0 ∧ r.v1 = altField c signedBytes .s1) := by decide

theorem witness_TamperedSignatureFails :
    let c := Config.p0
    let m' := signedBytes.set 15 0xE7
    altField c m' .v0 = altField c signedBytes .v0 ∧ altField c m' .v1 = altField c signedBytes .v1 ∧
      m' ≠ signedBytes ∧ (decryptAlternate c true (c.defAltKey 0) signedBytes).chk = 1 := by decide

/-- Some parts of a primary cipher. -/
def someParts : PrimaryParts where
  tables := ⟨fun _ => .one, fun _ => 0, fun _ => 0, fun _ => 0, fun _ => 0, fun _ => 0, fun _ => 0, fun _ => 0⟩
  keyReduce := fun _ _ => ⟨0, 0⟩
  keyAdjust := fun k _ => k
  cwIP := fun _ b => b
  expandKey := fun _ _ => Vector.replicate 8 0
  expandData := fun _ _ => Vector.replicate 8 0
  sboxLookup := fun _ _ _ _ => 0
  outPermute := fun _ _ => Vector.replicate 4 0
  keyOrderL := Equiv.refl _
  keyOrderR := Equiv.refl _
  cwFP := fun _ b => b
  auxPos := 0
  dateFields := fun _ _ => (0xFFFF, 1)
  halfPos := fun i j => if i = 0 then j.castLE (by decide) else j.addNat 4
  cwRepack := fun b => b

/-- The designated bytes of each half's output (R136). -/
theorem test_halfResult :
    halfResult someParts 0 #v[0, 1, 2, 3, 4, 5, 6, 7] = #v[0, 1, 2, 3] ∧
      halfResult someParts 1 #v[0, 1, 2, 3, 4, 5, 6, 7] = #v[4, 5, 6, 7] := by decide

/-- The writes of `wk` by the assembled form: the start key and sixteen rotations, for each half (R124, R133). -/
theorem test_workingKeys :
    (workingKeys someParts ⟨1, 2⟩).length = 17 ∧ (workingKeys someParts ⟨1, 2⟩)[0]? = some ⟨1, 2⟩ := by decide

/-- Two messages that differ in half 1 alone. -/
theorem witness_AuxAndDate :
    ∃ _ : PrimaryParts, (∀ i, i < 8 → byteAt (signedBytes.set 15 0) i = byteAt signedBytes i) ∧
      signedBytes.set 15 0 ≠ signedBytes :=
  ⟨someParts, by decide, by decide⟩

/-- Two keys that agree in one half each. -/
theorem witness_KeyRotation :
    ∃ _ : PrimaryParts, (⟨1, 2⟩ : K56).kL = (⟨1, 0⟩ : K56).kL ∧ (⟨1, 2⟩ : K56).kR = (⟨0, 2⟩ : K56).kR :=
  ⟨someParts, rfl, rfl⟩

theorem witness_FirstInitDefaults : Memory.wf (waiting []).nv := by decide

/-- Any parameter set on an empty store meets the invariant. -/
theorem empty_store_inv (c : Config) (rx : List Word9) : InvWith c (State.afterReset c [] rx) where
  noFault := rfl
  nvWf := by show Memory.wf []; decide
  lenLe := Nat.zero_le _
  queued := by intro w hw; cases hw
  mode := rfl
  atr := rfl
  atrLow := by show (atrLo (0 : Byte)).toNat < 3; decide
  minDate := rfl
  maxDate := rfl
  parked := trivial

theorem witness_RestartRetains : InvWith Config.p0 (State.afterReset Config.p0 [] []) := empty_store_inv _ _

theorem witness_StepKeepsInv : ∃ s t : State, Inv s ∧ step s = .next t :=
  ⟨waiting [0x124], _, empty_store_inv _ _, rfl⟩

/-- The invariant holds of a state that a command has been dispatched in, too. -/
theorem witness_StepKeepsInv_run : ∃ s t : State, Inv s ∧ s.atStart .pop ∧ step s = .next t :=
  ⟨running .pop [], _, { empty_store_inv Config.device [] with parked := .inl rfl }, rfl, rfl⟩

theorem witness_HostKeepsInv : Inv (waiting []) := empty_store_inv _ _

end Sys2Proof.Tests
end

/-! PROOFS of the scope statements: the stops of a step, the two sizes of step, the host's pace and its words, blocks
of the store, and what one primitive step changes. -/

namespace Sys2Proof

/-! ## The decoder drops no bit of a code (R103, R104, R184) -/

/-- A row of one code has that code. -/
theorem eq_of_oneCode_selects {m code : Word16} (h : (oneCode m).selects code = true) : m = code := by
  rw [oneCode_selects] at h
  exact (eq_of_beq h).symm

/-- The code of the instruction a code decodes to is that code: no bit is dropped (R103, R104). -/
theorem encode_decodeWith (c : Config) (code : Word16) : encode (decodeWith c code) = code := by
  obtain ⟨chtabBits, hs05Bits, keyBits⟩ := row_operands
  have test {p : Prop} [Decidable p] {a b : Instr} (ha : p → encode a = code) (hb : ¬ p → encode b = code) :
      encode (if p then a else b) = code := ite_ind (P := (encode · = code)) ha hb
  have one {m : Word16} {i : Instr} (he : encode i = m) (h : (oneCode m).selects code = true) : encode i = code :=
    he.trans (eq_of_oneCode_selects h)
  have low {h : Byte} (hh : codeHigh code = h) : h ++ codeLow code = code := hh ▸ (code_eq_append code).symm
  exact test (fun h => low (codeHigh_of_decryptCode h)) fun _ => test (fun h => low (codeHigh_of_atrCode h)) fun _ =>
    test (code_of_selects chtabBits) fun _ => test (one rfl) fun _ => test (one rfl) fun _ => test (one rfl) fun _ =>
    test (one rfl) fun _ => test (one rfl) fun _ => test (code_of_selects hs05Bits) fun _ =>
    test (code_of_selects keyBits) fun _ => test (one rfl) fun _ => test (one rfl) fun _ => test (one rfl) fun _ =>
    test (one rfl) fun _ => test (one rfl) fun _ => test (one rfl) fun _ => test (one rfl) fun _ =>
    test (one rfl) fun _ => test (one rfl) fun _ => test (one rfl) fun _ => rfl

end Sys2Proof

namespace Sys2Proof.Machine

/-! ## Steps in a dispatched state -/

/-- A step in a dispatched state runs the handler of its code. -/
theorem stepWith_dispatched (c : Config) {s : State} {code : Word16} {k : Nat} (hf : s.fault = none)
    (hp : s.phase = .run code k) : stepWith c s = runHandler c code (handlerOf c (decodeWith c code)) s :=
  (stepWith_run hf hp (encode_decodeWith c code)).1

/-- A step of R18's size in a dispatched state is a primitive of the handler of its code. -/
theorem primStepWith_dispatched (c : Config) {s : State} {code : Word16} {k : Nat} (hf : s.fault = none)
    (hp : s.phase = .run code k) : primStepWith c s = (handlerOf c (decodeWith c code)).primStep c s :=
  (stepWith_run hf hp (encode_decodeWith c code)).2

/-- What a state with a recorded fault answers (R305). -/
theorem step_recorded {s : State} {f : ModelFault} (h : s.fault = some f) : step s = .fault (.recorded f) := by
  simp [step, stepBy, h]

/-- Sampling stops exactly where the host has no word (R306), and has no other stop. -/
theorem sample_stops (s : State) :
    (sample s = .fault .hostSilent ↔ s.rx = []) ∧ (∀ f, sample s ≠ .fault (.recorded f)) ∧
      ∀ r, sample s ≠ .refused r := by
  cases hrx : s.rx with
  | nil => simp [sample, State.chRead, hrx]
  | cons w rest => simp [sample_cons hrx]

/-- A state samples or a command runs in it (R22). -/
theorem sampling_or_run (s : State) : s.sampling = true ∨ ∃ code k, s.phase = .run code k := by
  cases hp : s.phase with
  | idle => exact .inl (by simp [State.sampling, hp])
  | cand h => exact .inl (by simp [State.sampling, hp])
  | run code k => exact .inr ⟨code, k, rfl⟩

/-- The stops of a step where no fault is recorded: the host is silent, and nothing else. -/
theorem step_stops {s : State} (hf : s.fault = none) :
    (step s = .fault .hostSilent ↔ s.rx = [] ∧ (s.sampling = true ∨
        ∃ code k, s.phase = .run code k ∧ (handlerOf Config.device (decode code)).atRead s = true)) ∧
      (∀ f, step s ≠ .fault (.recorded f)) ∧ ∀ r, step s ≠ .refused r := by
  rw [step_eq]
  rcases sampling_or_run s with hs | ⟨code, k, hp⟩
  · obtain ⟨silent, rest⟩ := sample_stops s
    rw [stepWith_sampling hf hs]
    exact ⟨silent.trans (by simp [hs]), rest⟩
  · obtain ⟨silent, rest⟩ := runHandler_fault (c := Config.device) (h := handlerOf Config.device (decode code)) hp
    rw [stepWith_dispatched Config.device hf hp]
    refine ⟨silent.trans (and_congr_right fun _ => ?_), rest⟩
    simp [State.sampling, hp]

/-- Settles O10: with a recorded fault the step answers it; without one, sampling and the handler's run are stuck exactly
before a `ChRead()` with no word. -/
theorem stepStops : Obligations.StepStops := by
  intro s
  cases hf : s.fault with
  | some g =>
    rw [step_recorded hf]
    exact ⟨by simp, by simp, by simp⟩
  | none =>
    obtain ⟨silent, notRecorded, notRefused⟩ := step_stops hf
    exact ⟨fun f => by simp [notRecorded f], by simpa using silent, notRefused⟩

/-! ## A run of parts, primitive by primitive -/

theorem perform_advance_fault {c : Config} {p : Prim} {s s' : State} (h : p.perform c s = .done s') :
    s'.advance.fault = s.fault := (State.advance_fault s').trans (perform_fault h)

/-- A primitive performed inside a command leaves the state at the next index. -/
theorem perform_advance_phase {c : Config} {p : Prim} {s s' : State} {code : Word16} {k : Nat}
    (hp : s.phase = .run code k) (h : p.perform c s = .done s') : s'.advance.phase = .run code (k + 1) := by
  rw [State.advance_eq s' ((Prim.perform_phase h).trans hp), State.setPhase_phase]

/-- A part that a primitive keeps is kept by the step counted, too. -/
theorem KeepsPart.advance {c : Config} {q r : State → List Prim} (hk : KeepsPart c q r) (hq : PhaseFree q)
    {p : Prim} {s s' : State} (hp : p ∈ r s) (h : p.perform c s = .done s') : q s'.advance = q s := by
  obtain ⟨ph, hph⟩ := State.advance_cases s'
  rw [hph, hq, hk s p s' hp h]

/-- Which primitive has an index does not depend on the phase. -/
theorem Stable.primAt_advance {c : Config} {h : Handler} (hst : Stable c h) (k : Nat) (s : State) :
    h.primAt k s.advance = h.primAt k s := by
  obtain ⟨ph, hph⟩ := State.advance_cases s
  rw [hph, Handler.primAt, Handler.primAt, partPrims, partPrims,
    List.flatMap_congr fun q hq => hst.phase q hq s ph]

/-- A part whose primitives are all performed is skipped. -/
theorem runParts_skip (c : Config) {q : State → List Prim} (ps : List (State → List Prim)) {k : Nat} {s : State}
    (hk : (q s).length ≤ k) : runParts c (q :: ps) k s = runParts c ps (k - (q s).length) s := by
  simp only [runParts, List.drop_eq_nil_of_le hk, runPrims]

/-- The primitive at an index past the first part is one of a later part. -/
theorem partPrims_skip {q : State → List Prim} (ps : List (State → List Prim)) {k : Nat} {s : State}
    (hk : (q s).length ≤ k) : (partPrims (q :: ps) s)[k]? = (partPrims ps s)[k - (q s).length]? := by
  rw [partPrims, List.flatMap_cons, List.getElem?_append_right hk]
  rfl

/-- A primitive of the first part is next: the rest of that part begins with it. -/
theorem drop_first_part {q : State → List Prim} {ps : List (State → List Prim)} {k : Nat} {s : State} {p : Prim}
    (hk : k < (q s).length) (hp : (partPrims (q :: ps) s)[k]? = some p) :
    p ∈ q s ∧ (q s).drop k = p :: (q s).drop (k + 1) := by
  rw [partPrims, List.flatMap_cons, List.getElem?_append_left hk, List.getElem?_eq_getElem hk,
    Option.some.injEq] at hp
  exact ⟨hp ▸ List.getElem_mem hk, hp ▸ List.drop_eq_getElem_cons hk⟩

/-- Past the last primitive a run is finished. -/
theorem runParts_end (c : Config) (ps : List (State → List Prim)) (k : Nat) (s : State)
    (h : (partPrims ps s)[k]? = none) : runParts c ps k s = .finished s := by
  induction ps generalizing k with
  | nil => rfl
  | cons q ps ih =>
    have hk : (q s).length ≤ k := by
      have := List.getElem?_eq_none_iff.mp h
      rw [partPrims, List.flatMap_cons, List.length_append] at this
      omega
    rw [runParts_skip c ps hk]
    exact ih _ (partPrims_skip ps hk ▸ h)

/-- A run stops where its next primitive is blocked or raises a fault. -/
theorem runParts_stop {c : Config} {p : Prim} {s t : State}
    (hstop : ∀ rest, runPrims c (p :: rest) s = .stopped t) (ps : List (State → List Prim)) (k : Nat)
    (h : (partPrims ps s)[k]? = some p) : runParts c ps k s = .stopped t := by
  induction ps generalizing k with
  | nil => simp [partPrims] at h
  | cons q ps ih =>
    rcases Nat.lt_or_ge k (q s).length with hk | hk
    · simp only [runParts, (drop_first_part hk h).2, hstop]
    · rw [runParts_skip c ps hk]
      exact ih _ (partPrims_skip ps hk ▸ h)

/-- A run goes on from the next index after performing its next primitive. -/
theorem runParts_go {c : Config} {p : Prim} {s s' : State} (hd : p.perform c s = .done s')
    (ps : List (State → List Prim)) (hst : Stable c ⟨ps⟩) (k : Nat) (h : (partPrims ps s)[k]? = some p) :
    runParts c ps k s = runParts c ps (k + 1) s'.advance := by
  induction ps generalizing k with
  | nil => simp [partPrims] at h
  | cons q ps ih =>
    have hq := hst.phase q (by simp)
    rcases Nat.lt_or_ge k (q s).length with hk | hk
    · obtain ⟨hmem, hdrop⟩ := drop_first_part hk h
      have hkeep : q s'.advance = q s := (hst.self q (by simp)).advance hq hmem hd
      simp only [runParts, hdrop, runPrims, hd, hkeep, Nat.sub_eq_zero_of_le hk, Nat.sub_eq_zero_of_le hk.le]
    · rw [partPrims_skip ps hk] at h
      obtain ⟨r, hr, hmem⟩ := List.mem_flatMap.mp (List.mem_of_getElem? h)
      have hkeep : q s'.advance = q s := ((List.pairwise_cons.mp hst.later).1 r hr).advance hq hmem hd
      rw [runParts_skip c ps hk, ih hst.tail _ h, runParts_skip c ps (by rw [hkeep]; omega), hkeep,
        Nat.sub_add_comm hk]

/-! ## The index a run comes to -/

/-- A run of primitives does not go back. -/
theorem runPrims_index (c : Config) (ps : List Prim) {s : State} {code : Word16} {k : Nat}
    (hp : s.phase = .run code k) : ∃ m, k ≤ m ∧ (runPrims c ps s).state.phase = .run code m := by
  induction ps generalizing s k with
  | nil => exact ⟨k, le_rfl, hp⟩
  | cons p ps ih =>
    simp only [runPrims]
    cases h : p.perform c s with
    | blocked => exact ⟨k, le_rfl, hp⟩
    | raised f => exact ⟨k, le_rfl, hp⟩
    | done s' =>
      obtain ⟨m, hm, he⟩ := ih (perform_advance_phase hp h)
      exact ⟨m, by omega, he⟩

/-- A run of parts does not go back. -/
theorem runParts_index (c : Config) (ps : List (State → List Prim)) (i : Nat) {s : State} {code : Word16} {k : Nat}
    (hp : s.phase = .run code k) : ∃ m, k ≤ m ∧ (runParts c ps i s).state.phase = .run code m := by
  induction ps generalizing i s k with
  | nil => exact ⟨k, le_rfl, hp⟩
  | cons q ps ih =>
    obtain ⟨m, hm, he⟩ := runPrims_index c ((q s).drop i) hp
    simp only [runParts]
    cases h : runPrims c ((q s).drop i) s with
    | stopped s' =>
      rw [h] at he
      exact ⟨m, hm, he⟩
    | finished s' =>
      rw [h] at he
      obtain ⟨m', hm', he'⟩ := ih (i - (q s).length) he
      exact ⟨m', hm.trans hm', he'⟩

/-! ## The run of a handler -/

theorem Handler.run_of_finished {c : Config} {h : Handler} {s t : State} {code : Word16} {k : Nat}
    (hp : s.phase = .run code k) (hr : runParts c h.parts k s = .finished t) : h.run c s = t.toIdle := by
  rw [Handler.run, State.stepIndex_of_run s hp, hr]

theorem Handler.run_of_stopped {c : Config} {h : Handler} {s t : State} {code : Word16} {k : Nat}
    (hp : s.phase = .run code k) (hr : runParts c h.parts k s = .stopped t) : h.run c s = t := by
  rw [Handler.run, State.stepIndex_of_run s hp, hr]

/-- Two runs of the parts that come to the same are the same run of the handler. -/
theorem Handler.run_congr {c : Config} {h : Handler} {s t : State} {code code' : Word16} {k k' : Nat}
    (hs : s.phase = .run code k) (ht : t.phase = .run code' k')
    (hr : runParts c h.parts k s = runParts c h.parts k' t) : h.run c s = h.run c t := by
  rw [Handler.run, Handler.run, State.stepIndex_of_run s hs, State.stepIndex_of_run t ht, hr]

/-- A command that has a next state leaves the state its run comes to. -/
theorem runHandler_next_eq {c : Config} {h : Handler} {s t : State} {code : Word16} {k : Nat}
    (hp : s.phase = .run code k) (he : runHandler c code h s = .next t) : h.run c s = t := by
  unfold runHandler at he
  rw [State.enter_of_run s hp] at he
  split at he
  · cases he
  · exact Host.Outcome.next.inj he

/-- How a run begins: it is stuck and so is the primitive step, or the primitive step is all of it and leaves `Idle` or a
fault, or it goes on from the next index. -/
theorem run_begins {c : Config} {h : Handler} (hst : Stable c h) {s : State} {code : Word16} {k : Nat}
    (hf : s.fault = none) (hp : s.phase = .run code k) :
    (h.primStep c s = .fault .hostSilent ∧ h.run c s = s) ∨
    (h.primStep c s = .next (h.run c s) ∧ ((h.run c s).phase = .idle ∨ (h.run c s).fault ≠ none)) ∨
    ∃ t, h.primStep c s = .next t ∧ t.fault = none ∧ t.phase = .run code (k + 1) ∧
      runParts c h.parts k s = runParts c h.parts (k + 1) t := by
  simp only [Handler.primStep, State.stepIndex_of_run s hp]
  cases hk : h.primAt k s with
  | none =>
    rw [Handler.run_of_finished hp (runParts_end c h.parts k s hk)]
    exact .inr (.inl ⟨rfl, .inl rfl⟩)
  | some p =>
    dsimp only
    cases hq : p.perform c s with
    | blocked =>
      rw [Handler.run_of_stopped hp (runParts_stop (t := s) (fun _ => by simp only [runPrims, hq]) h.parts k hk)]
      exact .inl ⟨rfl, rfl⟩
    | raised f =>
      rw [Handler.run_of_stopped hp (runParts_stop (t := s.raise f) (fun _ => by simp only [runPrims, hq]) h.parts k hk)]
      exact .inr (.inl ⟨rfl, .inr (by simp [hf])⟩)
    | done s' =>
      have hgo := runParts_go hq h.parts hst k hk
      have hp' := perform_advance_phase hp hq
      have hat : h.primAt (k + 1) s'.advance = h.primAt (k + 1) s' := hst.primAt_advance (k + 1) s'
      dsimp only
      cases hn : h.primAt (k + 1) s' with
      | none =>
        rw [Handler.run_of_finished hp (hgo.trans (runParts_end c h.parts (k + 1) _ (hat.trans hn))),
          State.toIdle_advance]
        exact .inr (.inl ⟨rfl, .inl rfl⟩)
      | some p' => exact .inr (.inr ⟨s'.advance, rfl, (perform_advance_fault hq).trans hf, hp', hgo⟩)

/-! ## One step is primitive steps (R18, R185) -/

/-- Primitive steps from `s` lead to `t`, which is settled; they are none only if the first is stuck. -/
def SettlesAt (c : Config) (s t : State) : Prop :=
  ∃ n, primStepsWith c n s = some t ∧ Settled c t ∧ (n = 0 → primStepWith c s = .fault .hostSilent)

/-- Before a `ChRead()` with no word. -/
theorem SettlesAt.stuck {c : Config} {s : State} (h : primStepWith c s = .fault .hostSilent) : SettlesAt c s s :=
  ⟨0, rfl, .inr (.inr h), fun _ => h⟩

/-- One primitive step to a settled state. -/
theorem SettlesAt.last {c : Config} {s t : State} (h : primStepWith c s = .next t) (ht : Settled c t) :
    SettlesAt c s t :=
  ⟨1, primStepsWith_one h 0, ht, by simp⟩

/-- One more primitive step in front. -/
theorem SettlesAt.cons {c : Config} {s t u : State} (h : primStepWith c s = .next t) (hu : SettlesAt c t u) :
    SettlesAt c s u := by
  obtain ⟨n, hn, hset, -⟩ := hu
  exact ⟨n + 1, (primStepsWith_one h n).trans hn, hset, by simp⟩

/-- Primitive steps lead from a dispatched state to where the run of its handler comes to. -/
theorem run_settles (c : Config) (code : Word16) (d : Nat) : ∀ (k m : Nat) (s : State), s.fault = none →
    s.phase = .run code k →
    (runParts c (handlerOf c (decodeWith c code)).parts k s).state.phase = .run code m → m < k + d →
    SettlesAt c s ((handlerOf c (decodeWith c code)).run c s) := by
  induction d with
  | zero =>
    intro k m s _ hp hm hlt
    obtain ⟨m', hle, hm'⟩ := runParts_index c (handlerOf c (decodeWith c code)).parts k hp
    rw [hm, Phase.run.injEq] at hm'
    omega
  | succ d ih =>
    intro k m s hf hp hm hlt
    have hstep := primStepWith_dispatched c hf hp
    rcases run_begins (handler_stable c (decodeWith c code)) hf hp with ⟨hq, hr⟩ | ⟨hq, hr⟩ | ⟨t, hq, hft, hpt, hr⟩
    · rw [hr]
      exact .stuck (hstep.trans hq)
    · exact .last (hstep.trans hq) (hr.imp_right .inl)
    · rw [Handler.run_congr hp hpt hr]
      exact .cons (hstep.trans hq) (ih (k + 1) m t hft hpt (hr ▸ hm) (by omega))

/-- Settles O11: the run of the handler is taken primitive by primitive, and both sizes of step are stuck before a
`ChRead()` with no word and nowhere else. -/
theorem stepIsPrimitiveSteps : Obligations.StepIsPrimitiveSteps := by
  intro c s code k hf hp
  have hstep := stepWith_dispatched c hf hp
  have stuck : stepWith c s = .fault .hostSilent ↔ primStepWith c s = .fault .hostSilent := by
    rw [hstep, primStepWith_dispatched c hf hp, primStep_blocked_iff]
    exact (runHandler_fault hp).1
  refine ⟨fun t ht => ?_, stuck⟩
  obtain ⟨m, -, hm⟩ := runParts_index c (handlerOf c (decodeWith c code)).parts k hp
  obtain ⟨n, hn, hset, hpos⟩ := run_settles c code (m + 1) k m s hf hp hm (by omega)
  rw [hstep] at ht
  rw [runHandler_next_eq hp ht] at hn hset
  refine ⟨n, Nat.pos_of_ne_zero fun h0 => ?_, hn, hset⟩
  rw [← hstep, stuck.mpr (hpos h0)] at ht
  cases ht

/-! ## The host's pace (R19, R70) -/

/-- A run that ended in `Idle` or at a fault does the same with more words; one that waited goes on with them where it
stands. -/
theorem run_send {c : Config} {h : Handler} (hst : Stable c h) (ws : List Word9) {s : State} {code : Word16} {k : Nat}
    (hf : s.fault = none) (hp : s.phase = .run code k) :
    (((h.run c s).phase = .idle ∨ (h.run c s).fault ≠ none) ∧
      h.run c (s.hostSend ws) = (h.run c s).hostSend ws) ∨
    ∃ j, (h.run c s).fault = none ∧ (h.run c s).phase = .run code j ∧
      h.run c (s.hostSend ws) = h.run c ((h.run c s).hostSend ws) := by
  have hsend : (s.hostSend ws).phase = .run code k := hp
  rcases runParts_send c ws h.parts hst s code 0 k (by simpa using hp) hf with
    ⟨u, hu, -, hmore⟩ | ⟨u, hu, hfu, hmore⟩ | ⟨u, j, p, hu, hfu, -, hpu, -, -, hmore⟩
  · rw [Handler.run_of_finished hp hu, Handler.run_of_finished hsend hmore]
    exact .inl ⟨.inl rfl, rfl⟩
  · rw [Handler.run_of_stopped hp hu, Handler.run_of_stopped hsend hmore]
    exact .inl ⟨.inr hfu, rfl⟩
  · rw [Nat.zero_add] at hpu
    rw [Handler.run_of_stopped hp hu]
    exact .inr ⟨j, hfu, hpu, Handler.run_congr hsend (t := u.hostSend ws) hpu hmore⟩

/-- With more words supplied, a step in a dispatched state is the run of its handler. -/
theorem stepWith_hostSend (c : Config) {s : State} {code : Word16} {k : Nat} {ws : List Word9} (hws : ws ≠ [])
    (hf : s.fault = none) (hp : s.phase = .run code k) :
    stepWith c (s.hostSend ws) = .next ((handlerOf c (decodeWith c code)).run c (s.hostSend ws)) := by
  have hsend : (s.hostSend ws).phase = .run code k := hp
  rw [stepWith_dispatched c (s := s.hostSend ws) hf hsend, runHandler_next hsend (by simp [hws])]

/-- Settles O12: with more words a run that ended does the same, and a run that waited goes on where it would take up the
words sent later. -/
theorem hostPaceIrrelevant : Obligations.HostPaceIrrelevant := by
  intro c s t code k ws hf hp hws ht
  rw [stepWith_dispatched c hf hp] at ht
  have hrun := run_send (handler_stable c (decodeWith c code)) ws hf hp
  rw [runHandler_next_eq hp ht] at hrun
  rw [stepWith_hostSend c hws hf hp]
  rcases hrun with ⟨hend, hmore⟩ | ⟨j, hft, hpt, hmore⟩
  · rw [if_pos hend, hmore]
  · rw [if_neg (by simp [hpt, hft]), hmore, stepWith_hostSend c hws hft hpt]

/-! ## Blocks of the store (R13, R65, R67) -/

/-- The updates of a block, by index. -/
theorem blockWrites_eq_map (c : Config) {n : Nat} (a : c.Addr) (v : Bytes n) :
    blockWrites c a v = (List.range n).map fun i => (c.addrCell (c.addrAdd a i), byteAt v i) := by
  refine List.ext_getElem (by simp [blockWrites]) fun i h1 h2 => ?_
  have hi : i < n := by simpa using h2
  simp [blockWrites, byteAt, hi]

/-- The store after a block is written. -/
@[simp] theorem State.memWrite_nv {n : Nat} (s : State) (c : Config) (a : c.Addr) (v : Bytes n) :
    (s.memWrite c a v).nv = Memory.updateAll s.nv (blockWrites c a v) := State.updateCells_nv s _

/-- A block written has its last byte at each of its addresses. -/
theorem nvReadByte_memWrite (s : State) (c : Config) (a : c.Addr) {n : Nat} (v : Bytes n) (hw : Memory.wf s.nv)
    {i : Nat} (hi : i < n) (hlast : ∀ j, i < j → j < n → c.addrAdd a j ≠ c.addrAdd a i) :
    (s.memWrite c a v).nvReadByte c (c.addrAdd a i) = v[i] := by
  have hlen : i < (blockWrites c a v).length := by simpa [blockWrites] using hi
  have hat : (blockWrites c a v)[i] = (c.addrCell (c.addrAdd a i), v[i]) := by simp [blockWrites]
  have hsplit : blockWrites c a v = (blockWrites c a v).take i ++
      (c.addrCell (c.addrAdd a i), v[i]) :: (blockWrites c a v).drop (i + 1) := by
    rw [← hat, ← List.drop_eq_getElem_cons hlen, List.take_append_drop]
  rw [State.nvReadByte, State.memWrite_nv, hsplit]
  refine Memory.read_updateAll_last _ hw _ _ _ _ fun w hmem hcell => ?_
  obtain ⟨j, hj, rfl⟩ := List.mem_drop_iff_getElem.mp hmem
  have hj' : i + 1 + j < n := by simpa [blockWrites, Nat.add_comm] using hj
  refine hlast (i + 1 + j) (by omega) hj' (c.addrCell_ok _ _ ?_)
  simpa [blockWrites] using hcell

/-- A cell that is none of the block's reads as before. -/
theorem read_memWrite_of_ne (s : State) (c : Config) (a : c.Addr) {n : Nat} (v : Bytes n) (hw : Memory.wf s.nv)
    {x : Nat} (hx : ∀ i, i < n → c.addrCell (c.addrAdd a i) ≠ x) :
    Memory.read (s.memWrite c a v).nv x = Memory.read s.nv x := by
  rw [State.memWrite_nv]
  refine Memory.read_updateAll_of_not_mem _ hw _ _ fun w hmem => ?_
  obtain ⟨i, hi, rfl⟩ := mem_blockWrites.mp hmem
  exact hx i hi

/-- Where the addresses differ, a block reads back as written (R65). -/
theorem memRead_memWrite (s : State) (c : Config) (a : c.Addr) {n : Nat} (v : Bytes n) (hw : Memory.wf s.nv)
    (hd : ∀ i j, i < j → j < n → c.addrAdd a j ≠ c.addrAdd a i) : (s.memWrite c a v).memRead c a n = v.toList := by
  refine List.ext_getElem (by simp [State.memRead, State.nvReadBlock]) fun i h1 h2 => ?_
  have hi : i < n := by simpa using h2
  simpa [State.memRead, State.nvReadBlock] using nvReadByte_memWrite s c a v hw hi fun j => hd i j

/-- Where the addresses differ, a block costs one physical write for each byte that differed (R66). -/
theorem nvWrites_memWrite (s : State) (c : Config) (a : c.Addr) {n : Nat} (v : Bytes n) (hw : Memory.wf s.nv)
    (hd : ∀ i j, i < j → j < n → c.addrAdd a j ≠ c.addrAdd a i) :
    (s.memWrite c a v).nvWrites = s.nvWrites +
      ((List.range n).filter fun i => s.nvReadByte c (c.addrAdd a i) != byteAt v i).length := by
  have hcells : ((blockWrites c a v).map (·.1)).Nodup := by
    rw [blockWrites_addresses, List.Nodup, List.pairwise_map]
    refine List.pairwise_lt_range.imp_of_mem fun _ hj hlt hcell => ?_
    exact hd _ _ hlt (List.mem_range.mp hj) (c.addrCell_ok _ _ hcell).symm
  rw [State.memWrite, State.updateCells_nvWrites s hw _ hcells, blockWrites_eq_map, List.filter_map, List.length_map]
  rfl

/-- Settles O43: the last write of a block to an address stands, and where the addresses differ every write is the last. -/
theorem blockWrite : Obligations.BlockWrite := by
  intro c s a n v hw t
  refine ⟨State.updateCells_eq s _, ?_, fun i hi hlast => nvReadByte_memWrite s c a v hw hi hlast,
    fun x hx => read_memWrite_of_ne s c a v hw hx,
    fun hd => ⟨memRead_memWrite s c a v hw hd, nvWrites_memWrite s c a v hw hd⟩⟩
  rw [State.memWrite_nv]
  exact Memory.wf_updateAll _ hw _

/-! ## What the host can do (R19) -/

/-- Whether a handler stands at a `ChRead()` does not depend on the words to come. -/
theorem Stable.atRead_hostSend {c : Config} {h : Handler} (hst : Stable c h) (s : State) (ws : List Word9) :
    h.atRead (s.hostSend ws) = h.atRead s := by
  have hparts : partPrims h.parts (s.hostSend ws) = partPrims h.parts s :=
    List.flatMap_congr fun q hq => hst.send q hq s ws
  have hindex : (s.hostSend ws).stepIndex = s.stepIndex := rfl
  rw [Handler.atRead, Handler.atRead, Handler.primAt, Handler.primAt, hparts, hindex]

/-- A parked handler stays parked when words come. -/
theorem parked_hostSend {c : Config} {s : State} (ws : List Word9) (h : parked c s) : parked c (s.hostSend ws) := by
  cases hp : s.phase with
  | idle => simp [parked, hp]
  | cand x => simp [parked, hp]
  | run code k =>
    simp only [parked, hp, State.hostSend_phase] at h ⊢
    rwa [(handler_stable c (decodeWith c code)).atRead_hostSend]

/-- Settles O58: words of the host touch `rx` alone, and of the invariant only `parked` looks at a whole state. -/
theorem hostKeepsInv : Obligations.HostKeepsInv := fun _ ws h =>
  { noFault := h.noFault
    nvWf := h.nvWf
    lenLe := h.lenLe
    queued := h.queued
    mode := h.mode
    atr := h.atr
    atrLow := h.atrLow
    minDate := h.minDate
    maxDate := h.maxDate
    parked := parked_hostSend ws h.parked }

/-! ## A primitive step does one thing (R13, R18) -/

/-- Of the elements a step may change, which differ: the channel log, the store, the ResponseBuffer, the two control
registers, `chk`, and the scratch elements. -/
def changedElements (s t : State) : List Bool :=
  [t.ioLog != s.ioLog, t.nv != s.nv, (t.slot, t.rd, t.len) != (s.slot, s.rd, s.len), t.cryptMode != s.cryptMode,
    t.atrIndex != s.atrIndex, t.chk != s.chk, t.msg != s.msg, t.wk != s.wk, t.cw != s.cw, t.aux != s.aux,
    t.date != s.date]

/-- From `s` to `t` at most one element changes, of `msg` at most one byte, at most one word is read or written, and
there is at most one physical write. -/
structure OneThing (s t : State) : Prop where
  elements : (changedElements s t).count true ≤ 1
  msgByte : ∀ i j : Fin 16, t.msg[i] ≠ s.msg[i] → t.msg[j] ≠ s.msg[j] → i = j
  word : t.ioLog = s.ioLog ∨ ∃ e, t.ioLog = s.ioLog ++ [e]
  write : t.nvWrites ≤ s.nvWrites + 1

/-- The phase is not among the things. -/
theorem OneThing.setPhase {s t : State} (h : OneThing s t) (ph : Phase) : OneThing s (t.setPhase ph) :=
  ⟨h.elements, h.msgByte, h.word, h.write⟩

theorem OneThing.of_setPhase {s t : State} {ph : Phase} (h : OneThing (s.setPhase ph) t) : OneThing s t :=
  ⟨h.elements, h.msgByte, h.word, h.write⟩

/-- How many of a list of flags are set. -/
theorem count_true_cons (b : Bool) (l : List Bool) : (b :: l).count true = l.count true + b.toNat := by
  cases b <;> simp

theorem oneThing_refl (s : State) : OneThing s s := ⟨by simp [changedElements], by simp, .inl rfl, by simp⟩

/-- Where `msg`, the log and the count of writes stand, the elements are all there is to see. -/
theorem oneThing_of_elements {s t : State} (hc : (changedElements s t).count true ≤ 1) (hm : t.msg = s.msg)
    (hl : t.ioLog = s.ioLog) (hw : t.nvWrites = s.nvWrites) : OneThing s t :=
  ⟨hc, by simp [hm], .inl hl, by omega⟩

/-- A word read or written. -/
theorem oneThing_log (s : State) (e : ChEvent) (rx : List Word9) (buf : Bytes bufLen) (held : Word9) :
    OneThing s { s with ioLog := s.ioLog ++ [e], rx := rx, buf := buf, held := held } :=
  ⟨by simp [changedElements, count_true_cons, Bool.toNat_le], by simp, .inr ⟨e, rfl⟩, by simp⟩

/-- The ResponseBuffer changed. -/
theorem oneThing_buffer (s : State) (slot : Vector SlotWord rbCap) (rd : Fin rbCap) (len : Nat) (held : Word9) :
    OneThing s { s with slot := slot, rd := rd, len := len, held := held } :=
  oneThing_of_elements (by simp [changedElements, count_true_cons, Bool.toNat_le]) rfl rfl rfl

/-- A byte of `msg` changed. -/
theorem oneThing_msg (s : State) (m : Bytes ecmLen) (n : Nat) (h : ∀ i : Fin 16, m[i] ≠ s.msg[i] → i.val = n) :
    OneThing s { s with msg := m } :=
  ⟨by simp [changedElements, count_true_cons, Bool.toNat_le],
    fun i j hi hj => Fin.ext ((h i hi).trans (h j hj).symm), .inl rfl, by simp⟩

/-- A byte of `msg` put in. -/
theorem oneThing_setByte (s : State) (n : Nat) (b : Byte) : OneThing s { s with msg := s.msg.setIfInBounds n b } := by
  refine oneThing_msg s _ n fun i hi => ?_
  by_contra hne
  exact hi (by simp [Ne.symm hne])

/-- A byte of the store updated (R66). -/
theorem oneThing_update (s : State) (a : Nat) (b : Byte) : OneThing s (s.updateCell a b) := by
  refine ⟨by simp [changedElements, count_true_cons, Bool.toNat_le], by simp, .inl rfl, ?_⟩
  rw [State.updateCell_nvWrites, Memory.updateCost]
  split <;> omega

/-- A scratch write changes one element, and of `msg` one byte (log 25). -/
theorem oneThing_scratch (s : State) (c : Config) (x : Scratch) : OneThing s (s.writeScratch c x) := by
  cases x with
  | msg i =>
    refine oneThing_msg s _ i fun j hj => ?_
    by_contra hne
    exact hj (by simp [Ne.symm hne])
  | putV0 i => exact oneThing_setByte s _ _
  | putV1 i => exact oneThing_setByte s _ _
  | _ =>
    exact oneThing_of_elements (by simp [State.writeScratch, changedElements, count_true_cons, Bool.toNat_le])
      rfl rfl rfl

/-- A `ChRead()` that is performed takes the next word. -/
theorem readThen_done {s s' : State} {use : Word9 → State → State} (h : s.readThen use = .done s') :
    ∃ w rest, s.rx = w :: rest ∧ s' = use w (s.withRead [w] rest) := by
  unfold State.readThen State.chRead at h
  cases hrx : s.rx with
  | nil => simp [hrx] at h
  | cons w rest =>
    simp only [hrx, PrimResult.done.injEq] at h
    exact ⟨w, rest, rfl, h.symm⟩

theorem oneThing_perform {c : Config} {p : Prim} {s s' : State} (h : p.perform c s = .done s') : OneThing s s' := by
  have burst (hp : p.isBurst) : OneThing s s' := burst_perform hp h ▸ oneThing_buffer s _ _ _ s.held
  cases p with
  | readBuf i =>
    obtain ⟨w, rest, -, rfl⟩ := readThen_done h
    exact oneThing_log s (.rx w) rest _ s.held
  | readHeld =>
    obtain ⟨w, rest, -, rfl⟩ := readThen_done h
    exact oneThing_log s (.rx w) rest s.buf w
  | discard =>
    obtain ⟨w, rest, -, rfl⟩ := readThen_done h
    exact oneThing_log s (.rx w) rest s.buf s.held
  | write w => exact write_perform h ▸ oneThing_log s (.tx w) s.rx s.buf s.held
  | writeHeld => exact writeHeld_perform h ▸ oneThing_log s (.tx s.held) s.rx s.buf s.held
  | rbPop => exact rbPop_perform h ▸ oneThing_buffer s s.slot _ _ _
  | setMode m =>
    cases h
    exact oneThing_of_elements (by simp [changedElements, count_true_cons, Bool.toNat_le]) rfl rfl rfl
  | setAtr b =>
    cases h
    exact oneThing_of_elements (by simp [changedElements, count_true_cons, Bool.toNat_le]) rfl rfl rfl
  | nvUpdate item i b =>
    cases h
    exact oneThing_update s _ b
  | scratch x =>
    cases h
    exact oneThing_scratch s c x
  | rbReset => exact burst trivial
  | rbPush w =>
    simp only [Prim.perform] at h
    split at h <;> cases h
    exact oneThing_buffer s _ s.rd _ s.held
  | rbFrame => exact burst trivial

/-- What a primitive step of a handler with a next state can be: past its end back to `Idle`, a fault raised, or a
primitive performed and the phase moved on. -/
theorem primStep_cases {c : Config} {h : Handler} {s t : State} (hs : h.primStep c s = .next t) :
    t = s.toIdle ∨ (∃ f, t = s.raise f) ∨ ∃ p s' ph, Prim.perform c p s = .done s' ∧ t = s'.setPhase ph := by
  unfold Handler.primStep at hs
  cases hk : h.primAt s.stepIndex s with
  | none => exact .inl (by simpa [hk] using hs.symm)
  | some p =>
    simp only [hk] at hs
    cases hq : p.perform c s with
    | blocked => simp [hq] at hs
    | raised f => exact .inr (.inl ⟨f, by simpa [hq] using hs.symm⟩)
    | done s' =>
      simp only [hq] at hs
      refine .inr (.inr ⟨p, s', t.phase, hq, ?_⟩)
      obtain ⟨ph, hph⟩ := State.advance_cases s'
      split at hs <;> cases hs
      · rfl
      · rw [hph]; rfl

theorem oneThing_primStep {c : Config} {h : Handler} {s t : State} (hs : h.primStep c s = .next t) : OneThing s t := by
  rcases primStep_cases hs with rfl | ⟨f, rfl⟩ | ⟨p, s', ph, hq, rfl⟩
  · exact (oneThing_refl s).setPhase .idle
  · exact ⟨(oneThing_refl s).elements, (oneThing_refl s).msgByte, .inl rfl, by simp⟩
  · exact (oneThing_perform hq).setPhase ph

theorem oneThing_sample {s t : State} (hs : sample s = .next t) : OneThing s t := by
  cases hrx : s.rx with
  | nil => simp [sample, State.chRead, hrx] at hs
  | cons w rest =>
    obtain ⟨ph, hph, -⟩ := detect_eq (s.withRead [w] rest) w
    rw [sample_cons hrx, hph] at hs
    cases hs
    exact (oneThing_log s (.rx w) rest s.buf s.held).setPhase ph

/-- Settles O59: sampling takes one word, and a handler's primitive changes the one element it names. -/
theorem primitiveStepDoesOneThing : Obligations.PrimitiveStepDoesOneThing := by
  intro c s t h
  suffices OneThing s t from ⟨this.elements, this.msgByte, this.word, this.write⟩
  unfold primStepWith stepBy at h
  cases hf : s.fault with
  | some f => simp [hf] at h
  | none =>
    simp only [hf] at h
    split at h
    · next code _ _ =>
      obtain ⟨ph, hph⟩ := State.enter_cases s (encode (decodeWith c code))
      rw [hph] at h
      exact (oneThing_primStep h).of_setPhase
    · exact oneThing_sample h

end Sys2Proof.Machine

/-! PROOFS of the state statements: the frame of the provisioning commands, the blanks of the access matrix, what no step
changes, and the invariant, which reset establishes and every step keeps. -/

namespace Sys2Proof

/-- SETATR is dispatched only for a member of `ATRIDX_CMDS` (R206): a code with its high byte that is no member is of no
row. -/
theorem atrCode_of_decodeWith {c : Config} {code : Word16} {b : Byte} (h : decodeWith c code = .setatr b) :
    c.atrCode code = true := by
  have high : codeHigh code = 0x14 := by
    rw [← encode_decodeWith c code, h, encode_setatr, codeHigh_append]
    rfl
  by_contra member
  have unlisted : listedCode c code = false := by
    refine listedCode_eq_false.mpr ⟨fun r hr => ?_, ?_, by simpa using member⟩
    · by_contra hs
      exact (rows_high hr).2 ((codeHigh_of_selects hr (by simpa using hs)).symm.trans high)
    · by_contra hd
      have six := codeHigh_of_decryptCode (c := c) (code := code) (by simpa using hd)
      exact absurd (six.symm.trans high) (by decide)
  rw [decodeWith_unlisted unlisted] at h
  cases h

end Sys2Proof

namespace Sys2Proof.Machine

/-! ## Where a command stands -/

/-- The command `i` runs in `s`, and its handler stands at its start or before a `ChRead()`. -/
def ParkedIn (c : Config) (i : Instr) (s : State) : Prop :=
  ∃ k, s.phase = .run (encode i) k ∧ (k = 0 ∨ (handlerOf c i).atRead s = true)

/-- In a dispatched state, `parked` speaks of the command its code decodes to. -/
theorem parkedIn_of_parked {c : Config} {s : State} {code : Word16} {k : Nat} (hp : s.phase = .run code k)
    (h : parked c s) : ParkedIn c (decodeWith c code) s := by
  refine ⟨k, by rw [encode_decodeWith, hp], ?_⟩
  simpa only [parked, hp] using h

/-- A parked handler that reads nothing stands at its start. -/
theorem ParkedIn.atStart {c : Config} {i : Instr} {s : State} (h : ParkedIn c i s) {ps : List Prim}
    (hh : handlerOf c i = .fixed ps) (hps : ∀ p ∈ ps, p.isRead = false) : s.atStart i := by
  obtain ⟨k, hp, hk⟩ := h
  obtain rfl := fixed_k0 hh hps hp hk
  exact hp

/-- The low nibble of a code is that of its low byte. -/
theorem atrLo_codeLow (code : Word16) : atrLo (codeLow code) = code.extractLsb' 0 4 := by
  ext i hi
  simp [atrLo, codeLow]

/-- A run of a handler comes to what its parts come to, the phase apart. -/
theorem Handler.run_eq_setPhase (c : Config) (h : Handler) (s : State) :
    ∃ ph, h.run c s = (runParts c h.parts s.stepIndex s).state.setPhase ph := by
  unfold Handler.run
  cases runParts c h.parts s.stepIndex s with
  | finished t => exact ⟨.idle, rfl⟩
  | stopped t => exact ⟨t.phase, rfl⟩

/-- A command taken up where it may stand raises no fault and keeps the length in range (R280, R284). -/
theorem execWith_room {c : Config} {i : Instr} {s t : State} (hi : ParkedIn c i s) (hf : s.fault = none)
    (hl : s.len ≤ rbCap) (he : execWith c i s = .next t) : t.fault = none ∧ t.len ≤ rbCap := by
  obtain ⟨k, hp, hk⟩ := hi
  have hindex := State.stepIndex_of_run s hp
  have hread : k = 0 ∨ ∃ p, (partPrims (handlerOf c i).parts s)[k]? = some p ∧ p.isRead = true := by
    refine hk.imp_right fun hr => ?_
    rw [Handler.atRead, hindex] at hr
    split at hr
    · next p hat => exact ⟨p, hat, hr⟩
    · cases hr
  have room := runParts_roomy c (handlerOf c i).parts (parts_good c i) k s hf hl hread
  obtain ⟨ph, hrun⟩ := Handler.run_eq_setPhase c (handlerOf c i) s
  rw [← runHandler_next_eq hp he, hrun, hindex]
  exact room

/-- A run that records no fault ends in `Idle` or before a `ChRead()`. -/
theorem Handler.run_parks {c : Config} {h : Handler} (hst : Stable c h) {s : State} {code : Word16} {k : Nat}
    (hp : s.phase = .run code k) (hf : s.fault = none) (hrun : (h.run c s).fault = none) :
    (h.run c s).phase = .idle ∨ ∃ j, (h.run c s).phase = .run code j ∧ h.atRead (h.run c s) = true := by
  rcases runParts_send c [] h.parts hst s code 0 k (by simpa using hp) hf with
    ⟨u, hu, -⟩ | ⟨u, hu, hfu, -⟩ | ⟨u, j, p, hu, -, -, hpu, hat, hread, -⟩
  · rw [Handler.run_of_finished hp hu]
    exact .inl rfl
  · rw [Handler.run_of_stopped hp hu] at hrun
    exact absurd hrun hfu
  · rw [Nat.zero_add] at hpu
    rw [Handler.run_of_stopped hp hu]
    refine .inr ⟨j, hpu, ?_⟩
    rw [Handler.atRead, State.stepIndex_of_run u hpu, Handler.primAt, hat]
    exact hread

/-! ## The store under a command -/

/-- A command keeps the canonical form of the store. -/
theorem execWith_nv_wf {c : Config} {i : Instr} {s t : State} (hw : Memory.wf s.nv) (he : execWith c i s = .next t) :
    Memory.wf t.nv := by
  cases hi : writtenItem i with
  | none =>
    rw [(((accKept c i).execWith he).nv hi).1]
    exact hw
  | some item => exact (((provKept c i item hi).execWith he).nv hw).1

/-- No command persists `SPKEY`, an alternate key or a record (R28, R29, R31). -/
theorem writtenItem_ne (i : Instr) : writtenItem i ≠ some .spKey ∧ (∀ p, writtenItem i ≠ some (.altKey p)) ∧
    ∀ r, writtenItem i ≠ some (.ent r) := by
  cases i <;> simp [writtenItem]

/-- The items no command writes and the window are as they were. -/
structure FixedSame (c : Config) (s t : State) : Prop where
  spKey : spKeyOf c t.nv = spKeyOf c s.nv
  altKey : ∀ p, altKeyOf c t.nv p = altKeyOf c s.nv p
  ent : ∀ r, entOf c t.nv r = entOf c s.nv r
  minDate : t.minDate = s.minDate
  maxDate : t.maxDate = s.maxDate

theorem execWith_fixedSame {c : Config} {i : Instr} {s t : State} (hw : Memory.wf s.nv)
    (he : execWith c i s = .next t) : FixedSame c s t := by
  obtain ⟨spKey, altKey, ent⟩ := writtenItem_ne i
  obtain ⟨minDate, maxDate⟩ := ((accKept c i).execWith he).win
  exact
    { spKey := spKeyOf_congr (other_item hw he _ spKey)
      altKey := fun p => altKeyOf_congr (other_item hw he _ (altKey p))
      ent := fun r => entOf_congr (other_item hw he _ (ent r))
      minDate := minDate
      maxDate := maxDate }

/-- Sampling a word leaves them alone, too. -/
theorem sampled_fixedSame (c : Config) (s : State) (w : Word9) (rest : List Word9) :
    FixedSame c s ((s.withRead [w] rest).detect w) := by
  obtain ⟨ph, hph, -⟩ := detect_eq (s.withRead [w] rest) w
  rw [hph]
  exact ⟨rfl, fun _ => rfl, fun _ => rfl, rfl, rfl⟩

/-- A step leaves them alone: it is the sampling of a word or the run of a command. -/
theorem stepWith_fixedSame {c : Config} {s t : State} (hw : Memory.wf s.nv) (h : stepWith c s = .next t) :
    FixedSame c s t := by
  obtain ⟨-, ⟨w, rest, -, -, rfl⟩ | ⟨code, k, -, he⟩⟩ := step_cases h
  · exact sampled_fixedSame c s w rest
  · exact execWith_fixedSame hw he

/-! ## Working copies and their images (R32) -/

/-- A one-byte item persisted reads as that byte (R68). -/
theorem itemByte_withItem_one (s : State) (c : Config) {item : NvItem} (b : Byte) (hw : Memory.wf s.nv)
    (hs : c.size item = 1) : itemByte c (s.withItem c item [b]).nv item 0 = b :=
  itemByte_persist_same c s.nv hw item [b] (by simp [hs]) 0 (by simp)

/-- Persisting reads no word. -/
theorem persistPrims_isRead {item : NvItem} {v : List Byte} {p : Prim} (h : p ∈ persistPrims item v) :
    p.isRead = false := by
  obtain ⟨i, b, -, rfl⟩ := mem_persistPrims h
  rfl

/-- A register set and its one-byte image persisted: a command of that form, taken up where it may stand, does both. -/
theorem setAndPersist_next {c : Config} {i : Instr} {p : Prim} {item : NvItem} {b : Byte} {s s' : State}
    (hi : ParkedIn c i s) (hh : handlerOf c i = .fixed (p :: persistPrims item [b])) (hr : p.isRead = false)
    (hp : p.perform c s = .done s') : execWith c i s = .next (s'.withItem c item [b]).toIdle := by
  have hstart : s.atStart i := hi.atStart hh fun q hq => by
    rcases List.mem_cons.mp hq with rfl | hq
    · exact hr
    · exact persistPrims_isRead hq
  exact fixed_next hh hstart (by rw [effect_cons hp, persist_one])

/-- The commands that write `cryptMode` are the SETMODE ones. -/
theorem setmode_of_writtenItem {c : Config} {i : Instr} (h : writtenItem i = some .cryptMode) :
    ∃ m, handlerOf c i = setmodeHandler m := by
  cases i with
  | setmode0 => exact ⟨.primary, rfl⟩
  | setmode1 => exact ⟨.alternate, rfl⟩
  | setmode2 => exact ⟨.alternateVerified, rfl⟩
  | _ => cases h

/-- The commands that write `atrIndex` are the SETATR ones. -/
theorem setatr_of_writtenItem {i : Instr} (h : writtenItem i = some .atrIndex) : ∃ b, i = .setatr b := by
  cases i with
  | setatr b => exact ⟨b, rfl⟩
  | _ => cases h

/-- A command keeps the crypt mode equal to its image: SETMODE writes both, every other command neither. -/
theorem execWith_mode {c : Config} {i : Instr} {s t : State} (hi : ParkedIn c i s) (hw : Memory.wf s.nv)
    (hm : s.cryptMode.toByte = nvCryptModeOf c s.nv) (he : execWith c i s = .next t) :
    t.cryptMode.toByte = nvCryptModeOf c t.nv := by
  by_cases hwr : writtenItem i = some .cryptMode
  · obtain ⟨m, hh⟩ := setmode_of_writtenItem (c := c) hwr
    rw [setAndPersist_next hi hh rfl rfl] at he
    cases he
    exact (itemByte_withItem_one { s with cryptMode := m } c m.toByte hw (size_cryptMode c)).symm
  · obtain ⟨copy, image⟩ := mode_same hw he hwr
    rw [copy, image, hm]

/-- A command keeps the ATR index equal to its image and its low nibble in range (R25): SETATR with a member of
`ATRIDX_CMDS` writes both, every other command neither. -/
theorem execWith_atr {c : Config} {i : Instr} {s t : State} (hi : ParkedIn c i s) (hw : Memory.wf s.nv)
    (hmem : ∀ b, i = .setatr b → c.atrCode (encode i) = true) (ha : s.atrIndex = nvAtrIndexOf c s.nv)
    (hlow : (atrLo s.atrIndex).toNat < nAtrPayload) (he : execWith c i s = .next t) :
    t.atrIndex = nvAtrIndexOf c t.nv ∧ (atrLo t.atrIndex).toNat < nAtrPayload := by
  by_cases hwr : writtenItem i = some .atrIndex
  · obtain ⟨b, rfl⟩ := setatr_of_writtenItem hwr
    rw [setAndPersist_next (p := .setAtr b) hi rfl rfl rfl] at he
    cases he
    refine ⟨(itemByte_withItem_one { s with atrIndex := b } c b hw (size_atrIndex c)).symm, ?_⟩
    have nibble : atrLo b = (encode (.setatr b)).extractLsb' 0 4 := by
      rw [← atrLo_codeLow, encode_setatr, codeLow_append]
    change (atrLo b).toNat < nAtrPayload
    rw [nibble]
    exact lowNibble_of_atrCode (hmem b rfl)
  · obtain ⟨copy, image⟩ := atr_same hw he hwr
    rw [copy, image]
    exact ⟨ha, hlow⟩

/-! ## The invariant -/

/-- Sampling a word keeps the invariant: it moves the channel, and dispatches at primitive step 0. -/
theorem InvWith.sampled {c : Config} {s : State} (h : InvWith c s) (w : Word9) (rest : List Word9) :
    InvWith c ((s.withRead [w] rest).detect w) := by
  obtain ⟨ph, hph, hstart⟩ := detect_eq (s.withRead [w] rest) w
  rw [hph]
  exact
    { noFault := h.noFault
      nvWf := h.nvWf
      lenLe := h.lenLe
      queued := h.queued
      mode := h.mode
      atr := h.atr
      atrLow := h.atrLow
      minDate := h.minDate
      maxDate := h.maxDate
      parked := by
        cases ph with
        | idle => trivial
        | cand x => trivial
        | run code k => exact .inl (hstart code k rfl) }

/-- The run of a dispatched command that records no fault leaves it parked. -/
theorem parked_of_execWith {c : Config} {s t : State} {code : Word16} {k : Nat} (hp : s.phase = .run code k)
    (hf : s.fault = none) (he : execWith c (decodeWith c code) s = .next t) (ht : t.fault = none) : parked c t := by
  rw [execWith, encode_decodeWith] at he
  have hrun := runHandler_next_eq hp he
  have hpark := Handler.run_parks (handler_stable c (decodeWith c code)) hp hf (hrun ▸ ht)
  rw [hrun] at hpark
  rcases hpark with hidle | ⟨j, hj, hread⟩
  · simp only [parked, hidle]
  · simp only [parked, hj]
    exact .inr hread

/-- The run of a dispatched command keeps the invariant. -/
theorem InvWith.execWith {c : Config} {s t : State} (h : InvWith c s) {code : Word16} {k : Nat}
    (hp : s.phase = .run code k) (he : execWith c (decodeWith c code) s = .next t) : InvWith c t := by
  have hi : ParkedIn c (decodeWith c code) s := parkedIn_of_parked hp h.parked
  have fixed := execWith_fixedSame h.nvWf he
  obtain ⟨noFault, lenLe⟩ := execWith_room hi h.noFault h.lenLe he
  obtain ⟨atr, atrLow⟩ := execWith_atr hi h.nvWf
    (fun b hb => by rw [encode_decodeWith]; exact atrCode_of_decodeWith hb) h.atr h.atrLow he
  exact
    { noFault := noFault
      nvWf := execWith_nv_wf h.nvWf he
      lenLe := lenLe
      queued := (qAll he).q h.queued
      mode := execWith_mode hi h.nvWf h.mode he
      atr := atr
      atrLow := atrLow
      minDate := by rw [fixed.minDate, fixed.ent, fixed.ent, h.minDate]
      maxDate := by rw [fixed.maxDate, fixed.ent, fixed.ent, h.maxDate]
      parked := parked_of_execWith hp h.noFault he noFault }

/-- Every step keeps the invariant, under every parameter set. -/
theorem InvWith.stepWith {c : Config} {s t : State} (h : InvWith c s) (hs : stepWith c s = .next t) :
    InvWith c t := by
  obtain ⟨-, ⟨w, rest, -, -, rfl⟩ | ⟨code, k, hp, he⟩⟩ := step_cases hs
  · exact h.sampled w rest
  · exact h.execWith hp he

/-- Settles O57: a step samples a word, or runs a command that stands at its start or before a `ChRead()`. -/
theorem stepKeepsInv : Obligations.StepKeepsInv := fun s _ h hs => h.stepWith (step_eq s ▸ hs)

/-- The first initialisation of a store in canonical form establishes the invariant (R24, R25, R32, R323, R324). -/
theorem firstInit_inv (c : Config) (m : Memory) (hw : Memory.wf m) (rx : List Word9) :
    InvWith c (State.afterReset c (seededFrom c m) rx) := by
  have mode : nvCryptModeOf c (seededFrom c m) = c.defCryptMode.toByte :=
    seeded_item c m hw .cryptMode [c.defCryptMode.toByte] (mem_seedItems.mpr (by simp)) 0 Nat.one_pos
  have atr : nvAtrIndexOf c (seededFrom c m) = c.defAtrIndex :=
    seeded_item c m hw .atrIndex [c.defAtrIndex] (mem_seedItems.mpr (by simp)) 0 Nat.one_pos
  exact
    { noFault := rfl
      nvWf := seededFrom_wf c m hw
      lenLe := Nat.zero_le _
      queued := fun w hw => by cases hw
      mode := by rw [State.afterReset, mode, modeOfByte_toByte]
      atr := rfl
      atrLow := by rw [State.afterReset, atr]; exact c.defAtrIndex_ok
      minDate := rfl
      maxDate := rfl
      parked := trivial }

/-- Settles O56: the seeded store holds the defaults, and the working copies are loaded from it. -/
theorem resetInv : Obligations.ResetInv := firstInit_inv Config.device [] (by decide) []

/-- Settles O54: a restart loads from the store what the invariant says the working copies and the window are. -/
theorem restartRetains : Obligations.RestartRetains := by
  intro c s h t
  have mode : t.cryptMode = s.cryptMode := by
    change modeOfByte c (nvCryptModeOf c s.nv) = s.cryptMode
    rw [← h.mode, modeOfByte_toByte]
  exact ⟨rfl, mode, h.atr.symm, h.minDate.symm, h.maxDate.symm, rfl, rfl, rfl, rfl, rfl, rfl, rfl⟩

/-! ## Frames -/

/-- Settles O20: every primitive of a provisioning command keeps the frame, so every run does. -/
theorem provisioningFrame : Obligations.ProvisioningFrame := by
  intro i item s t hi hw he
  have frame := (provKept Config.device i item hi).execWith (exec_eq i s ▸ he)
  exact ⟨(frame.nv hw).2, frame.rest⟩

/-- What `isDecrypt` asks. -/
theorem eq_decrypt_of_isDecrypt {i : Instr} (h : isDecrypt i = true) : ∃ b, i = .decrypt b := by
  cases i with
  | decrypt b => exact ⟨b, rfl⟩
  | _ => cases h

/-- Settles O21: every run of a command keeps its blanks, those of DECRYPT by its mode, those of ENT by its
sub-selector. -/
theorem accessMatrix : Obligations.AccessMatrix := by
  intro i s t he
  rw [exec_eq] at he
  have blanks := (accKept Config.device i).execWith he
  have decrypt (hd : isDecrypt i = true) : DecRel s.cryptMode s t := by
    obtain ⟨b, rfl⟩ := eq_decrypt_of_isDecrypt hd
    exact decrypt_rel he
  refine ⟨fun hi => ?_, blanks.rb, fun hi hb => ?_, blanks.scr, fun hd hm => ?_, fun hd hm => (decrypt hd).m12 hm,
    blanks.win⟩
  · obtain ⟨nv, rest⟩ := blanks.nv hi
    exact ⟨fun a => by rw [nv], rest⟩
  · subst hi
    exact ent_buffer he hb
  · obtain ⟨chk, rounds⟩ := (decrypt hd).m0 hm
    obtain ⟨ws, hrx, -, bytes⟩ := (decrypt hd).msg hm
    exact ⟨chk, rounds, ws, hrx, fun j => bytes j j.isLt⟩

/-- Settles O22: no command persists these items, and neither command nor sampling writes the window. -/
theorem neverWritten : Obligations.NeverWritten := by
  intro s t hw h
  have fixed := stepWith_fixedSame hw (step_eq s ▸ h)
  exact ⟨fixed.spKey, fixed.altKey, fixed.ent, fixed.minDate, fixed.maxDate⟩

end Sys2Proof.Machine

/-! PROOFS of the memory statements: framed pairs, the order of words, items and bytes of the store, the bytes of a
32-bit word, and the channel table's way through the store and the ResponseBuffer. -/

namespace Sys2Proof

/-- Settles O4: a framed word before an unframed one is the one case in which the decoder rejects nothing. -/
theorem framedPairDelimits : Obligations.FramedPairDelimits := by
  intro c ws rest i
  constructor
  · intro h
    match ws with
    | [] => cases h
    | [w] => cases h
    | w1 :: w2 :: tail =>
      simp only [decodeWordsWith] at h
      split_ifs at h with h1 h2
      cases h
      have framed : isFramed w1 = true ∧ isFramed w2 = false := by simpa using And.intro h1 h2
      exact ⟨w1, w2, rfl, framed.1, framed.2, rfl⟩
  · rintro ⟨w1, w2, rfl, h1, h2, rfl⟩
    change isFramed w1 = true at h1
    change isFramed w2 = false at h2
    simp only [decodeWordsWith, h1, h2]
    rfl

end Sys2Proof

namespace Sys2Proof.Machine

/-! ## The order of words (R70, R71) -/

/-- A step logs what it reads and writes: the sampling of a word, or the run of a command. -/
theorem stepWith_logRel {c : Config} {s t : State} (h : stepWith c s = .next t) : LogRel s t := by
  obtain ⟨-, ⟨w, rest, -, hrx, rfl⟩ | ⟨code, k, -, he⟩⟩ := step_cases h
  · exact ⟨[.rx w], by simp [State.withRead], by simp [State.withRead, readWords, hrx]⟩
  · exact (logKept c).runHandler (fun _ _ _ _ _ _ => trivial) he

/-- Settles O14: every primitive logs the word it reads or writes, so every step does. -/
theorem wordsReadInOrder : Obligations.WordsReadInOrder := fun s _ h => (stepWith_logRel (step_eq s ▸ h)).ex

/-! ## The store (R66, R68) -/

/-- `Persist(item, v)` names no cell outside the item. -/
theorem ownsAddress_of_mem_persistWrites {c : Config} {item : NvItem} {v : List Byte} (hv : v.length ≤ c.size item)
    {w : Nat × Byte} (hw : w ∈ persistWrites c item v) : ownsAddress c item w.1 := by
  obtain ⟨i, hi, rfl⟩ := mem_persistWrites.mp hw
  exact ⟨i, hi.trans_le hv, rfl⟩

/-- Settles O19: no two bytes of the item share a cell, and no update of the run leaves the item. -/
theorem persistStoresItem : Obligations.PersistStoresItem := by
  intro c m item v hw hv
  refine ⟨⟨itemByte_persist_same c m hw item v hv.le, fun a ha => ?_⟩, Memory.wf_updateAll m hw _⟩
  exact Memory.read_updateAll_of_not_mem m hw _ a fun w hmem he =>
    ha (he ▸ ownsAddress_of_mem_persistWrites hv.le hmem)

/-- A second identical update leaves the state as it is (R81). -/
theorem State.updateCell_updateCell (s : State) (hw : Memory.wf s.nv) (n : Nat) (b : Byte) :
    (s.updateCell n b).updateCell n b = s.updateCell n b := by
  obtain ⟨store, cost⟩ := Memory.update_update s.nv hw n b
  rw [State.updateCell, State.updateCell_nv, State.updateCell_nvWrites, store, cost]
  rfl

/-- Settles O42: distinct addresses have distinct cells. -/
theorem updateIfChanged : Obligations.UpdateIfChanged := by
  intro c s a b hw t
  have read (x : c.Addr) : t.nvReadByte c x = if c.addrCell x = c.addrCell a then b else s.nvReadByte c x :=
    Memory.read_update s.nv hw _ b _
  refine ⟨rfl, ?_, fun x hx => ?_, ?_, State.updateCell_updateCell s hw _ b⟩
  · rw [read, if_pos rfl]
  · rw [read, if_neg fun he => hx (c.addrCell_ok x a he)]
  · change s.nvWrites + Memory.updateCost s.nv _ b = _
    unfold Memory.updateCost
    split <;> rfl

/-! ## 32-bit words (R74) -/

/-- Byte `j` of a word is the word shifted down by `j` bytes. -/
theorem byteOfWord_eq_shift (v : Word32) (j : Nat) : byteOfWord v j = (v >>> (8 * j)).setWidth 8 := by
  apply BitVec.eq_of_toNat_eq
  rw [byteOfWord_toNat, BitVec.toNat_setWidth, BitVec.toNat_ushiftRight, Nat.shiftRight_eq_div_pow]

/-- Byte `j` of the place `PutLE32` writes to is byte `j` of the word. -/
theorem byteAt_putLE32_of_lt (m : Bytes ecmLen) (o : Nat) (v : Word32) (ho : o ≤ 12) (j : Nat) (hj : j < 4) :
    byteAt (putLE32 m o v) (o + j) = byteOfWord v j := by
  rw [byteAt_putLE32 m o v ho]
  interval_cases j <;> simp

/-- Settles O44: what `PutLE32` leaves at each byte, and `LE32` of it. -/
theorem littleEndianWords : Obligations.LittleEndianWords := by
  intro m o v ho
  refine ⟨le32_toNat _ _ _ _, fun j hj => ?_, fun i hi => ?_, getLE32_putLE32_same m o v ho⟩
  · rw [byteAt_putLE32_of_lt m o v ho j hj, byteOfWord_eq_shift]
  · rw [byteAt_putLE32 m o v ho, if_neg (by omega), if_neg (by omega), if_neg (by omega), if_neg (by omega)]

end Sys2Proof.Machine

namespace Sys2Proof

/-! ## The codes of a scenario (R100, R184) -/

theorem decodeWith_chtabLoad0 (c : Config) : decodeWith c (encode (.chtabLoad 0)) = .chtabLoad 0 := rfl

theorem decodeWith_chtabRead (c : Config) : decodeWith c (encode .chtabRead) = .chtabRead := rfl

theorem decodeWith_pop (c : Config) : decodeWith c (encode .pop) = .pop := rfl

/-! ## Words as they leave a slot (R285) -/

/-- A byte pushed and popped is an unframed word. -/
theorem extract_byteWord (b : Byte) : (b.setWidth 16).extractLsb' 0 9 = 0#1 ++ b := by
  revert b
  decide

/-- A byte pushed, framed and popped is a framed word. -/
theorem extract_framed_byteWord (b : Byte) : (b.setWidth 16 ||| frameMask).extractLsb' 0 9 = 1#1 ++ b := by
  revert b
  decide

end Sys2Proof

namespace Sys2Proof.Machine

/-! ## The words written (R71) -/

@[simp] theorem State.withRead_txLog (s : State) (ws rest : List Word9) : (s.withRead ws rest).txLog = s.txLog := by
  simp [State.withRead, State.txLog, List.filterMap_append, List.filterMap_map]

@[simp] theorem State.withSent_txLog (s : State) (ws : List Word9) : (s.withSent ws).txLog = s.txLog ++ ws := by
  simp [State.withSent, State.txLog, List.filterMap_append, List.filterMap_map]

@[simp] theorem State.withSent_nv (s : State) (ws : List Word9) : (s.withSent ws).nv = s.nv := rfl

@[simp] theorem State.withItem_nv (s : State) (c : Config) (item : NvItem) (v : List Byte) :
    (s.withItem c item v).nv = Memory.updateAll s.nv (persistWrites c item v) := rfl

@[simp] theorem State.withItem_txLog (s : State) (c : Config) (item : NvItem) (v : List Byte) :
    (s.withItem c item v).txLog = s.txLog := rfl

@[simp] theorem State.toIdle_txLog (s : State) : s.toIdle.txLog = s.txLog := rfl

/-! ## A command sent to a sampling block (R181, R183) -/

theorem State.sampling_of_idle {s : State} (hp : s.phase = .idle) : s.sampling = true := by
  simp [State.sampling, hp]

/-- `s` with the code words of `i` read and `i` dispatched. -/
def State.dispatched (s : State) (i : Instr) (rest : List Word9) : State :=
  (s.withRead (encodeWords i) rest).setPhase (.run (encode i) 0)

@[simp] theorem State.dispatched_txLog (s : State) (i : Instr) (rest : List Word9) :
    (s.dispatched i rest).txLog = s.txLog := State.withRead_txLog s _ rest

/-- A pop does not see that a command was dispatched. -/
theorem State.dispatched_rbPop (s : State) (i : Instr) (rest : List Word9) :
    (s.dispatched i rest).rbPop = (s.rbPop.1, s.rbPop.2.dispatched i rest) := by
  change (if s.len = 0 then _ else _) = _
  unfold State.rbPop
  split <;> rfl

/-- A framed word makes a candidate of its byte. -/
theorem stepWith_framedWord (c : Config) {s : State} {b : Byte} {rest : List Word9} (hf : s.fault = none)
    (hs : s.sampling = true) (hrx : s.rx = framedWord b :: rest) :
    stepWith c s = .next ((s.withRead [framedWord b] rest).setPhase (.cand b)) := by
  rw [stepWith_sampling hf hs, sample_cons hrx]
  unfold State.detect
  split <;> simp [State.setPhase]

/-- An unframed word after a candidate completes the code. -/
theorem stepWith_plainWord (c : Config) {s : State} {h b : Byte} {rest : List Word9} (hf : s.fault = none)
    (hp : s.phase = .cand h) (hrx : s.rx = plainWord b :: rest) :
    stepWith c s = .next ((s.withRead [plainWord b] rest).setPhase (.run (assembleCode h b) 0)) := by
  rw [stepWith_sampling hf (by simp [State.sampling, hp]), sample_cons hrx]
  simp [State.detect, State.withRead, hp, State.setPhase]

/-- The two code words of a command dispatch it. -/
theorem stepsWith_two_dispatched (c : Config) {i : Instr} {s : State} {rest : List Word9} (hf : s.fault = none)
    (hs : s.sampling = true) (hrx : s.rx = encodeWords i ++ rest) :
    stepsWith c 2 s = some (s.dispatched i rest) := by
  refine (stepsWith_succ (stepWith_framedWord c hf hs hrx)).trans
    ((stepsWith_succ (stepWith_plainWord c (by exact hf) rfl rfl)).trans ?_)
  rw [assembleCode_high_low]
  simp [stepsWith, State.dispatched, State.withRead, State.setPhase, encodeWords, commandWords]

/-- A command whose code words come next, with what its run leaves. -/
theorem stepsWith_three_command {c : Config} {i : Instr} {s t : State} {rest : List Word9}
    (hd : decodeWith c (encode i) = i) (hf : s.fault = none) (hs : s.sampling = true)
    (hrx : s.rx = encodeWords i ++ rest) (he : execWith c i (s.dispatched i rest) = .next t) :
    stepsWith c 3 s = some t := by
  have run : stepWith c (s.dispatched i rest) = .next t := by
    rw [stepWith_dispatched c (s := s.dispatched i rest) hf rfl, hd]
    exact he
  rw [stepsWith_add c 2 1, stepsWith_two_dispatched c hf hs hrx, Option.bind_some, stepsWith_succ run]
  rfl

/-- After `n` steps from `s` the block is in `Idle` in `t`, no fault recorded, `rest` still to come, and has written
`ws`. -/
structure Completes (c : Config) (n : Nat) (s t : State) (rest ws : List Word9) : Prop where
  run : stepsWith c n s = some t
  idle : t.phase = .idle
  noFault : t.fault = none
  rx : t.rx = rest
  tx : t.txLog = s.txLog ++ ws

/-- Commands one after another. -/
theorem Completes.trans {c : Config} {m n : Nat} {s t u : State} {r r' ws vs : List Word9}
    (h : Completes c m s t r ws) (h' : Completes c n t u r' vs) : Completes c (m + n) s u r' (ws ++ vs) where
  run := by rw [stepsWith_add, h.run, Option.bind_some, h'.run]
  idle := h'.idle
  noFault := h'.noFault
  rx := h'.rx
  tx := by rw [h'.tx, h.tx, List.append_assoc]

/-! ## The channel table stored (R201) -/

/-- The eight bytes of a payload (R95, R201). -/
def payloadBytes (w : Fin 8 → Word9) : Bytes 8 := vecOf fun i => dataByte (w i)

theorem payloadBytes_plainWord (b : Fin 8 → Byte) : payloadBytes (fun i => plainWord (b i)) = vecOf b := by
  simp [payloadBytes]

/-- `s` with the acknowledge of CHTAB_LOAD written and its payload read. -/
def State.withChtabPayload (s : State) (c : Config) (w : Fin 8 → Word9) (rest : List Word9) : State :=
  { (s.withSent [c.ackChTabStart.word]).withRead (List.ofFn w) rest with buf := payloadBytes w }

/-- What CHTAB_LOAD leaves of its eight words (R201). -/
def State.chtabLoaded (s : State) (c : Config) (w : Fin 8 → Word9) (rest : List Word9) : State :=
  ((s.withChtabPayload c w rest).withItem c .chTab (payloadBytes w).toList).withSent [c.ackChTabDone.word]

/-- CHTAB_LOAD with its eight words: acknowledge, read, persist, acknowledge. -/
theorem chtabLoad_next (c : Config) {v : BitVec 1} {s : State} (w : Fin 8 → Word9) (rest : List Word9)
    (hp : s.atStart (.chtabLoad v)) (hw : Memory.wf s.nv) (hrx : s.rx = List.ofFn w ++ rest) :
    execWith c (.chtabLoad v) s = .next (s.chtabLoaded c w rest).toIdle := by
  refine seq_next rfl hp (s1 := s.withChtabPayload c w rest) ?_ ?_
  · rw [effect_cons (s' := s.withSent [c.ackChTabStart.word]) rfl]
    exact effect_readBufs c w rest hrx
  · have persisted : effect c (persistPrims .chTab ((s.withChtabPayload c w rest).buf.toList.take chTabLen))
        (s.withChtabPayload c w rest) =
          some ((s.withChtabPayload c w rest).withItem c .chTab (payloadBytes w).toList) := by
      rw [buf_take_chTab]
      exact effect_persist c .chTab (payloadBytes w).toList (s.withChtabPayload c w rest) hw (by simp)
    rw [effect_append, persisted]
    rfl

/-- The channel table after its bytes are persisted (R30, R68). -/
theorem chTabOf_persist (c : Config) (m : Memory) (hw : Memory.wf m) (b : Bytes 8) :
    chTabOf c (Memory.updateAll m (persistWrites c .chTab b.toList)) = b :=
  vecOf_eq fun i hi =>
    (itemByte_persist_same c m hw .chTab b.toList (by simp) i (by simpa using hi)).trans (Vector.getElem_toList _)

theorem State.chtabLoaded_nv (s : State) (c : Config) (w : Fin 8 → Word9) (rest : List Word9) :
    (s.chtabLoaded c w rest).nv = Memory.updateAll s.nv (persistWrites c .chTab (payloadBytes w).toList) := by
  rw [State.chtabLoaded, State.withSent_nv, State.withItem_nv]
  rfl

theorem State.chtabLoaded_txLog (s : State) (c : Config) (w : Fin 8 → Word9) (rest : List Word9) :
    (s.chtabLoaded c w rest).txLog = s.txLog ++ [c.ackChTabStart.word, c.ackChTabDone.word] := by
  have read : (s.withChtabPayload c w rest).txLog = s.txLog ++ [c.ackChTabStart.word] :=
    (State.withRead_txLog _ _ rest).trans (State.withSent_txLog _ _)
  rw [State.chtabLoaded, State.withSent_txLog, State.withItem_txLog, read, List.append_assoc]
  rfl

/-- CHTAB_LOAD sent to an idle block stores its eight bytes, between two acknowledges. -/
theorem chtabLoad_completes (c : Config) {s : State} (w : Fin 8 → Word9) {rest : List Word9} (hf : s.fault = none)
    (hp : s.phase = .idle) (hw : Memory.wf s.nv) (hrx : s.rx = encodeWords (.chtabLoad 0) ++ (List.ofFn w ++ rest)) :
    ∃ t, Completes c 3 s t rest [c.ackChTabStart.word, c.ackChTabDone.word] ∧ chTabOf c t.nv = payloadBytes w := by
  have run := stepsWith_three_command (decodeWith_chtabLoad0 c) hf (State.sampling_of_idle hp) hrx
    (chtabLoad_next c w rest rfl hw rfl)
  refine ⟨_, ⟨run, rfl, hf, rfl, ?_⟩, ?_⟩
  · rw [State.toIdle_txLog, State.chtabLoaded_txLog, State.dispatched_txLog]
  · rw [State.toIdle_nv, State.chtabLoaded_nv]
    exact chTabOf_persist c s.nv hw _

/-! ## The channel table read and drained (R223, R288) -/

/-- CHTAB_READ leaves the table as a burst. -/
theorem chtabRead_next (c : Config) {s : State} (hp : s.atStart .chtabRead) :
    execWith c .chtabRead s = .next (s.withBurst (byteWords (chTabOf c s.nv).toList)).toIdle :=
  one_next rfl hp (effect_burst c _ s (by simp))

/-- The words of an eight-byte burst as they are popped: framed the first and the last (R283). -/
theorem popAll_eight_bytes (s : State) (b : Fin 8 → Byte) :
    popAll 8 (s.withBurst (byteWords (vecOf b).toList)) =
      [1#1 ++ b 0, 0#1 ++ b 1, 0#1 ++ b 2, 0#1 ++ b 3, 0#1 ++ b 4, 0#1 ++ b 5, 0#1 ++ b 6, 1#1 ++ b 7] := by
  have drained := popAll_queue 0 (s.withBurst (byteWords (vecOf b).toList))
  rw [withBurst_queue _ _ (by simp [byteWords]), List.replicate_zero, List.append_nil] at drained
  refine drained.trans ?_
  rw [vecOf_eight]
  simp [frameEnds, byteWords, extract_byteWord, extract_framed_byteWord, -frameMask_eq]

/-- CHTAB_READ sent to an idle block leaves the table in the buffer, and writes nothing. -/
theorem chtabRead_completes (c : Config) {s : State} {rest : List Word9} (hf : s.fault = none) (hp : s.phase = .idle)
    (hrx : s.rx = encodeWords .chtabRead ++ rest) :
    ∃ t, Completes c 3 s t rest [] ∧ t.nv = s.nv ∧ t.len = 8 ∧
      popAll 8 t = popAll 8 (s.withBurst (byteWords (chTabOf c s.nv).toList)) := by
  have run := stepsWith_three_command (decodeWith_chtabRead c) hf (State.sampling_of_idle hp) hrx
    (chtabRead_next c rfl)
  refine ⟨_, ⟨run, rfl, hf, rfl, ?_⟩, rfl, by simp [byteWords, State.withBurst], popAll_congr 8 _ _ rfl rfl rfl⟩
  exact (State.dispatched_txLog s _ rest).trans (List.append_nil _).symm

/-- What one POP leaves of its code words: the oldest word taken from the buffer and written. -/
def State.popped (s : State) (rest : List Word9) : State :=
  (((s.rbPop.2.dispatched .pop rest).hold s.rbPop.1).withSent [s.rbPop.1]).toIdle

theorem State.popped_txLog (s : State) (rest : List Word9) : (s.popped rest).txLog = s.txLog ++ [s.rbPop.1] := by
  have same : s.rbPop.2.txLog = s.txLog := by
    obtain ⟨-, -, log, -⟩ := rbPop_fields s
    rw [State.txLog, log, State.txLog]
  rw [State.popped, State.toIdle_txLog, State.withSent_txLog]
  exact congrArg (· ++ [s.rbPop.1]) ((State.dispatched_txLog _ .pop rest).trans same)

/-- The words later pops return. -/
theorem popAll_succ_popped (n : Nat) (s : State) (rest : List Word9) :
    popAll (n + 1) s = s.rbPop.1 :: popAll n (s.popped rest) := by
  rw [popAll, popAll_congr n s.rbPop.2 (s.popped rest) rfl rfl rfl]

/-- One POP sent to a sampling block writes the oldest word. -/
theorem stepsWith_three_pop (c : Config) {s : State} {rest : List Word9} (hf : s.fault = none)
    (hs : s.sampling = true) (hrx : s.rx = encodeWords .pop ++ rest) : stepsWith c 3 s = some (s.popped rest) := by
  refine stepsWith_three_command (decodeWith_pop c) hf hs hrx ?_
  rw [pop_next c rfl, State.dispatched_rbPop]
  rfl

theorem popScript_succ (n : Nat) : popScript (n + 1) = encodeWords .pop ++ popScript n := by
  rw [popScript, List.replicate_succ, List.flatten_cons]
  rfl

/-- POPs sent to an idle block write what as many pops return, and leave the store. -/
theorem pops_complete (c : Config) (n : Nat) {s : State} {rest : List Word9} (hf : s.fault = none)
    (hp : s.phase = .idle) (hrx : s.rx = popScript n ++ rest) :
    ∃ t, Completes c (3 * n) s t rest (popAll n s) ∧ t.nv = s.nv ∧ t.len = s.len - n := by
  induction n generalizing s with
  | zero => exact ⟨s, ⟨rfl, hp, hf, hrx, by simp [popAll]⟩, rfl, rfl⟩
  | succ n ih =>
    rw [popScript_succ, List.append_assoc] at hrx
    obtain ⟨fault, nv, -, -⟩ := rbPop_fields s
    have one : Completes c 3 s (s.popped (popScript n ++ rest)) (popScript n ++ rest) [s.rbPop.1] :=
      ⟨stepsWith_three_pop c hf (State.sampling_of_idle hp) hrx, rfl, fault.trans hf, rfl, State.popped_txLog _ _⟩
    obtain ⟨t, more, store, len⟩ := ih one.noFault one.idle one.rx
    refine ⟨t, ?_, store.trans nv, ?_⟩
    · rw [popAll_succ_popped n s (popScript n ++ rest), Nat.mul_succ, Nat.add_comm]
      exact one.trans more
    · have popped : (s.popped (popScript n ++ rest)).len = s.len - 1 := rbPop_len s
      rw [len, popped, Nat.sub_sub, Nat.add_comm]

/-- Settles O41: the table is stored, read into the buffer as a burst, and drained by the eight POPs. -/
theorem chtabRoundTrip : Obligations.ChtabRoundTrip := by
  intro s b rest hf hp hw hrx
  have words : payloadWords (List.ofFn b) = List.ofFn fun i => plainWord (b i) := List.map_ofFn
  rw [words, List.append_assoc] at hrx
  obtain ⟨s1, load, table⟩ := chtabLoad_completes Config.device _ hf hp hw hrx
  rw [payloadBytes_plainWord] at table
  obtain ⟨s2, read, store, len, burst⟩ := chtabRead_completes Config.device load.noFault load.idle load.rx
  rw [table, popAll_eight_bytes] at burst
  obtain ⟨t, drain, store', len'⟩ := pops_complete Config.device 8 read.noFault read.idle read.rx
  rw [burst] at drain
  have all := (load.trans read).trans drain
  exact ⟨t, all.run, all.idle, all.rx, by rw [len', len], by rw [store', store, table], all.tx⟩

end Sys2Proof.Machine

/-! PROOFS of the encoding statements: the decoder and the encoder are inverse to each other on well-formed instructions,
the rows of the command map are disjoint, and a command that is sent starts and completes. -/

namespace Sys2Proof

/-! ## From instruction to code and back (R93, R94, R100) -/

/-- A code that a row selects is in neither of the two code sets (R101). -/
theorem sets_of_selects (c : Config) {r : CodeRow} (hr : r ∈ maskedRows) {code : Word16} (h : r.selects code = true) :
    c.decryptCode code = false ∧ c.atrCode code = false := by
  constructor
  · by_contra hd
    exact absurd ((decryptCode_alone (by simpa using hd)).2 r hr) (by simp [h])
  · by_contra ha
    exact absurd ((atrCode_alone (by simpa using ha)).2 r hr) (by simp [h])

theorem decodeWith_decryptCode {c : Config} {code : Word16} (h : c.decryptCode code = true) :
    decodeWith c code = .decrypt (codeLow code) := if_pos h

theorem decodeWith_atrCode {c : Config} {code : Word16} (h : c.atrCode code = true) :
    decodeWith c code = .setatr (codeLow code) := by
  simp [decodeWith, (atrCode_alone h).1, h]

/-- The sixteen codes of KEYLOAD decode to it (R209). -/
theorem decodeWith_keyload (c : Config) (n : BitVec 4) : decodeWith c (encode (.keyload n)) = .keyload n := by
  obtain ⟨notDecrypt, notAtr⟩ := sets_of_selects c (r := rowKeyload) (by decide) (code := encode (.keyload n))
    (beq_iff_eq.mpr (Laws.RowMatch.keyload n))
  simp only [decodeWith, notDecrypt, notAtr, Bool.false_eq_true, if_false]
  clear notDecrypt notAtr
  revert n
  decide

/-- The code of a well-formed instruction decodes to it (R93, R94, R100). -/
theorem decodeWith_encode {c : Config} {i : Instr} (h : i.wellFormedIn c = true) : decodeWith c (encode i) = i := by
  cases i with
  | decrypt b => rw [decodeWith_decryptCode h, encode_decrypt, codeLow_append]
  | setatr b => rw [decodeWith_atrCode h, encode_setatr, codeLow_append]
  | notready code => exact decodeWith_unlisted (code := code) (by simpa [Instr.wellFormedIn] using h)
  | keyload n => exact decodeWith_keyload c n
  | chtabLoad v => rcases bit_cases v with rfl | rfl <;> rfl
  | hs05 v => rcases bit_cases v with rfl | rfl <;> rfl
  | _ => rfl

/-- Settles O1: the two code sets and the unlisted codes by their own tests, every other code by running the decoder. -/
theorem decodeOfEncode : Obligations.DecodeOfEncode := fun _ _ => decodeWith_encode

/-! ## Every code decodes to a well-formed instruction (R103, R104, R184) -/

/-- What the decoder answers is well formed: DECRYPT and SETATR only after their test succeeded, NOTREADY only after every
test failed (R103). -/
theorem wellFormedIn_decodeWith (c : Config) (code : Word16) : (decodeWith c code).wellFormedIn c = true := by
  have same := encode_decodeWith c code
  have test {p : Prop} [Decidable p] {a b : Instr} (ha : p → a.wellFormedIn c = true)
      (hb : ¬ p → b.wellFormedIn c = true) : (if p then a else b).wellFormedIn c = true :=
    ite_ind (P := (·.wellFormedIn c = true)) ha hb
  have row {p : Prop} [Decidable p] {a b : Instr} (ha : a.wellFormedIn c = true)
      (hb : ¬ p → b.wellFormedIn c = true) : (if p then a else b).wellFormedIn c = true := test (fun _ => ha) hb
  refine test (fun h => ?_) fun _ => test (fun h => ?_) fun _ =>
    row rfl fun _ => row rfl fun _ => row rfl fun _ => row rfl fun _ => row rfl fun _ => row rfl fun _ =>
    row rfl fun _ => row rfl fun _ => row rfl fun _ => row rfl fun _ => row rfl fun _ => row rfl fun _ =>
    row rfl fun _ => row rfl fun _ => row rfl fun _ => row rfl fun _ => row rfl fun _ => row rfl fun _ => ?_
  · rw [decodeWith_decryptCode h] at same
    rwa [Instr.wellFormedIn, same]
  · rw [decodeWith_atrCode h] at same
    rwa [Instr.wellFormedIn, same]
  · clear test row same
    simp [Instr.wellFormedIn, listedCode, maskedRows, *]

/-- NOTREADY takes exactly the codes of no row (R103). -/
theorem decodeWith_eq_notready {c : Config} {code : Word16} :
    decodeWith c code = .notready code ↔ listedCode c code = false := by
  refine ⟨fun h => ?_, decodeWith_unlisted⟩
  have wellFormed := wellFormedIn_decodeWith c code
  rw [h] at wellFormed
  simpa [Instr.wellFormedIn] using wellFormed

/-- Settles O2: each test of the decoder that succeeds says what the code is. -/
theorem decodeIsExact : Obligations.DecodeIsExact := fun c code =>
  ⟨wellFormedIn_decodeWith c code, encode_decodeWith c code⟩

end Sys2Proof

namespace Sys2Proof.Machine

/-! ## The rows are disjoint (R101) -/

/-- Two rows are disjoint if their codes differ in a bit both masks fix. -/
theorem not_selects_both {r q : CodeRow} (h : r.code &&& q.mask ≠ q.code &&& r.mask) (code : Word16) :
    ¬ (r.selects code = true ∧ q.selects code = true) := by
  rintro ⟨hr, hq⟩
  refine h ?_
  rw [← eq_of_beq (show (code &&& r.mask == r.code) = true from hr),
    ← eq_of_beq (show (code &&& q.mask == q.code) = true from hq), BitVec.and_assoc, BitVec.and_assoc,
    BitVec.and_comm r.mask]

theorem maskedRows_differ : maskedRows.Pairwise fun r q => r.code &&& q.mask ≠ q.code &&& r.mask := by decide

/-- No code is in two rows (R101). -/
theorem listedRows_pairwise (c : Config) (code : Word16) :
    (listedRows c).Pairwise fun p q => ¬ (p code = true ∧ q code = true) := by
  refine List.pairwise_append.mpr ⟨?_, ?_, ?_⟩
  · exact List.pairwise_map.mpr (maskedRows_differ.imp fun h => not_selects_both h code)
  · refine List.pairwise_pair.mpr ?_
    rintro ⟨hd, ha⟩
    simp [(decryptCode_alone hd).1] at ha
  · intro p hp q hq
    obtain ⟨r, hr, rfl⟩ := List.mem_map.mp hp
    rintro ⟨hs, hset⟩
    obtain ⟨notDecrypt, notAtr⟩ := sets_of_selects c hr hs
    simp only [List.mem_cons, List.not_mem_nil, or_false] at hq
    rcases hq with rfl | rfl
    · simp [notDecrypt] at hset
    · simp [notAtr] at hset

theorem listedCode_eq_false_iff_rows {c : Config} {code : Word16} :
    listedCode c code = false ↔ ∀ p ∈ listedRows c, p code = false := by
  simp only [listedCode_eq_false, listedRows, List.forall_mem_append, List.forall_mem_map, List.forall_mem_cons,
    List.not_mem_nil, false_implies, implies_true, and_true]

/-- Settles O3: two rows with a mask differ in a bit both fix, and the high bytes keep the two code sets apart. -/
theorem rowsDisjoint : Obligations.RowsDisjoint := fun c code =>
  ⟨listedRows_pairwise c code, decodeWith_eq_notready.trans listedCode_eq_false_iff_rows⟩

/-- Settles O5: the decoder run on the words. -/
theorem wordsDecode : Obligations.WordsDecode := by
  unfold Obligations.WordsDecode
  refine ⟨?_, ?_, ?_, ?_, ?_, ?_, ?_, ?_, ?_, ?_, ?_, ?_, ?_, ?_, ?_⟩ <;> decide

/-! ## A command that is sent starts (R92, R183) -/

/-- In a dispatched state a step is `exec` of the decoded instruction (R184, R188). -/
theorem step_dispatched {s : State} {code : Word16} {k : Nat} (hf : s.fault = none) (hp : s.phase = .run code k) :
    step s = exec (decode code) s := by
  simp [step, stepBy, hf, hp]

/-- Settles O9: the two code words dispatch the command, and its code decodes to it. -/
theorem commandWordsRun : Obligations.CommandWordsRun := by
  intro i s rest hi hf hs hrx
  refine ⟨s.dispatched i rest, stepsWith_two_dispatched Config.device hf hs hrx, rfl, ?_⟩
  rw [step_dispatched (s := s.dispatched i rest) hf rfl, decode, decodeWith_encode hi]

/-! ## The words a handler reads (R96) -/

/-- How many of the primitives are a `ChRead()`. -/
def readCount (ps : List Prim) : Nat := ps.countP Prim.isRead

theorem readCount_cons (p : Prim) (ps : List Prim) :
    readCount (p :: ps) = readCount ps + if p.isRead then 1 else 0 := List.countP_cons

theorem readCount_append (ps qs : List Prim) : readCount (ps ++ qs) = readCount ps + readCount qs := List.countP_append

theorem readCount_eq_zero {ps : List Prim} (h : ∀ p ∈ ps, p.isRead = false) : readCount ps = 0 :=
  List.countP_eq_zero.mpr fun p hp => by simp [h p hp]

/-- A primitive that is performed takes one word if it is a `ChRead()`, and else none. -/
theorem perform_rx {c : Config} {p : Prim} {s s' : State} (h : p.perform c s = .done s') :
    s'.rx = s.rx.drop (if p.isRead then 1 else 0) := by
  have read {use : Word9 → State → State} (hr : s.readThen use = .done s') (hu : ∀ w t, (use w t).rx = t.rx) :
      s'.rx = s.rx.drop 1 := by
    obtain ⟨w, rest, hrx, rfl⟩ := readThen_done hr
    rw [hu, hrx]
    rfl
  have burst (hp : p.isBurst) : s'.rx = s.rx := by rw [burst_perform hp h]
  cases p with
  | readBuf i => exact read h fun _ _ => rfl
  | readHeld => exact read h fun _ _ => rfl
  | discard => exact read h fun _ _ => rfl
  | write w => rw [write_perform h]; rfl
  | writeHeld => rw [writeHeld_perform h]; rfl
  | rbPop => rw [rbPop_perform h]; rfl
  | setMode m => cases h; rfl
  | setAtr b => cases h; rfl
  | nvUpdate item i b => cases h; rfl
  | scratch x => rw [scratch_perform h]; rfl
  | rbReset => exact burst trivial
  | rbPush w =>
    simp only [Prim.perform] at h
    split at h <;> cases h
    rfl
  | rbFrame => exact burst trivial

/-- A list that meets no full buffer from a full one on resets it before it pushes, so it meets none from anywhere. -/
theorem roomy_of_full {ps : List Prim} (h : Roomy 16 ps) (n : Nat) : Roomy n ps := by
  induction ps with
  | nil => trivial
  | cons p ps ih =>
    cases p with
    | rbReset => exact h
    | rbPush w => exact absurd h.1 (lt_irrefl 16)
    | _ => exact ih h

/-- A primitive at the head of such a list raises nothing, and leaves one for the rest. -/
theorem perform_roomy {c : Config} {p : Prim} {ps : List Prim} {n : Nat} {s : State} (hr : Roomy n (p :: ps))
    (hl : s.len ≤ n) (hw : p.isRead = true → s.rx ≠ []) :
    ∃ s' m, p.perform c s = .done s' ∧ s'.len ≤ m ∧ Roomy m ps := by
  cases hq : p.perform c s with
  | blocked =>
    obtain ⟨isRead, noWord⟩ := blocked_iff.mp hq
    exact absurd noWord (hw isRead)
  | raised f =>
    obtain ⟨w, rfl, full⟩ := raised_only hq
    have := hr.1
    omega
  | done s' =>
    have len := perform_len hq
    refine ⟨s', ?_⟩
    cases p with
    | rbReset => exact ⟨0, rfl, len, hr⟩
    | rbPush w => exact ⟨n + 1, rfl, len.trans (Nat.succ_le_succ hl), hr.2⟩
    | _ => exact ⟨n, rfl, len.trans hl, hr⟩

/-- Primitives with room and with their words supplied finish, and read exactly these words. -/
theorem effect_completes (c : Config) (ps : List Prim) : ∀ (n : Nat) (s : State), s.len ≤ n → Roomy n ps →
    readCount ps ≤ s.rx.length →
    ∃ t, effect c ps s = some t ∧ t.fault = s.fault ∧ t.rx = s.rx.drop (readCount ps) := by
  induction ps with
  | nil => exact fun _ s _ _ _ => ⟨s, rfl, rfl, rfl⟩
  | cons p ps ih =>
    intro n s hl hr hw
    rw [readCount_cons] at hw ⊢
    obtain ⟨s', m, hp, hl', hr'⟩ := perform_roomy (c := c) hr hl fun isRead noWord => by simp [isRead, noWord] at hw
    have rx := perform_rx hp
    obtain ⟨t, he, fault, rx'⟩ := ih m s' hl' hr' (by rw [rx, List.length_drop]; omega)
    exact ⟨t, (effect_cons hp ps).trans he, fault.trans (perform_fault hp),
      by rw [rx', rx, List.drop_drop, Nat.add_comm]⟩

/-- The words that parts read from a state, each part as the parts before it leave the state. -/
def partReads (c : Config) : List (State → List Prim) → State → Nat
  | [], _ => 0
  | q :: ps, s => readCount (q s) + ((effect c (q s) s).map (partReads c ps)).getD 0

theorem partReads_cons {c : Config} {q : State → List Prim} {s s' : State} (ps : List (State → List Prim))
    (h : effect c (q s) s = some s') : partReads c (q :: ps) s = readCount (q s) + partReads c ps s' := by
  simp [partReads, h]

/-- Parts with room and with their words supplied finish, and read exactly these words. -/
theorem effectParts_completes (c : Config) (ps : List (State → List Prim)) (hg : ∀ q ∈ ps, ∀ s, GoodPrims (q s)) :
    ∀ s : State, partReads c ps s ≤ s.rx.length →
      ∃ t, effectParts c ps s = some t ∧ t.fault = s.fault ∧ t.rx = s.rx.drop (partReads c ps s) := by
  induction ps with
  | nil => exact fun s _ => ⟨s, rfl, rfl, rfl⟩
  | cons q ps ih =>
    intro s hw
    have room := roomy_of_full (good_roomy (hg q (by simp) s)) s.len
    obtain ⟨s', he, fault, rx⟩ := effect_completes c (q s) s.len s le_rfl room ((Nat.le_add_right _ _).trans hw)
    rw [partReads_cons ps he] at hw ⊢
    obtain ⟨t, he', fault', rx'⟩ := ih (fun q hq => hg q (by simp [hq])) s' (by rw [rx, List.length_drop]; omega)
    exact ⟨t, (effectParts_cons he ps).trans he', fault'.trans fault, by rw [rx', rx, List.drop_drop]⟩

/-- Parts made of primitives that read nothing. -/
theorem partReads_eq_zero (c : Config) (ps : List (State → List Prim)) (h : ∀ q ∈ ps, ∀ s, ∀ p ∈ q s, p.isRead = false)
    (s : State) : partReads c ps s = 0 := by
  induction ps generalizing s with
  | nil => rfl
  | cons q ps ih =>
    have rest := ih fun r hr => h r (by simp [hr])
    cases he : effect c (q s) s <;> simp [partReads, he, rest, readCount_eq_zero (h q (by simp) s)]

/-- Only the first part reads. -/
theorem partReads_first (c : Config) (q : State → List Prim) (ps : List (State → List Prim))
    (h : ∀ q ∈ ps, ∀ s, ∀ p ∈ q s, p.isRead = false) (s : State) : partReads c (q :: ps) s = readCount (q s) := by
  cases he : effect c (q s) s <;> simp [partReads, he, partReads_eq_zero c ps h]

theorem Prim.isRead_of_isBurst {p : Prim} (h : p.isBurst) : p.isRead = false := by
  cases p with
  | rbReset => rfl
  | rbPush w => rfl
  | rbFrame => rfl
  | _ => exact h.elim

theorem partReads_one (c : Config) (q : State → List Prim) (s : State) : partReads c [q] s = readCount (q s) :=
  partReads_first c q [] (by simp) s

@[simp] theorem readCount_handshake (c : Config) (site : HsSite) : readCount (handshakePrims c site) = c.hsLen site := by
  have writes : readCount ((c.hsAck site).map (.write ·.word)) = 0 := readCount_eq_zero fun p hp => by
    obtain ⟨a, -, rfl⟩ := List.mem_map.mp hp
    rfl
  rw [handshakePrims, readCount_append, writes]
  exact List.countP_replicate

@[simp] theorem readCount_byteBurst (bs : List Byte) : readCount (byteBurst bs) = 0 :=
  readCount_eq_zero fun _ hp => Prim.isRead_of_isBurst (byteBurst_isBurst hp)

/-- What ENT reads after its sub-selector (R225, R243). -/
theorem readCount_entPrims (c : Config) (sub : Byte) (m : Memory) : readCount (entPrims c sub m) =
    if sub = subHandshake2 then c.hsLen .h5F00s2 else if sub = subHandshake3 then c.hsLen .h5F00s3 else 0 := by
  unfold entPrims
  by_cases h0 : sub = subRecord0
  · simp [h0]
  by_cases h1 : sub = subRecord1
  · simp [h1]
  · rw [if_neg h0, if_neg h1]
    split_ifs
    · exact readCount_handshake c .h5F00s2
    · exact readCount_handshake c .h5F00s3
    · rfl

/-- ENT reads its sub-selector and what that one decides (R96, R225). -/
theorem partReads_ent (c : Config) (s : State) : partReads c (entHandler c).parts s = wordsRead c .ent s := by
  cases hrx : s.rx with
  | nil =>
    have blocked : effect c (payloadReads 1 (by decide)) s = none := by
      rw [payloadReads_one, effect, blocked_iff.mpr ⟨rfl, hrx⟩]
    simp only [partReads, entHandler, Handler.seq, blocked, wordsRead, hrx]
    rfl
  | cons w rest =>
    have reads : partReads c (entHandler c).parts s = 1 + readCount (entPrims c (dataByte w) s.nv) := by
      refine (partReads_cons (q := fun _ => payloadReads 1 _) _ (effect_readBuf0 c hrx)).trans ?_
      rw [partReads_one]
      simp [payloadReads_one, readCount, Prim.isRead, State.withRead]
    rw [reads, readCount_entPrims]
    simp only [wordsRead, hrx]
    split_ifs <;> rfl

/-- The handler of a command reads as many words as the command map says (R96). -/
theorem partReads_handlerOf (c : Config) (i : Instr) (s : State) :
    partReads c (handlerOf c i).parts s = wordsRead c i s := by
  have burst (bytes : State → List Byte) : partReads c [fun t => byteBurst (bytes t)] s = 0 :=
    (partReads_one c _ s).trans (readCount_byteBurst _)
  have handshake (site : HsSite) : partReads c (handshakeHandler c site).parts s = c.hsLen site :=
    (partReads_one c _ s).trans (readCount_handshake c site)
  cases i with
  | chtabLoad v =>
    refine partReads_first c _ _ (fun q hq t p hp => ?_) s
    obtain rfl := List.mem_singleton.mp hq
    rcases List.mem_append.mp hp with hp | hp
    · exact persistPrims_isRead hp
    · exact List.mem_singleton.mp hp ▸ rfl
  | keyload n =>
    refine partReads_first c _ _ (fun q hq t p hp => ?_) s
    obtain rfl := List.mem_singleton.mp hq
    exact persistPrims_isRead hp
  | decrypt b =>
    refine partReads_first c _ _ (fun q hq t p hp => ?_) s
    simp only [List.mem_cons, List.not_mem_nil, or_false] at hq
    rcases hq with rfl | rfl
    · obtain ⟨x, -, rfl⟩ := List.mem_map.mp hp
      rfl
    · exact Prim.isRead_of_isBurst (isBurst_of_mem (decryptWords_lt c _ t) hp)
  | ent => exact partReads_ent c s
  | hs05 v => exact partReads_one c _ s
  | hs5e0 => exact handshake .h5E00
  | hs5e1 => exact handshake .h5E01
  | hs5e2 => exact handshake .h5E02
  | hs5f1 => exact handshake .h5F01
  | hs5f2 => exact handshake .h5F02
  | setmode0 => exact partReads_one c _ s
  | setmode1 => exact partReads_one c _ s
  | setmode2 => exact partReads_one c _ s
  | setatr b => exact partReads_one c _ s
  | pop => exact partReads_one c _ s
  | notready code => exact partReads_one c _ s
  | atr => exact burst fun t => c.atrPayload (atrLo t.atrIndex)
  | chtabRead => exact burst fun t => (chTabOf c t.nv).toList
  | ident0 => exact burst fun _ => c.idPayload 0
  | ident1 => exact burst fun _ => c.idPayload 1
  | ident2 => exact burst fun _ => c.idPayload 2

/-! ## Every command completes (R185, R186) -/

/-- A command with its words supplied runs to its end, under every parameter set. -/
theorem execWith_completes (c : Config) {i : Instr} {s : State} (hp : s.atStart i)
    (hw : wordsRead c i s ≤ s.rx.length) :
    ∃ t, execWith c i s = .next t ∧ t.phase = .idle ∧ t.fault = s.fault ∧ t.rx = s.rx.drop (wordsRead c i s) := by
  rw [← partReads_handlerOf] at hw ⊢
  obtain ⟨t, he, fault, rx⟩ := effectParts_completes c _ (parts_good c i) s hw
  exact ⟨t.toIdle, parts_next hp he, rfl, fault, rx⟩

/-- Settles O13: no part of a handler overfills the ResponseBuffer, so with its words supplied no primitive stops it. -/
theorem everyCommandCompletes : Obligations.EveryCommandCompletes := by
  intro i s hp hw
  rw [exec_eq]
  exact execWith_completes Config.device hp hw

end Sys2Proof.Machine

/-! PROOFS of the statements of the primary cipher: the rotation of its key, one round, the assembled call, and a loaded
key that a later DECRYPT uses. -/

namespace Sys2Proof.Machine

/-! ## The rotation of the key (R131) -/

/-- A rotation by one position taken `n` times is the rotation by `n`. -/
theorem rotateHalf_iterate (order : Equiv.Perm (Fin keyHalfBits)) (n : Nat) (h : BitVec keyHalfBits) :
    (rotateHalf order 1)^[n] h = rotateHalf order n h :=
  bv_ext fun i => (rot_iter order n h i).trans (getLsb_rotate order n h i).symm

/-- A rotation by all twenty-eight positions is none. -/
theorem rotateHalf_full (order : Equiv.Perm (Fin keyHalfBits)) (h : BitVec keyHalfBits) :
    rotateHalf order 28 h = h :=
  bv_ext fun i => by
    rw [getLsb_rotate, show Fin.ofNat 28 28 = 0 from rfl, add_zero, Equiv.apply_symm_apply]

/-- The bit at a position after a rotation by one is the bit that stood at the next position. -/
theorem getLsb_rotateHalf_one (order : Equiv.Perm (Fin keyHalfBits)) (h : BitVec keyHalfBits) (i : Fin keyHalfBits) :
    (rotateHalf order 1 h).getLsb (order i) = h.getLsb (order (i + 1)) := by
  rw [getLsb_rotate, Equiv.symm_apply_apply]
  rfl

/-- The halves of the key are rotated independently, however often. -/
theorem keyRotate_iterate (p : PrimaryParts) (n : Nat) (k : K56) :
    (fun x => keyRotate p x .one)^[n] k = ⟨rotateHalf p.keyOrderL n k.kL, rotateHalf p.keyOrderR n k.kR⟩ := by
  rw [← rotateHalf_iterate, ← rotateHalf_iterate]
  induction n with
  | zero => rfl
  | succ n ih =>
    simp only [Function.iterate_succ_apply', ih]
    rfl

/-- Settles O52: each half is rotated by itself, and one position taken `n` times is `n` positions. -/
theorem keyRotation : Obligations.KeyRotation := by
  intro p k k'
  refine ⟨congrArg (rotateHalf p.keyOrderL 1), congrArg (rotateHalf p.keyOrderR 1),
    getLsb_rotateHalf_one p.keyOrderL k.kL, getLsb_rotateHalf_one p.keyOrderR k.kR, keyRotate_iterate p 2 k, ?_⟩
  rw [keyRotate_iterate, rotateHalf_full, rotateHalf_full]

/-! ## One round (R130) -/

/-- Settles O50: the bytes of the two halves after the round, and the key by definition. -/
theorem feistelRound_spec : Obligations.FeistelRound := by
  intro p r s k x f o
  refine ⟨fun j hj => ?_, rfl⟩
  obtain ⟨left, right⟩ := feistelRound_bytes p r s k j hj
  simp only [getElem_eq_byteAt]
  exact ⟨left, right⟩

/-! ## The assembled call (R124, R133 to R138) -/

@[simp] theorem getElem_messageHalf (m : Bytes ecmLen) (i : Fin nHalf) (j : Nat) (hj : j < halfLen) :
    (messageHalf m i)[j] = byteAt m (halfLen * i.val + j) := getElem_vecOf _ j hj

/-- Half 0 of a message depends on its first eight bytes alone (R124). -/
theorem messageHalf_zero_congr {m m' : Bytes ecmLen} (h : ∀ i, i < 8 → byteAt m' i = byteAt m i) :
    messageHalf m' 0 = messageHalf m 0 :=
  Vector.ext fun j hj => by simpa using h j hj

/-- Settles O49: `aux` is a byte of half 0's output, which half 1 does not enter, and the date is picked from the two
fields. -/
theorem auxAndDate : Obligations.AuxAndDate := by
  intro p key m m'
  refine ⟨fun same => ?_, rfl⟩
  change (halfPipeline p (startKey p key) (messageHalf m' 0)).1[p.auxPos] =
    (halfPipeline p (startKey p key) (messageHalf m 0)).1[p.auxPos]
  rw [messageHalf_zero_congr same]

theorem messageHalf_zero (m : Bytes ecmLen) : messageHalf m 0 = vecOf fun j : Fin 8 => m[j.val] :=
  Vector.ext fun j hj => by
    rw [getElem_messageHalf, getElem_vecOf, getElem_eq_byteAt]
    simp

theorem messageHalf_one (m : Bytes 16) : messageHalf m 1 = vecOf fun j : Fin 8 => m[8 + j.val] :=
  Vector.ext fun j hj => by
    rw [getElem_messageHalf, getElem_vecOf, getElem_eq_byteAt]
    rfl

/-- The designated bytes of both halves, half 0's first (R136, R137, D31). -/
theorem halfResult_append (p : PrimaryParts) (o0 o1 : Bytes halfLen) :
    halfResult p 0 o0 ++ halfResult p 1 o1 =
      #v[o0[p.halfPos 0 0], o0[p.halfPos 0 1], o0[p.halfPos 0 2], o0[p.halfPos 0 3],
        o1[p.halfPos 1 0], o1[p.halfPos 1 1], o1[p.halfPos 1 2], o1[p.halfPos 1 3]] := rfl

/-- Settles O51: the halves of the message through the same rounds, their designated bytes in order; the message does
not enter the key. -/
theorem assembledControlWord : Obligations.AssembledControlWord := by
  intro p key m k0 rounds o0 o1 a b
  refine ⟨?_, rounds_key p _ _ _⟩
  have half0 : (halfPipeline p k0 (messageHalf m 0)).1 = o0 := by rw [messageHalf_zero]; rfl
  have half1 : (halfPipeline p k0 (messageHalf m 1)).1 = o1 := by rw [messageHalf_one]; rfl
  change p.cwRepack (halfResult p 0 (halfPipeline p k0 (messageHalf m 0)).1 ++
    halfResult p 1 (halfPipeline p k0 (messageHalf m 1)).1) = _
  rw [half0, half1, halfResult_append]

/-! ## A loaded key is the key a later DECRYPT uses (R209, R210, R263) -/

/-- A key after its bytes are persisted (R27, R68). -/
theorem keyOf_persist (c : Config) (m : Memory) (hw : Memory.wf m) (n : Fin nKey) (b : Bytes 8) :
    keyOf c (Memory.updateAll m (persistWrites c (.key n) b.toList)) n = b :=
  vecOf_eq fun i hi =>
    (itemByte_persist_same c m hw (.key n) b.toList (by simp) i (by simpa using hi)).trans (Vector.getElem_toList _)

/-- The channel events of KEYLOAD: its acknowledge, then the four pairs of payload words, each acknowledged (R209). -/
def keyloadEvents (c : Config) (w : Fin 8 → Word9) : List ChEvent :=
  [.tx c.ackKeyStart.word, .rx (w 0), .rx (w 1), .tx c.ackKeyPair.word, .rx (w 2), .rx (w 3), .tx c.ackKeyPair.word,
    .rx (w 4), .rx (w 5), .tx c.ackKeyPair.word, .rx (w 6), .rx (w 7), .tx c.ackKeyPair.word]

/-- `s` with the acknowledges of KEYLOAD written and its payload read. -/
def State.withKeyPayload (s : State) (c : Config) (w : Fin 8 → Word9) (rest : List Word9) : State :=
  { s with rx := rest, ioLog := s.ioLog ++ keyloadEvents c w, buf := payloadBytes w }

/-- What KEYLOAD leaves of its eight words. -/
def State.keyLoaded (s : State) (c : Config) (n : BitVec 4) (w : Fin 8 → Word9) (rest : List Word9) : State :=
  (s.withKeyPayload c w rest).withItem c (.key n.toFin) (payloadBytes w).toList

/-- Two payload bytes taken and acknowledged. -/
theorem effect_acknowledgedPair (c : Config) (i j : Fin bufLen) (a : Word9) (ps : List Prim) {s : State} {w w' : Word9}
    {rest : List Word9} (hrx : s.rx = w :: w' :: rest) :
    effect c (.readBuf i :: .readBuf j :: .write a :: ps) s = effect c ps
      { s with
        rx := rest
        ioLog := s.ioLog ++ [.rx w, .rx w', .tx a]
        buf := (s.buf.set i (dataByte w)).set j (dataByte w') } := by
  simp [effect, Prim.perform, State.readThen, State.chRead, State.chWrite, hrx]

/-- KEYLOAD with its eight words: the payload read between acknowledges, then persisted. -/
theorem keyload_next (c : Config) {n : BitVec 4} {s : State} (w : Fin 8 → Word9) (rest : List Word9)
    (hp : s.atStart (.keyload n)) (hw : Memory.wf s.nv) (hrx : s.rx = List.ofFn w ++ rest) :
    execWith c (.keyload n) s = .next (s.keyLoaded c n w rest).toIdle := by
  refine seq_next (keyload_front c n) hp (s1 := s.withKeyPayload c w rest) ?_ ?_
  · rw [effect_cons (s' := s.chWrite c.ackKeyStart.word) rfl,
      effect_acknowledgedPair c _ _ _ _ (s := s.chWrite c.ackKeyStart.word) hrx, effect_acknowledgedPair c _ _ _ _ rfl,
      effect_acknowledgedPair c _ _ _ _ rfl, effect_acknowledgedPair c _ _ _ _ rfl, effect_nil]
    simp [State.withKeyPayload, keyloadEvents, payloadBytes, vecOf_eight, set_all8]
  · rw [buf_take_key]
    exact effect_persist c (.key n.toFin) (payloadBytes w).toList (s.withKeyPayload c w rest) hw (by simp)

theorem State.keyLoaded_nv (s : State) (c : Config) (n : BitVec 4) (w : Fin 8 → Word9) (rest : List Word9) :
    (s.keyLoaded c n w rest).nv = Memory.updateAll s.nv (persistWrites c (.key n.toFin) (payloadBytes w).toList) := by
  rw [State.keyLoaded, State.withItem_nv]
  rfl

theorem State.keyLoaded_txLog (s : State) (c : Config) (n : BitVec 4) (w : Fin 8 → Word9) (rest : List Word9) :
    (s.keyLoaded c n w rest).txLog = s.txLog ++ c.ackKeyStart.word :: List.replicate 4 c.ackKeyPair.word := by
  rw [State.keyLoaded, State.withItem_txLog]
  simp [State.txLog, State.withKeyPayload, keyloadEvents]

/-- KEYLOAD sent to an idle block stores its eight bytes as the key, and keeps the mode and the ATR index. -/
theorem keyload_completes (c : Config) (n : BitVec 4) {s : State} (w : Fin 8 → Word9) {rest : List Word9}
    (hf : s.fault = none) (hp : s.phase = .idle) (hw : Memory.wf s.nv)
    (hrx : s.rx = encodeWords (.keyload n) ++ (List.ofFn w ++ rest)) :
    ∃ t, Completes c 3 s t rest (c.ackKeyStart.word :: List.replicate 4 c.ackKeyPair.word) ∧
      t.nv = Memory.updateAll s.nv (persistWrites c (.key n.toFin) (payloadBytes w).toList) ∧
      t.cryptMode = s.cryptMode ∧ t.atrIndex = s.atrIndex := by
  have run := stepsWith_three_command (decodeWith_keyload c n) hf (State.sampling_of_idle hp) hrx
    (keyload_next c w rest rfl hw rfl)
  refine ⟨_, ⟨run, rfl, hf, rfl, ?_⟩, ?_, rfl, rfl⟩
  · rw [State.toIdle_txLog, State.keyLoaded_txLog, State.dispatched_txLog]
  · rw [State.toIdle_nv, State.keyLoaded_nv]
    rfl

/-- What the CipherEngine call of a DECRYPT in mode 0 leaves, unless it is for the special audience: the results of
`DecryptPrimary` under the selected key (R120, R263, R264). -/
theorem afterPrimary_out {c : Config} {code : Word16} {s : State} (ha : audience c code s ≠ c.audSpecial) :
    let t := s.afterPrimary c code
    (⟨t.cw, t.aux, t.date, t.wk⟩ : PrimaryOut) =
      decryptPrimary c (keyOf c s.nv (c.keySel (keyIndexOf c code) s.atrIndex)) s.msg := by
  have key : primaryKey c code s = keyOf c s.nv (c.keySel (keyIndexOf c code) s.atrIndex) := if_neg ha
  rw [← key]
  rfl

/-- DECRYPT in mode 0 sent to an idle block, not for the special audience, decrypts with the selected key. -/
theorem decrypt_primary_completes (c : Config) (b : Byte) {s : State} (w : Fin 16 → Word9) {rest : List Word9}
    (hf : s.fault = none) (hp : s.phase = .idle) (hm : s.cryptMode = .primary)
    (hcode : c.decryptCode (encode (.decrypt b)) = true)
    (ha : c.audienceOf (encode (.decrypt b)) (vecOf fun i => dataByte (w i)) (nvViewOf c s.nv) ≠ c.audSpecial)
    (hrx : s.rx = encodeWords (.decrypt b) ++ (List.ofFn w ++ rest)) :
    ∃ t, Completes c 3 s t rest [] ∧
      (⟨t.cw, t.aux, t.date, t.wk⟩ : PrimaryOut) =
        decryptPrimary c (keyOf c s.nv (c.keySel (keyIndexOf c (encode (.decrypt b))) s.atrIndex))
          (vecOf fun i => dataByte (w i)) := by
  have run := stepsWith_three_command (decodeWith_encode (i := .decrypt b) hcode) hf (State.sampling_of_idle hp) hrx
    (decrypt_next c w rest rfl rfl)
  rw [engine_primary (by exact hm)] at run
  refine ⟨_, ⟨run, rfl, hf, rfl, ?_⟩, afterPrimary_out (by exact ha)⟩
  exact (State.withRead_txLog _ _ rest).trans ((State.dispatched_txLog s _ _).trans (List.append_nil _).symm)

/-- Payload bytes are sent as unframed words, in order (R95, R105). -/
theorem payloadWords_ofFn {k : Nat} (x : Fin k → Byte) :
    payloadWords (List.ofFn x) = List.ofFn fun i => plainWord (x i) := List.map_ofFn

/-- Settles O23: the DECRYPT selects the key that the KEYLOAD before it stored. -/
theorem keyReadAfterWrite : Obligations.KeyReadAfterWrite := by
  intro c s n b p m rest hf hp hw hm hcode hsel haud hrx
  rw [payloadWords_ofFn, payloadWords_ofFn, List.append_assoc, List.append_assoc] at hrx
  obtain ⟨u, load, store, mode, atr⟩ := keyload_completes c n _ hf hp hw hrx
  rw [payloadBytes_plainWord] at store
  obtain ⟨t, decrypt, out⟩ := decrypt_primary_completes c b (fun i => plainWord (m i)) load.noFault load.idle
    (mode.trans hm) hcode (by simpa only [dataByte_plainWord, store] using haud) load.rx
  have all := load.trans decrypt
  refine ⟨_, t, all.run, all.idle, all.rx, ?_⟩
  simpa only [dataByte_plainWord, atr, hsel, store, keyOf_persist c s.nv hw] using out

end Sys2Proof.Machine

/-! PROOFS of the statements of the alternate cipher: what each variant gives, that a changed signature no longer
matches, and DECRYPT in the two modes that call it. -/

namespace Sys2Proof.Machine

/-! ## What the rounds come to (R162 to R167) -/

/-- The comparison of R165, as two equations. -/
theorem altMatches_iff {c : Config} {k : AltKey} {m : Bytes ecmLen} :
    altMatches c k m = true ↔
      (altCheckpoint c k m).v0 = altField c m .s0 ∧ (altCheckpoint c k m).v1 = altField c m .s1 := by
  simp [altMatches]

/-- A match: the eight rounds before the comparison and the twenty-four after it are the thirty-two of R166. -/
theorem altOutcome_match {c : Config} {k : AltKey} {m : Bytes ecmLen} (h : altMatches c k m = true) :
    altOutcome c true k m = ⟨(altRun c k 32 (altStart c m)).v0, (altRun c k 32 (altStart c m)).v1, 1, 32⟩ := by
  have rounds : altRun c k 32 (altStart c m) = altRun c k 24 (altCheckpoint c k m) := altRun_add c k 8 24 _
  rw [rounds]
  exact if_pos h

/-- A mismatch: the values compared, and no round after them (R167). -/
theorem altOutcome_mismatch {c : Config} {k : AltKey} {m : Bytes ecmLen} (h : ¬ altMatches c k m = true) :
    altOutcome c true k m = ⟨(altCheckpoint c k m).v0, (altCheckpoint c k m).v1, 0, 8⟩ := if_neg h

/-! ## The three results (R162, R166 to R168) -/

/-- Without verification the fields are put back as they were read (R162, R168). -/
theorem decryptAlternate_unverified (c : Config) (k : AltKey) (m : Bytes ecmLen) :
    decryptAlternate c false k m = ⟨m, altControlWord c m, 1, 0⟩ := by
  have same : putLE32 (putLE32 m (c.altOff .v0) (altField c m .v0)) (c.altOff .v1) (altField c m .v1) = m := by
    rw [altField, put_get m _ (altOff_le c .v0), altField, put_get m _ (altOff_le c .v1)]
  change altRepack c m ⟨altField c m .v0, altField c m .v1, 1, 0⟩ = _
  simp only [altRepack, same]

theorem decryptAlternate_match {c : Config} {k : AltKey} {m : Bytes ecmLen} (h : altMatches c k m = true) :
    decryptAlternate c true k m =
      altRepack c m ⟨(altRun c k 32 (altStart c m)).v0, (altRun c k 32 (altStart c m)).v1, 1, 32⟩ :=
  congrArg (altRepack c m) (altOutcome_match h)

theorem decryptAlternate_mismatch {c : Config} {k : AltKey} {m : Bytes ecmLen} (h : ¬ altMatches c k m = true) :
    decryptAlternate c true k m = altRepack c m ⟨(altCheckpoint c k m).v0, (altCheckpoint c k m).v1, 0, 8⟩ :=
  congrArg (altRepack c m) (altOutcome_mismatch h)

/-- Settles O45: the result does not mention the key, and its control word is that of the message as received. -/
theorem altUnverified : Obligations.AltUnverified := by
  intro c k k' m o
  have result (k : AltKey) := decryptAlternate_unverified c k m
  have out : o = ⟨m, altControlWord c m, 1, 0⟩ := result k
  rw [out]
  exact ⟨rfl, rfl, rfl, result k', fun i => getElem_vecOf _ i.val i.isLt⟩

/-- Settles O46: the values of the thirty-two rounds, repacked. -/
theorem altMatch : Obligations.AltMatch := by
  intro c k m h o r
  have out : o = altRepack c m ⟨r.v0, r.v1, 1, 32⟩ := decryptAlternate_match (altMatches_iff.mpr h)
  rw [out]
  exact ⟨rfl, rfl, altRepack_fields c m _⟩

/-- Settles O47: the values of the eighth round, repacked. -/
theorem altMismatch : Obligations.AltMismatch := by
  intro c k m r h o
  have out : o = altRepack c m ⟨r.v0, r.v1, 0, 8⟩ := decryptAlternate_mismatch fun hm => h (altMatches_iff.mp hm)
  rw [out]
  exact ⟨rfl, rfl, altRepack_fields c m _⟩

/-! ## A changed signature (R169) -/

/-- A message is determined by its four fields (R161). -/
theorem eq_of_altField {c : Config} {m m' : Bytes ecmLen} (h : ∀ f, altField c m' f = altField c m f) : m' = m :=
  bytes_ext fun i hi => by
    obtain ⟨f, j, hj, rfl⟩ := cover c i hi
    exact byteAt_of_get (h f) j hj

theorem altMatches_of_chk {c : Config} {k : AltKey} {m : Bytes ecmLen} (h : (decryptAlternate c true k m).chk = 1) :
    altMatches c k m = true := by
  by_contra hm
  rw [chk_iff, if_neg hm] at h
  exact absurd h (by decide)

/-- The signature that matches is a function of the key, `v0` and `v1`: two messages that agree in these and both match
are the same. -/
theorem eq_of_altMatches {c : Config} {k : AltKey} {m m' : Bytes ecmLen} (h0 : altField c m' .v0 = altField c m .v0)
    (h1 : altField c m' .v1 = altField c m .v1) (hm : altMatches c k m = true) (hm' : altMatches c k m' = true) :
    m' = m := by
  have compared : altCheckpoint c k m' = altCheckpoint c k m := by
    rw [altCheckpoint, altCheckpoint, altStart, altStart, h0, h1]
  obtain ⟨s0, s1⟩ := altMatches_iff.mp hm
  obtain ⟨s0', s1'⟩ := altMatches_iff.mp hm'
  rw [compared] at s0' s1'
  refine eq_of_altField (c := c) fun f => ?_
  cases f with
  | v0 => exact h0
  | v1 => exact h1
  | s0 => exact s0'.symm.trans s0
  | s1 => exact s1'.symm.trans s1

/-- Settles O48: if both matched, their signatures would be the same. -/
theorem tamperedSignatureFails : Obligations.TamperedSignatureFails := by
  intro c k m m' h0 h1 hne hchk
  rw [chk_iff, if_neg]
  exact fun hm' => hne (eq_of_altMatches h0 h1 (altMatches_of_chk hchk) hm')

/-! ## DECRYPT in modes 1 and 2 (R262, R265, R267) -/

/-- What a DECRYPT leaves that called the alternate cipher, got `o` from it and answered with `ws`. -/
def State.alternateDecrypted (s : State) (c : Config) (w : Fin 16 → Word9) (rest : List Word9) (o : AltOut)
    (ws : List SlotWord) : State :=
  { (s.withRead (List.ofFn w) rest).withBurst ws with
    phase := .idle
    held := w 15
    msg := o.msg
    cw := o.cw
    chk := o.chk
    v0 := altField c o.msg .v0
    v1 := altField c o.msg .v1
    altRounds := o.rounds }

/-- The answer to the outcome of the alternate cipher is that of its `chk` (R267 to R269). -/
def alternateWords (c : Config) (code : Word16) (o : AltOut) : List SlotWord :=
  if o.chk = 1 then (c.decOkBurst o.cw (c.keyIndexOf code)).map (·.setWidth 16) else [0x010A]

/-- The locals the call leaves are the two fields of the repacked message (R168). -/
theorem State.afterAlternate_eq (s : State) (c : Config) (code : Word16) (verify : Bool) :
    s.afterAlternate c code verify =
      let o := decryptAlternate c verify (alternateKey c code s) s.msg
      { s with
        msg := o.msg, cw := o.cw, chk := o.chk, altRounds := o.rounds
        v0 := altField c o.msg .v0, v1 := altField c o.msg .v1 } := by
  obtain ⟨v0, v1, -⟩ := altRepack_fields c s.msg (altOutcome c verify (alternateKey c code s) s.msg)
  simp only [State.afterAlternate, decryptAlternate, v0, v1]

theorem decryptWords_alternate {c : Config} {code : Word16} {s : State} (hm : s.cryptMode ≠ .primary) :
    decryptWords c code s = alternateWords c code ⟨s.msg, s.cw, s.chk, s.altRounds⟩ := by
  by_cases h : s.chk = 1
  · rw [words_ok ((ok_alt hm).trans (beq_iff_eq.mpr h))]
    exact (if_pos h).symm
  · rw [words_fail (by rwa [ok_alt hm, beq_iff_eq])]
    exact (if_neg h).symm

/-- DECRYPT in modes 1 and 2 with its sixteen words: the alternate cipher under the key of the key index's parity. -/
theorem decrypt_alternate_next (c : Config) {b : Byte} {s : State} (verify : Bool) (w : Fin 16 → Word9)
    (rest : List Word9) (hp : s.atStart (.decrypt b))
    (hm : s.cryptMode = if verify then .alternateVerified else .alternate) (hrx : s.rx = List.ofFn w ++ rest) :
    let o := decryptAlternate c verify (alternateKey c (encode (.decrypt b)) s) (vecOf fun i => dataByte (w i))
    execWith c (.decrypt b) s =
      .next (s.alternateDecrypted c w rest o (alternateWords c (encode (.decrypt b)) o)) := by
  have notPrimary : s.cryptMode ≠ .primary := by cases verify <;> simp [hm]
  rw [decrypt_next c w rest hp hrx, engine_alt (v := verify) (by exact hm), State.afterAlternate_eq,
    decryptWords_alternate (by exact notPrimary)]
  rfl

/-- Settles O33: the message back as it was, with `chk` 1, so the answer is the burst. -/
theorem decryptModeUnverified : Obligations.DecryptModeUnverified := by
  intro b s w rest hp hm hrx c m cw
  rw [exec_eq, decrypt_alternate_next Config.device false w rest hp hm hrx, decryptAlternate_unverified]
  rfl

/-- Settles O34: a match gives `chk` 1 and the burst, a mismatch `chk` 0 and the failure word. -/
theorem decryptModeVerified : Obligations.DecryptModeVerified := by
  intro b s w rest hp hm hrx c code m k r8 matched o t
  have run : exec (.decrypt b) s = .next (t (alternateWords c code o)) :=
    (exec_eq _ s).trans (decrypt_alternate_next c true w rest hp hm hrx)
  constructor
  · intro h
    have out := decryptAlternate_match (altMatches_iff.mpr h)
    have chk : o.chk = 1 := congrArg AltOut.chk out
    refine ⟨chk, congrArg AltOut.rounds out, ?_⟩
    rw [run, alternateWords, if_pos chk]
  · intro h
    have out := decryptAlternate_mismatch fun hm => h (altMatches_iff.mp hm)
    have chk : o.chk = 0 := congrArg AltOut.chk out
    refine ⟨chk, congrArg AltOut.rounds out, ?_⟩
    rw [run, alternateWords, if_neg (by simp [chk])]

end Sys2Proof.Machine

/-! PROOFS of the dispatch statements: detection on one word and over noise, the step in a dispatched state, and
NOTREADY. -/

namespace Sys2Proof.Machine

/-! ## Detection on one word (R181) -/

/-- A framed word makes a candidate of its byte, in either phase of detection. -/
theorem stepWith_of_framed (c : Config) {s : State} {w : Word9} {rest : List Word9} (hf : s.fault = none)
    (hs : s.sampling = true) (hrx : s.rx = w :: rest) (hw : isFramed w = true) :
    stepWith c s = .next ((s.withRead [w] rest).setPhase (.cand (dataByte w))) := by
  rw [stepWith_sampling hf hs, sample_cons hrx, State.detect]
  split <;> rw [if_pos hw] <;> rfl

/-- An unframed word in `Idle` is dropped. -/
theorem stepWith_idle_of_unframed (c : Config) {s : State} {w : Word9} {rest : List Word9} (hf : s.fault = none)
    (hp : s.phase = .idle) (hrx : s.rx = w :: rest) (hw : isFramed w = false) :
    stepWith c s = .next (s.withRead [w] rest) := by
  rw [stepWith_sampling hf (State.sampling_of_idle hp), sample_cons hrx]
  simp [State.detect, State.withRead, hp, hw]

/-- An unframed word after a candidate completes the code. -/
theorem stepWith_cand_of_unframed (c : Config) {s : State} {h : Byte} {w : Word9} {rest : List Word9}
    (hf : s.fault = none) (hp : s.phase = .cand h) (hrx : s.rx = w :: rest) (hw : isFramed w = false) :
    stepWith c s = .next ((s.withRead [w] rest).setPhase (.run (assembleCode h (dataByte w)) 0)) := by
  rw [stepWith_sampling hf (by simp [State.sampling, hp]), sample_cons hrx]
  simp [State.detect, State.withRead, State.setPhase, hp, hw]

/-- Settles O6: the phase after the word, by its framing bit. -/
theorem detectionStep : Obligations.DetectionStep := by
  intro s w rest hf hrx
  rw [step_eq]
  by_cases hw : w.getLsbD 8 = true
  · have candidate (hs : s.sampling = true) := stepWith_of_framed Config.device hf hs hrx hw
    simp only [hw, if_true]
    exact ⟨fun hp => candidate (State.sampling_of_idle hp), fun h hp => candidate (by simp [State.sampling, hp])⟩
  · rw [Bool.not_eq_true] at hw
    simp only [hw, Bool.false_eq_true, if_false]
    refine ⟨fun hp => ?_, fun h hp => stepWith_cand_of_unframed Config.device hf hp hrx hw⟩
    rw [stepWith_idle_of_unframed Config.device hf hp hrx hw, ← hp]
    rfl

/-! ## Detection over noise (R182) -/

theorem State.withRead_withRead (s : State) (ws vs rest rest' : List Word9) :
    (s.withRead ws rest).withRead vs rest' = s.withRead (ws ++ vs) rest' := by
  simp [State.withRead]

theorem State.setPhase_withRead (s : State) (ph : Phase) (ws rest : List Word9) :
    (s.setPhase ph).withRead ws rest = (s.withRead ws rest).setPhase ph := rfl

/-- Unframed words in `Idle` are dropped, one in a step (R182 (a)). -/
theorem stepsWith_unframed (c : Config) {us rest : List Word9} (hus : ∀ u ∈ us, isFramed u = false) {s : State}
    (hf : s.fault = none) (hp : s.phase = .idle) (hrx : s.rx = us ++ rest) :
    stepsWith c us.length s = some (s.withRead us rest) := by
  induction us generalizing s with
  | nil =>
    obtain rfl : s.rx = rest := hrx
    simp [stepsWith, State.withRead]
  | cons u us ih =>
    obtain ⟨hu, hus⟩ := List.forall_mem_cons.mp hus
    rw [List.length_cons, stepsWith_succ (stepWith_idle_of_unframed c hf hp hrx hu),
      ih hus (by exact hf) (by exact hp) rfl, State.withRead_withRead, List.singleton_append]

/-- Of framed words the last is the candidate (R182 (b)). -/
theorem stepsWith_framed (c : Config) {hs rest : List Word9} {h : Word9} (hhs : ∀ x ∈ hs, isFramed x = true)
    (hh : isFramed h = true) {s : State} (hf : s.fault = none) (hsam : s.sampling = true)
    (hrx : s.rx = hs ++ h :: rest) :
    stepsWith c (hs.length + 1) s = some ((s.withRead (hs ++ [h]) rest).setPhase (.cand (dataByte h))) := by
  induction hs generalizing s with
  | nil => exact stepsWith_succ (stepWith_of_framed c hf hsam hrx hh)
  | cons x hs ih =>
    obtain ⟨hx, hhs⟩ := List.forall_mem_cons.mp hhs
    rw [List.length_cons, stepsWith_succ (stepWith_of_framed c hf hsam hrx hx),
      ih hhs (by exact hf) rfl rfl, State.setPhase_withRead, State.setPhase_setPhase, State.withRead_withRead]
    rfl

/-- Settles O7: the unframed words, the framed words to the last, and the word that completes the code. -/
theorem boundaryAfterNoise : Obligations.BoundaryAfterNoise := by
  intro s us hs h lo rest hf hp hrx hus hhs hh hlo
  let noise := s.withRead us (hs ++ h :: lo :: rest)
  let candidate := (noise.withRead (hs ++ [h]) (lo :: rest)).setPhase (.cand (dataByte h))
  have dropped : stepsWith Config.device us.length s = some noise := stepsWith_unframed _ hus hf hp hrx
  have found : stepsWith Config.device (hs.length + 1) noise = some candidate :=
    stepsWith_framed _ hhs hh hf (State.sampling_of_idle hp) rfl
  have completed := stepWith_cand_of_unframed Config.device (s := candidate) hf rfl rfl hlo
  rw [stepsWith_add, dropped, Option.bind_some, stepsWith_add _ (hs.length + 1) 1, found, Option.bind_some,
    stepsWith_succ completed]
  simp [stepsWith, candidate, noise, State.withRead, State.setPhase]

/-! ## The step in a dispatched state (R184, R188) -/

/-- `withFetchWord` dispatches the code. -/
theorem State.withFetchWord_phase (s : State) (w : Nat) :
    (s.withFetchWord 16 w).phase = .run (BitVec.ofNat 16 w) 0 :=
  congrArg (Phase.run · 0) (BitVec.eq_of_toNat_eq (by simp))

/-- Settles O8: the state `withFetchWord` gives is a dispatched one. -/
theorem stepRunsDecoded : Obligations.StepRunsDecoded :=
  ⟨fun _ _ _ hf hp => step_dispatched hf hp,
    fun s w hf => step_dispatched (s := s.withFetchWord 16 w) hf (s.withFetchWord_phase w)⟩

/-! ## NOTREADY (R187) -/

/-- Settles O37: the handler is one `ChWrite`. -/
theorem notReadyAnswers : Obligations.NotReadyAnswers := fun code s hp =>
  (exec_eq (.notready code) s).trans (fixed_next rfl hp (effect_writes Config.device [wNotReady] s))

end Sys2Proof.Machine

/-! PROOFS of the provisioning statements: the whole next state of the two commands that take a payload, and of the two
that set a register from the code. -/

namespace Sys2Proof.Machine

/-! ## Commands with a payload (R201, R209)

The state is written out by `simp only`, field by field: `rfl` alone would evaluate the sum in `nvWrites`. -/

/-- Settles O15: the acknowledge, the eight words, `Persist` and the acknowledge, as one state. -/
theorem chtabLoadPersists : Obligations.ChtabLoadPersists := by
  intro v s w rest hp hw hrx
  rw [exec_eq, chtabLoad_next Config.device w rest hp hw hrx]
  simp only [State.toIdle, State.chtabLoaded, State.withSent, State.withItem, State.withChtabPayload, State.withRead,
    payloadBytes, dataByte, List.map]

/-- Settles O18: the acknowledged pairs and `Persist`, as one state. -/
theorem keyloadPersists : Obligations.KeyloadPersists := by
  intro n s w rest hp hw hrx
  rw [exec_eq, keyload_next Config.device w rest hp hw hrx]
  simp only [State.toIdle, State.keyLoaded, State.withItem, State.withKeyPayload, keyloadEvents, payloadBytes, dataByte]

/-! ## Commands that set a register (R204, R206) -/

theorem State.atStart.parkedIn {c : Config} {i : Instr} {s : State} (hp : s.atStart i) : ParkedIn c i s :=
  ⟨0, hp, .inl rfl⟩

/-- A command with the SETMODE handler of `m` selects `m` and persists its byte. -/
theorem exec_of_setmodeHandler {i : Instr} {m : CryptMode} {s : State}
    (hh : handlerOf Config.device i = setmodeHandler m) (hp : s.atStart i) :
    exec i s = .next (({ s with cryptMode := m } : State).withItem Config.device .cryptMode [m.toByte]).toIdle :=
  (exec_eq i s).trans (setAndPersist_next hp.parkedIn hh rfl rfl)

/-- Settles O16: each of the three codes has the handler of its mode. -/
theorem setmodeSelects : Obligations.SetmodeSelects := by
  intro i m s him hp
  simp only [List.mem_cons, Prod.mk.injEq, List.not_mem_nil, or_false] at him
  obtain ⟨rfl, rfl⟩ | ⟨rfl, rfl⟩ | ⟨rfl, rfl⟩ := him
  · exact ⟨rfl, exec_of_setmodeHandler rfl hp⟩
  · exact ⟨rfl, exec_of_setmodeHandler rfl hp⟩
  · exact ⟨rfl, exec_of_setmodeHandler rfl hp⟩

/-- Settles O17: the register takes the instruction's byte, which is the low byte of its code. -/
theorem setatrSelects : Obligations.SetatrSelects := by
  intro b s hp
  rw [encode_setatr, codeLow_append]
  exact (exec_eq _ s).trans (setAndPersist_next (p := .setAtr b) hp.parkedIn rfl rfl rfl)

end Sys2Proof.Machine

/-! PROOFS of the query statements: the whole next state of ATR, CHTAB_READ and IDENT, and of ENT with every sub-selector
that asks for no handshake. -/

namespace Sys2Proof.Machine

/-! ## Bursts of bytes (R220, R286) -/

/-- `RbBurst(bytes)` leaves the words of the bytes as the burst. -/
theorem effect_byteBurst (c : Config) {bs : List Byte} (h : bs.length ≤ rbCap) (s : State) :
    effect c (byteBurst bs) s = some (s.withBurst (byteWords bs)) :=
  effect_burst c (byteWords bs) s (by simpa only [byteWords, List.length_map] using h)

/-! ## ATR, CHTAB_READ and IDENT (R221, R223, R224) -/

/-- Settles O24: the handler is one burst, of the payload its low nibble selects. -/
theorem atrBurst : Obligations.AtrBurst := fun s hp =>
  (exec_eq .atr s).trans (one_next rfl hp (effect_byteBurst _ (Config.device.atrPayload_ok _).2 s))

/-- Settles O25: the table is read byte by byte through the layout. -/
theorem chtabReadBurst : Obligations.ChtabReadBurst := by
  intro s hp
  rw [exec_eq, chtabRead_next Config.device hp, chTab_toList]
  rfl

/-- A command with the IDENT handler of `n` leaves payload `n`. -/
theorem exec_of_identHandler {i : Instr} {n : Fin nIdPayload} {s : State}
    (hh : handlerOf Config.device i = identHandler Config.device n) (hp : s.atStart i) :
    exec i s = .next (s.withBurst (byteWords (Config.device.idPayload n))).toIdle :=
  (exec_eq i s).trans (fixed_next hh hp (effect_byteBurst _ (Config.device.idPayload_ok n).2 s))

/-- Settles O26: each of the three codes has the handler of its payload. -/
theorem identBurst : Obligations.IdentBurst := by
  intro i n s hin hp
  simp only [List.mem_cons, Prod.mk.injEq, List.not_mem_nil, or_false] at hin
  obtain ⟨rfl, rfl⟩ | ⟨rfl, rfl⟩ | ⟨rfl, rfl⟩ := hin
  · exact ⟨rfl, exec_of_identHandler rfl hp⟩
  · exact ⟨rfl, exec_of_identHandler rfl hp⟩
  · exact ⟨rfl, exec_of_identHandler rfl hp⟩

/-! ## ENT (R225 to R227) -/

/-- Sub-selectors 0 and 1 select the record of that number (R226). -/
theorem entPrims_record (c : Config) {sub : Byte} {r : Fin nEnt} (h : sub.toNat = r.val) (m : Memory) :
    entPrims c sub m = byteBurst (entOf c m r) := by
  have hsub : sub = BitVec.ofNat 8 r.val := by rw [← h, BitVec.ofNat_toNat, BitVec.setWidth_eq]
  subst hsub
  match r with
  | 0 => rfl
  | 1 => rfl

/-- Sub-selectors 4 to 255 answer with the not-ready word (R227). -/
theorem entPrims_of_four_le (c : Config) {sub : Byte} (h : 4 ≤ sub.toNat) (m : Memory) :
    entPrims c sub m = [.write wNotReady] := by
  have apart {k : Byte} (hk : k.toNat < 4) : sub ≠ k := by
    rintro rfl
    omega
  rw [entPrims, if_neg (apart (by decide)), if_neg (apart (by decide)), if_neg (apart (by decide)),
    if_neg (apart (by decide))]

/-- `s` with the sub-selector of ENT read. -/
def State.withSub (s : State) (w : Word9) (rest : List Word9) : State :=
  { s.withRead [w] rest with buf := s.buf.set 0 (dataByte w) }

/-- ENT reads its sub-selector, and ends as what that one decides leaves the state (R225). -/
theorem ent_next (c : Config) {s t : State} {w : Word9} {rest : List Word9} (hp : s.atStart .ent)
    (hrx : s.rx = w :: rest) (h : effect c (entPrims c (dataByte w) s.nv) (s.withSub w rest) = some t) :
    execWith c .ent s = .next t.toIdle := by
  have sub : (s.withSub w rest).buf[0] = dataByte w := Vector.getElem_set_self _
  refine seq_next rfl hp (s1 := s.withSub w rest) (effect_readBuf0 c hrx) ?_
  rw [sub]
  exact h

/-- Settles O27: the records are untouched by the read of the sub-selector, and no longer than the ResponseBuffer. -/
theorem entRecordBurst : Obligations.EntRecordBurst := by
  intro s r w rest hp hrx hsub
  have fits : (entOf Config.device s.nv r).length ≤ rbCap :=
    (entOf_length Config.device s.nv r).le.trans Config.device.entLen_ok.2
  have burst := effect_byteBurst Config.device fits (s.withSub w rest)
  rw [← entPrims_record Config.device hsub] at burst
  exact (exec_eq .ent s).trans (ent_next Config.device hp hrx burst)

/-- Settles O29: the sub-selector is none of 0 to 3, so one `ChWrite` follows it. -/
theorem entOtherNotReady : Obligations.EntOtherNotReady := by
  intro s w rest hp hrx hsub
  have answer := effect_writes Config.device [wNotReady] (s.withSub w rest)
  rw [List.map_singleton, ← entPrims_of_four_le Config.device hsub s.nv] at answer
  exact (exec_eq .ent s).trans (ent_next Config.device hp hrx answer)

end Sys2Proof.Machine

/-! PROOFS of the handshake statements: the whole next state of HS5E, HS5F and HS05, and of ENT with a sub-selector that
asks for a handshake. -/

namespace Sys2Proof.Machine

/-! ## HS5E, HS5F and HS05 (R241, R245) -/

/-- A command with the handshake handler of a site discards its words and sends its acknowledge words. -/
theorem exec_of_handshakeHandler {i : Instr} {site : HsSite} {s : State} {ws rest : List Word9}
    (hh : handlerOf Config.device i = handshakeHandler Config.device site) (hp : s.atStart i)
    (hl : ws.length = Config.device.hsLen site) (hrx : s.rx = ws ++ rest) :
    exec i s = .next ((s.withRead ws rest).withSent ((Config.device.hsAck site).map AckWord.word)).toIdle :=
  (exec_eq i s).trans (fixed_next hh hp (effect_handshake Config.device site ws rest hl hrx))

/-- Settles O30: each of the five codes has the handler of its site. -/
theorem handshakeAnswers : Obligations.HandshakeAnswers := by
  intro i site s ws rest hin hp hl hrx
  have hh : handlerOf Config.device i = handshakeHandler Config.device site := by
    simp only [List.mem_cons, Prod.mk.injEq, List.not_mem_nil, or_false] at hin
    obtain ⟨rfl, rfl⟩ | ⟨rfl, rfl⟩ | ⟨rfl, rfl⟩ | ⟨rfl, rfl⟩ | ⟨rfl, rfl⟩ := hin <;> rfl
  exact exec_of_handshakeHandler hh hp hl hrx

/-- Settles O31: the handler is the thirty-two discards, the same for either value of bit 0. -/
theorem hs05Discards : Obligations.Hs05Discards := by
  intro v s ws rest hp hl hrx
  have discards := effect_discards Config.device ws rest hrx
  rw [hl] at discards
  exact (exec_eq (.hs05 v) s).trans (fixed_next rfl hp discards)

/-! ## ENT with a handshake (R225, R243) -/

/-- The words a handshake discards are logged behind the sub-selector. -/
theorem State.withRead_withSub (s : State) (w : Word9) (ws rest : List Word9) :
    (s.withSub w (ws ++ rest)).withRead ws rest =
      { s.withRead (w :: ws) rest with buf := s.buf.set 0 (dataByte w) } := by
  simp only [State.withSub, State.withRead, List.map_cons, List.map_nil, List.append_assoc, List.singleton_append]

/-- ENT whose sub-selector asks for the handshake of a site answers as that site does. -/
theorem ent_handshake_next (c : Config) {site : HsSite} {s : State} {w : Word9} {ws rest : List Word9}
    (hsub : entPrims c (dataByte w) s.nv = handshakePrims c site) (hp : s.atStart .ent)
    (hl : ws.length = c.hsLen site) (hrx : s.rx = w :: ws ++ rest) :
    execWith c .ent s = .next (({ s.withRead (w :: ws) rest with buf := s.buf.set 0 (dataByte w) } : State).withSent
      ((c.hsAck site).map AckWord.word)).toIdle := by
  have answer := effect_handshake c site (s := s.withSub w (ws ++ rest)) ws rest hl rfl
  rw [State.withRead_withSub, ← hsub] at answer
  exact ent_next c hp hrx answer

/-- Settles O28: sub-selectors 2 and 3 each ask for the handshake of their site. -/
theorem entHandshake : Obligations.EntHandshake := by
  intro s sub site w ws rest hp hin hw hl hrx
  have hsub : entPrims Config.device (dataByte w) s.nv = handshakePrims Config.device site := by
    rw [dataByte, hw]
    simp only [List.mem_cons, Prod.mk.injEq, List.not_mem_nil, or_false] at hin
    obtain ⟨rfl, rfl⟩ | ⟨rfl, rfl⟩ := hin <;> rfl
  rw [exec_eq, ent_handshake_next Config.device hsub hp hl hrx, dataByte, hw]
  rfl

end Sys2Proof.Machine

/-! PROOFS of the statements of DECRYPT in mode 0: its whole next state, and that a date outside the window ends in the
failure word. -/

namespace Sys2Proof.Machine

/-! ## The outcome and the next state (R260 to R266) -/

/-- The outcome in mode 0: the validation does not apply, or the date and the audience pass it (R266). -/
theorem decryptOk_primary_iff {c : Config} {code : Word16} {s : State} (hm : s.cryptMode = .primary) :
    decryptOk c code s = true ↔
      ¬ (c.validatingPolicy (s.atrIndex.extractLsb' 4 4) = true ∧ audience c code s ≠ c.audSpecial) ∨
        (s.minDate.toNat ≤ s.date.toNat ∧ s.date.toNat ≤ s.maxDate.toNat ∧
          c.audienceMatch (audience c code s) s.aux = true) := by
  have passes : decryptOk c code s =
      (!validates c code s || (inWindow s && c.audienceMatch (audience c code s) s.aux)) := by
    rw [decryptOk, hm]
  have applies : validates c code s = true ↔
      c.validatingPolicy (s.atrIndex.extractLsb' 4 4) = true ∧ audience c code s ≠ c.audSpecial :=
    validates_iff c code s
  rw [passes, Bool.or_eq_true, Bool.not_eq_true', ← Bool.not_eq_true, applies]
  simp only [inWindow, Bool.and_eq_true, decide_eq_true_eq, and_assoc]

/-- What the CipherEngine call of a DECRYPT in mode 0 leaves, its sixteen words read. -/
def State.primaryCalled (s : State) (c : Config) (code : Word16) (w : Fin 16 → Word9) (rest : List Word9) : State :=
  (s.withMessage w rest).afterPrimary c code

/-- DECRYPT in mode 0 with its sixteen words: one call of `DecryptPrimary`, then the burst of its outcome. -/
theorem decrypt_primary_next (c : Config) {b : Byte} {s : State} (w : Fin 16 → Word9) (rest : List Word9)
    (hp : s.atStart (.decrypt b)) (hm : s.cryptMode = .primary) (hrx : s.rx = List.ofFn w ++ rest) :
    let called := s.primaryCalled c (encode (.decrypt b)) w rest
    execWith c (.decrypt b) s = .next (called.withBurst (decryptWords c (encode (.decrypt b)) called)).toIdle := by
  rw [decrypt_next c w rest hp hrx, engine_primary (by exact hm)]
  rfl

/-- Settles O32: the outcome decides between the burst and the failure word. -/
theorem decryptModePrimary : Obligations.DecryptModePrimary := by
  intro b s w rest hp hm hrx c code m aud key o validate ok t
  let called := s.primaryCalled c code w rest
  have outcome : decryptOk c code called = true ↔ ok := decryptOk_primary_iff (s := called) hm
  have run : exec (.decrypt b) s = .next (t (decryptWords c code called)) :=
    (exec_eq _ s).trans (decrypt_primary_next c w rest hp hm hrx)
  constructor
  · intro pass
    rw [run, words_ok (outcome.mpr pass)]
    rfl
  · intro fails
    rw [run, words_fail (mt outcome.mp fails)]

/-! ## A date outside the window (R270) -/

/-- The date that is validated, unless the message is for the special audience: that of `DecryptPrimary` under the
selected key (R135, R263). -/
theorem State.primaryCalled_date {c : Config} {code : Word16} {s : State} {w : Fin 16 → Word9} {rest : List Word9}
    (ha : audience c code (s.primaryCalled c code w rest) ≠ c.audSpecial) :
    (s.primaryCalled c code w rest).date =
      (decryptPrimary c (keyOf c s.nv (c.keySel (keyIndexOf c code) s.atrIndex)) (vecOf fun i => dataByte (w i))).date :=
  congrArg PrimaryOut.date (afterPrimary_out (s := s.withMessage w rest) ha)

/-- A validated date outside the window fails the DECRYPT, whatever `AudienceMatch` says (R266). -/
theorem decryptOk_of_dateOutside {c : Config} {code : Word16} {s : State} (hm : s.cryptMode = .primary)
    (hv : c.validatingPolicy (s.atrIndex.extractLsb' 4 4) = true) (ha : audience c code s ≠ c.audSpecial)
    (hd : s.date.toNat < s.minDate.toNat ∨ s.maxDate.toNat < s.date.toNat) : ¬ decryptOk c code s = true := by
  rw [decryptOk_primary_iff hm]
  rintro (unvalidated | ⟨notBefore, notAfter, -⟩)
  · exact unvalidated ⟨hv, ha⟩
  · omega

/-- The failure word alone as it is popped: already framed, and after it the buffer is empty (R269, R283). -/
theorem popAll_two_failure (s : State) : popAll 2 (s.withBurst [0x010A]) = [0x10A, 0x100] := by
  have drained := popAll_queue 1 (s.withBurst [0x010A])
  rw [withBurst_queue _ _ (by decide)] at drained
  exact drained

/-- DECRYPT in mode 0 sent to an idle block, whose outcome fails, leaves the failure word alone in the buffer. -/
theorem decrypt_failure_completes (c : Config) (b : Byte) {s : State} (w : Fin 16 → Word9) {rest : List Word9}
    (hf : s.fault = none) (hp : s.phase = .idle) (hm : s.cryptMode = .primary)
    (hcode : c.decryptCode (encode (.decrypt b)) = true)
    (fails : ¬ decryptOk c (encode (.decrypt b)) (s.primaryCalled c (encode (.decrypt b)) w rest) = true)
    (hrx : s.rx = encodeWords (.decrypt b) ++ (List.ofFn w ++ rest)) :
    ∃ t, Completes c 3 s t rest [] ∧ t.len = 1 ∧ popAll 2 t = [0x10A, 0x100] := by
  have run := stepsWith_three_command (decodeWith_encode (i := .decrypt b) hcode) hf (State.sampling_of_idle hp) hrx
    (decrypt_primary_next c w rest rfl hm rfl)
  rw [words_fail (by exact fails)] at run
  refine ⟨_, ⟨run, rfl, hf, rfl, ?_⟩, rfl, (popAll_congr 2 _ _ rfl rfl rfl).trans (popAll_two_failure _)⟩
  exact (State.withRead_txLog _ _ rest).trans ((State.dispatched_txLog s _ _).trans (List.append_nil _).symm)

/-- Settles O35: the DECRYPT fails, and the two POPs drain its one word and find the buffer empty. -/
theorem dateOutsideWindowFails : Obligations.DateOutsideWindowFails := by
  intro c s b m rest hf hp hm hcode hv ha hd hrx
  rw [payloadWords_ofFn, List.append_assoc] at hrx
  let w := fun i => plainWord (m i)
  let called := s.primaryCalled c (encode (.decrypt b)) w (popScript 2 ++ rest)
  have msg : (vecOf fun i => dataByte (w i)) = vecOf m := congrArg vecOf (funext fun i => dataByte_plainWord (m i))
  have aud : audience c (encode (.decrypt b)) called ≠ c.audSpecial := by rwa [← msg] at ha
  have date := State.primaryCalled_date aud
  rw [msg] at date
  have outside : called.date.toNat < s.minDate.toNat ∨ s.maxDate.toNat < called.date.toNat := by rwa [date]
  obtain ⟨u, decrypt, len, words⟩ := decrypt_failure_completes c b w hf hp hm hcode
    (decryptOk_of_dateOutside (s := called) hm hv aud outside) hrx
  obtain ⟨t, drain, -, len'⟩ := pops_complete c 2 decrypt.noFault decrypt.idle decrypt.rx
  rw [words] at drain
  have all := decrypt.trans drain
  exact ⟨t, all.run, all.idle, all.rx, by rw [len', len], all.tx⟩

end Sys2Proof.Machine

/-! PROOFS of the statements of the ResponseBuffer: the law of the queue, framing, a push that finds no room, and POP. -/

namespace Sys2Proof.Machine

/-! ## The law of the queue (R282, R285, R287) -/

theorem queue_eq_nil {s : State} (h : s.len = 0) : s.queue = [] :=
  List.length_eq_zero_iff.mp ((queue_length s).trans h)

/-- Settles O38: the pushes leave the words as the queue, and the pops drain it. -/
theorem fifoLaw : Obligations.FifoLaw := by
  intro c s ws n empty fits
  obtain ⟨t, push, queue, len⟩ := pushAll_queue c ws s (by rw [empty, Nat.zero_add]; exact fits)
  rw [queue_eq_nil empty, List.nil_append] at queue
  rw [empty, Nat.zero_add] at len
  exact ⟨t, push, by rw [← len, popAll_queue, queue]⟩

/-! ## Framing (R283) -/

theorem rbFrame_of_empty {s : State} (h : s.len = 0) : s.rbFrame = s := if_neg (by omega)

theorem rbFrame_of_nonempty {s : State} (h : 1 ≤ s.len) :
    s.rbFrame = (s.frameSlot s.rd).frameSlot (slotIndex (s.rd.val + s.len - 1)) := if_pos h

theorem frameSlot_getElem (s : State) (i j : Fin rbCap) :
    (s.frameSlot i).slot[j] = if j = i then s.slot[j] ||| frameMask else s.slot[j] := by
  simp only [State.frameSlot_slot, Fin.getElem_fin, Vector.getElem_set]
  by_cases h : j = i
  · subst h
    rw [if_pos rfl, if_pos rfl]
  · rw [if_neg fun e => h (Fin.ext e).symm, if_neg h]

/-- Two framed slots, whether or not they are the same: the bit is set by OR, and a second time is no change. -/
theorem frameSlot_frameSlot_getElem (s : State) (i k j : Fin rbCap) :
    ((s.frameSlot i).frameSlot k).slot[j] = if j = i ∨ j = k then s.slot[j] ||| frameMask else s.slot[j] := by
  rw [frameSlot_getElem, frameSlot_getElem]
  by_cases hk : j = k
  · rw [if_pos hk, if_pos (Or.inr hk)]
    by_cases hi : j = i
    · rw [if_pos hi, BitVec.or_assoc, BitVec.or_self]
    · rw [if_neg hi]
  · simp only [hk, if_false, or_false]

/-- Settles O40: the first slot is at the cursor, the last `len - 1` past it. -/
theorem frameSetsEnds : Obligations.FrameSetsEnds := by
  intro s
  refine ⟨rbFrame_of_empty, fun nonempty _ => ?_⟩
  rw [rbFrame_of_nonempty nonempty]
  refine ⟨rfl, fun i => ?_⟩
  rw [frameSlot_frameSlot_getElem]
  simp only [Fin.ext_iff, slotIndex, rbCap, frameMask_eq]

/-! ## A push onto a full buffer (R284, R305) -/

theorem perform_rbPush_of_full (c : Config) {s : State} (h : rbCap ≤ s.len) (w : SlotWord) :
    Prim.perform c (.rbPush w) s = .raised (.capacityViolation w) := if_pos (decide_eq_true h)

/-- The first fault stays recorded (R305). -/
theorem State.raise_eq (s : State) (f : ModelFault) : s.raise f = { s with fault := some (s.fault.getD f) } := by
  unfold State.raise
  cases s.fault <;> rfl

theorem step_raise (s : State) (f : ModelFault) : step (s.raise f) = .fault (.recorded (s.fault.getD f)) :=
  step_recorded (congrArg State.fault (s.raise_eq f))

/-- Settles O39: the push is refused, and after a raise the recorded fault is all a step answers. -/
theorem capacityViolation : Obligations.CapacityViolation := fun c s w full =>
  ⟨perform_rbPush_of_full c full.ge w, fun f => ⟨s.raise_eq f, step_raise s f⟩⟩

/-! ## POP (R285, R288) -/

theorem rbPop_of_empty {s : State} (h : s.len = 0) : s.rbPop = (wIdle, s) := if_pos h

theorem rbPop_of_nonempty {s : State} (h : s.len ≠ 0) :
    s.rbPop = (s.slot[s.rd].extractLsb' 0 wordBits, { s with rd := s.rd + 1, len := s.len - 1 }) := if_neg h

/-- Settles O36: `RbPop` on an empty and on a non-empty buffer, and the `ChWrite` of its word. -/
theorem popReturns : Obligations.PopReturns := by
  intro s start
  rw [exec_eq, pop_next Config.device start]
  constructor
  · intro empty
    rw [rbPop_of_empty empty]
    rfl
  · intro nonempty
    rw [rbPop_of_nonempty nonempty]
    rfl

end Sys2Proof.Machine

/-! PROOFS of the reset statements: what first initialisation leaves, and a reset that fails. -/

namespace Sys2Proof.Machine

/-! ## The items after seeding (R321) -/

section Seeded
variable (c : Config) {m : Memory} (hw : Memory.wf m)
include hw

theorem vecOf_seeded {n : Nat} {item : NvItem} {v : Bytes n} (h : (item, v.toList) ∈ seedItems c) :
    (vecOf fun i => itemByte c (seededFrom c m) item i) = v :=
  vecOf_eq fun i hi => (seeded_item c m hw item _ h i (by simpa using hi)).trans (Vector.getElem_toList _)

theorem keyOf_seeded (n : Fin nKey) : keyOf c (seededFrom c m) n = c.defKey n :=
  vecOf_seeded c hw (mem_seedItems.mpr (by simp))

theorem spKeyOf_seeded : spKeyOf c (seededFrom c m) = c.defSpKey := vecOf_seeded c hw (mem_seedItems.mpr (by simp))

theorem chTabOf_seeded : chTabOf c (seededFrom c m) = c.defChTab := vecOf_seeded c hw (mem_seedItems.mpr (by simp))

/-- Byte `i` of word `j` of a seeded alternate key (R77). -/
theorem itemByte_altKey_seeded (p : Fin nAltKey) (j i : Nat) (hj : j < 4) (hi : i < 4) :
    itemByte c (seededFrom c m) (.altKey p) (4 * j + i) = byteOfWord (c.defAltKey p)[j] i :=
  (seeded_item c m hw (.altKey p) (altKeyBytes (c.defAltKey p)) (mem_seedItems.mpr (by simp)) _
    (by rw [altKeyBytes_length]; omega)).trans (altKeyBytes_get _ j i hj hi _)

/-- The bytes of a seeded alternate key make up its words again (R77). -/
theorem altKeyOf_seeded (p : Fin nAltKey) : altKeyOf c (seededFrom c m) p = c.defAltKey p := by
  refine Vector.ext fun j hj => ?_
  have byte (i : Nat) (hi : i < 4) := itemByte_altKey_seeded c hw p j i hj hi
  rw [altKey_get c _ p j hj, byte 1 (by decide), byte 2 (by decide), byte 3 (by decide)]
  exact (congrArg (le32 · _ _ _) (byte 0 (by decide))).trans (le32_byteOfWord _)

theorem entOf_seeded (r : Fin nEnt) : entOf c (seededFrom c m) r = (List.range c.entLen).map (c.defEnt r) :=
  List.ext_getElem (by simp) fun i hi hi' =>
    Eq.trans (by simp [entOf, itemBytes])
      (seeded_item c m hw (.ent r) _ (mem_seedItems.mpr (by simp)) i hi')

theorem nvCryptModeOf_seeded : nvCryptModeOf c (seededFrom c m) = c.defCryptMode.toByte :=
  seeded_item c m hw .cryptMode [c.defCryptMode.toByte] (mem_seedItems.mpr (by simp)) 0 Nat.one_pos

theorem nvAtrIndexOf_seeded : nvAtrIndexOf c (seededFrom c m) = c.defAtrIndex :=
  seeded_item c m hw .atrIndex [c.defAtrIndex] (mem_seedItems.mpr (by simp)) 0 Nat.one_pos

end Seeded

/-! ## First initialisation (R321 to R325) -/

/-- Settles O53: each item as it was seeded, and the working copies and the window loaded from the items. -/
theorem firstInitDefaults : Obligations.FirstInitDefaults := by
  intro c s hw t
  have mode : t.cryptMode = c.defCryptMode := by
    change modeOfByte c (nvCryptModeOf c (seededFrom c s.nv)) = _
    rw [nvCryptModeOf_seeded c hw, modeOfByte_toByte]
  have ent (r : Fin nEnt) : entOf c t.nv r = (List.range c.entLen).map (c.defEnt r) := entOf_seeded c hw r
  refine ⟨keyOf_seeded c hw, spKeyOf_seeded c hw, altKeyOf_seeded c hw, chTabOf_seeded c hw, ent,
    nvCryptModeOf_seeded c hw, nvAtrIndexOf_seeded c hw, mode, nvAtrIndexOf_seeded c hw, ?_, ?_,
    rfl, rfl, rfl, rfl, rfl, rfl, rfl⟩
  · change c.minDateOf (entOf c t.nv 0) (entOf c t.nv 1) = _
    rw [ent, ent]
  · change c.maxDateOf (entOf c t.nv 0) (entOf c t.nv 1) = _
    rw [ent, ent]

/-! ## A reset that fails (R326) -/

/-- Settles O55: the failure is raised with no earlier fault in the way, and a raise touches neither words nor log. -/
theorem resetFailureStops : Obligations.ResetFailureStops := fun c kind n s =>
  ⟨rfl, rfl, rfl, step_raise { s with nv := Memory.updateAll s.nv ((resetWrites c kind).take n), fault := none } _⟩

end Sys2Proof.Machine
